-- ==== Sys2Proof/Word.lean ====
section
/-! DEFINITION. The plain words of CORE (00_scope.md rule R7, rule R10): a byte is 8 bits, all numbers
are unsigned. -/

namespace Sys2Proof

/-- A byte, the symbol of the codec: values 0 to 255 (00_scope.md rule R7, `SYM_BITS`). -/
abbrev Byte := BitVec 8

/-- A 64-bit unsigned quantity: an occurrence count, a bit length, a stream offset (rule R7). -/
abbrev Word64 := BitVec 64

/-- A node id, 0 to 510 (10_state.md rule R23, `NODE[0..510]`). -/
abbrev NodeId := Fin 511

end Sys2Proof
end

