-- ==== Sys2Proof/Config.lean ====
section
/-! DEFINITION. What is fixed for the machine: the parameters of 00_scope.md rule R7 to rule R9. The
spec leaves no value of an operation open, so this file holds no free value. -/

namespace Sys2Proof.Config

/-- `NSYM`, the number of byte values (rule R7). -/
def nsym : Nat := 256

/-- `NNODE`, the tree node capacity (rule R8). -/
def nnode : Nat := 511

/-- `HDR_FIXED`, the bytes before the first record (rule R7). -/
def hdrFixed : Nat := 10

/-- `REC_BYTES`, the bytes of one record (rule R7). -/
def recBytes : Nat := 9

/-- The largest value of a 64-bit quantity (rule R7, `W_FREQ`, `W_BITLEN`). -/
def maxWord64 : Nat := 2 ^ 64 - 1

/-- The largest depth of a leaf, and so the largest code length (rule R8, `W_CODELEN`: "a tree of 256
leaves has depth at most 255"). -/
def maxDepth : Nat := 255

/-- DESIGN CHOICE, safe (notes/assumptions/5.md). `IN_CAP` of rule R9: the number of input bytes a pass
can deliver, which is what the 64-bit register `IN_POS` can count. -/
def inCap : Nat := 2 ^ 64 - 1

end Sys2Proof.Config
end

