-- ==== Sys2Proof/Syntax.lean ====
section
/-! DEFINITION. The operations of CORE, one constructor for each row of spec/opcode_table.json
(30_encoding.md rule R90 for the operations, rule R98 and rule R99 for the two data formats). -/

namespace Sys2Proof

/-- An operation of CORE. The two commands and the phases have no operand fields (30_encoding.md
rule R91, rule R107); the two formats of the key carry theirs. -/
inductive Instr where
  /-- HUFF, the compress command (46_commands.md rule R227). -/
  | huff
  /-- PUFF, the decompress command (46_commands.md rule R228). -/
  | puff
  /-- RESET, the reset input (70_reset_and_hazards.md rule R280). -/
  | reset
  /-- COUNT, the Frequency Counter's phase (40_frequency_counter.md rule R131). -/
  | count
  /-- BUILD, the Tree Builder's phase (41_tree_builder.md rule R141). -/
  | build
  /-- ASSIGN, the Code Assigner's phase (42_code_assigner.md rule R161). -/
  | assign
  /-- PACK, the Bit Encoder's phase (43_bit_packer.md rule R171). -/
  | pack
  /-- KEYWR, the Key Serializer's phase (44_key_serializer.md rule R186). -/
  | keywr
  /-- KEYRD, the Key Deserializer's phase (44_key_serializer.md rule R192). -/
  | keyrd
  /-- UNPACK, the Bit Decoder's phase (45_bit_unpacker.md rule R211). -/
  | unpack
  /-- COMMIT, the hand-over of the output (46_commands.md rule R230). -/
  | commit
  /-- KEY.HEADER, the fixed part of the key (30_encoding.md rule R98). -/
  | keyHeader (headerLength : BitVec 16) (encodedBitLen : Word64)
  /-- KEY.RECORD, one record of the key (30_encoding.md rule R99). -/
  | keyRecord (byteValue : Byte) (frequency : Word64)
  deriving DecidableEq, Repr

end Sys2Proof
end

