-- ==== Sys2Proof/WellFormed.lean ====
section
/-! DEFINITION. Which terms of `Instr` a serializer can have written. An operation without fields is
always well formed; the two data formats have one check each. An ill-formed format is still decoded
and still has its meaning: KEYRD faults on it (44_key_serializer.md rule R194, rule R196). -/

namespace Sys2Proof

/-- 30_encoding.md rule R101: "A header is well formed when `header_length >= 10` and
`(header_length - 10) mod 9 = 0`." -/
def headerLengthOk (headerLength : BitVec 16) : Bool :=
  decide (10 ≤ headerLength.toNat) && decide ((headerLength.toNat - 10) % 9 = 0)

/-- 30_encoding.md rule R105: a record with `frequency = 0` is never written. -/
def frequencyOk (frequency : Word64) : Bool := decide (frequency ≠ 0)

/-- The well-formed operations. -/
def WellFormed : Instr → Bool
  | .huff => true
  | .puff => true
  | .reset => true
  | .count => true
  | .build => true
  | .assign => true
  | .pack => true
  | .keywr => true
  | .keyrd => true
  | .unpack => true
  | .commit => true
  | .keyHeader headerLength _ => headerLengthOk headerLength
  | .keyRecord _ frequency => frequencyOk frequency

end Sys2Proof
end

