-- ==== Sys2Proof/Decode.lean ====
section
/-! DEFINITION. The encodings of CORE and their decoder (30_encoding.md), total and rejecting by name,
and after it the encoder. There are five places an operation is read from: the command register (32
bits, rule R91), the reset input (rule R90), the phase register (4 bits, rule R94), and the two formats
of the key (10 bytes, rule R98; 9 bytes, rule R99). -/

namespace Sys2Proof

/-! ### Big-endian fields (00_scope.md rule R11) -/

/-- `BE16(v)`: the two bytes `v[15:8], v[7:0]`. -/
def be16 (v : BitVec 16) : List Byte :=
  [v.extractLsb' 8 8, v.extractLsb' 0 8]

/-- `BE64(v)`: the eight bytes `v[63:56], v[55:48], ..., v[7:0]`. -/
def be64 (v : Word64) : List Byte :=
  [v.extractLsb' 56 8, v.extractLsb' 48 8, v.extractLsb' 40 8, v.extractLsb' 32 8,
   v.extractLsb' 24 8, v.extractLsb' 16 8, v.extractLsb' 8 8, v.extractLsb' 0 8]

/-- `be(s)`: the sum over `i` of `s[i] * 256^(n-1-i)`, `n` the length of `s`. -/
def be : List Byte → Nat
  | [] => 0
  | b :: rest => b.toNat * 256 ^ rest.length + be rest

/-! ### The encoded forms -/

/-- What an operation is read from. -/
inductive Encoded where
  /-- A word written to `CMD` (rule R91). -/
  | cmd (word : BitVec 32)
  /-- The level of the reset input (rule R90). -/
  | resetInput (level : BitVec 1)
  /-- The content of `STATUS.PHASE` (rule R94). -/
  | phase (code : BitVec 4)
  /-- Bytes standing where the fixed part of a key stands (rule R98). -/
  | header (bytes : List Byte)
  /-- Bytes standing where a record of a key stands (rule R99). -/
  | record (bytes : List Byte)
  deriving DecidableEq, Repr

/-- Why the decoder rejects. -/
inductive Rejection where
  /-- A command word that is neither of the two (rule R93). -/
  | illegalCommand
  /-- The reset input is not asserted. -/
  | resetNotAsserted
  /-- `PHASE = 0`: no command has started a phase (rule R94). -/
  | phaseIdle
  /-- `PHASE` 9 to 15: never written (rule R94). -/
  | phaseNeverWritten
  /-- Not the ten bytes of a fixed part (rule R98). -/
  | notTenBytes
  /-- Not the nine bytes of a record (rule R99). -/
  | notNineBytes
  deriving DecidableEq, Repr

/-- The decoder's answer. -/
inductive Decoded where
  | instr (i : Instr)
  | rejected (why : Rejection)
  deriving DecidableEq, Repr

/-! ### The decoder -/

/-- The word of HUFF: the characters h, u, f, f (rule R92). -/
def huffWord : BitVec 32 := 0x68756666#32

/-- The word of PUFF: the characters p, u, f, f (rule R92). -/
def puffWord : BitVec 32 := 0x70756666#32

/-- Rule R92, rule R93: all 32 bits are compared; every other word is illegal. -/
def decodeCommand (word : BitVec 32) : Decoded :=
  if word = huffWord then .instr .huff
  else if word = puffWord then .instr .puff
  else .rejected .illegalCommand

/-- Rule R94: the phase codes. -/
def decodePhase (code : BitVec 4) : Decoded :=
  match code.toNat with
  | 0 => .rejected .phaseIdle
  | 1 => .instr .count
  | 2 => .instr .build
  | 3 => .instr .assign
  | 4 => .instr .pack
  | 5 => .instr .keywr
  | 6 => .instr .keyrd
  | 7 => .instr .unpack
  | 8 => .instr .commit
  | _ => .rejected .phaseNeverWritten

/-- Rule R98: `header_length` is bytes 0 to 1, big-endian. -/
def headerLengthOf (bytes : List Byte) : BitVec 16 := BitVec.ofNat 16 (be (bytes.take 2))

/-- Rule R98: `encoded_bit_len` is bytes 2 to 9, big-endian. -/
def encodedBitLenOf (bytes : List Byte) : Word64 := BitVec.ofNat 64 (be ((bytes.drop 2).take 8))

/-- Rule R99: `byte_value` is byte 0 of the record. -/
def byteValueOf (bytes : List Byte) : Byte := bytes.headD 0

/-- Rule R99: `frequency` is bytes 1 to 8 of the record, big-endian. -/
def frequencyOf (bytes : List Byte) : Word64 := BitVec.ofNat 64 (be ((bytes.drop 1).take 8))

/-- The decoder, total on every encoded form. -/
def decode : Encoded → Decoded
  | .cmd word => decodeCommand word
  | .resetInput level => if level = 1 then .instr .reset else .rejected .resetNotAsserted
  | .phase code => decodePhase code
  | .header bytes =>
    if bytes.length = 10 then .instr (.keyHeader (headerLengthOf bytes) (encodedBitLenOf bytes))
    else .rejected .notTenBytes
  | .record bytes =>
    if bytes.length = 9 then .instr (.keyRecord (byteValueOf bytes) (frequencyOf bytes))
    else .rejected .notNineBytes

/-! ### The encoder -/

/-- The encoder, from the same tables: rule R92 (commands), rule R90 (reset), rule R94 (phases),
rule R98 and rule R99 (formats). -/
def encode : Instr → Encoded
  | .huff => .cmd huffWord
  | .puff => .cmd puffWord
  | .reset => .resetInput 1
  | .count => .phase 1
  | .build => .phase 2
  | .assign => .phase 3
  | .pack => .phase 4
  | .keywr => .phase 5
  | .keyrd => .phase 6
  | .unpack => .phase 7
  | .commit => .phase 8
  | .keyHeader headerLength encodedBitLen => .header (be16 headerLength ++ be64 encodedBitLen)
  | .keyRecord byteValue frequency => .record (byteValue :: be64 frequency)

/-- The number of bits of an encoded form, as the opcode table's pattern gives it. -/
def Encoded.width : Encoded → Nat
  | .cmd _ => 32
  | .resetInput _ => 1
  | .phase _ => 4
  | .header bytes => 8 * bytes.length
  | .record bytes => 8 * bytes.length

/-! ### Words as spec/opcode_table.json numbers them -/

/-- The `n` bytes of the number `w`, most significant first: rule R98 and rule R99 put byte 0 of a
format in the highest bits of its pattern. -/
def patternBytes (n w : Nat) : List Byte :=
  (List.range n).map fun k => BitVec.ofNat 8 (w / 256 ^ (n - 1 - k))

/-- The encoded form that a row's `nbits` bits of value `w` are. A phase row has 4 bits, one byte when
counted in whole bytes; RESET has one bit and is named here by its width 1, because in whole bytes it
would be the same word as COUNT (notes/assumptions/12.md). -/
def tableForm (nbits w : Nat) : Option Encoded :=
  match nbits with
  | 1 => if w < 2 then some (.resetInput (BitVec.ofNat 1 w)) else none
  | 4 => if w < 16 then some (.phase (BitVec.ofNat 4 w)) else none
  | 8 => if w < 16 then some (.phase (BitVec.ofNat 4 w)) else none
  | 32 => if w < 2 ^ 32 then some (.cmd (BitVec.ofNat 32 w)) else none
  | 72 => if w < 2 ^ 72 then some (.record (patternBytes 9 w)) else none
  | 80 => if w < 2 ^ 80 then some (.header (patternBytes 10 w)) else none
  | _ => none

/-- The decoder's instruction, if it gives one. -/
def Decoded.instr? : Decoded → Option Instr
  | .instr i => some i
  | .rejected _ => none

/-- The instruction the decoder reads from a row of spec/opcode_table.json. -/
def decodeTableWord (nbits w : Nat) : Option Instr :=
  match tableForm nbits w with
  | some e => (decode e).instr?
  | none => none

end Sys2Proof
end

