-- ==== Sys2Proof/Machine/State.lean ====
section
/-! DEFINITION. The state of CORE, item by item as 10_state.md rule R21 lists it, the host's side of the
step beside it, the reasons a step can stop, and the state after reset. -/

namespace Sys2Proof.Machine

/-! ### The values of the items -/

/-- `STATUS.STATE`: all four codes are used (30_encoding.md rule R95). -/
inductive RunState where
  | idle
  | busy
  | done
  | fault
  deriving DecidableEq, Repr

/-- `IN_PASS`: 0 for pass 1, 1 for pass 2 (10_state.md rule R33). -/
inductive Pass where
  | one
  | two
  deriving DecidableEq, Repr

/-- An entry of `NODE` (10_state.md rule R23). -/
structure Node where
  /-- 1 for a leaf, 0 for an internal node. -/
  leaf : Bool
  /-- The byte value of a leaf. -/
  byte : Byte
  /-- The cumulative frequency. -/
  freq : Word64
  /-- The minimum byte value in the subtree. -/
  minb : Byte
  /-- The left child of an internal node. -/
  left : NodeId
  /-- The right child of an internal node. -/
  right : NodeId
  deriving DecidableEq, Repr

/-- An entry of `CODE` (10_state.md rule R25): `len = 0` means "no entry". -/
structure Code where
  /-- The code value, below `2^len`. -/
  val : BitVec 255
  /-- The code length. -/
  len : BitVec 8
  deriving DecidableEq, Repr

/-! ### The host's side (not state of CORE: 10_state.md rule R35) -/

/-- The host's answer to a stream call (20_memory.md rule R61 to rule R63). -/
inductive HostAnswer where
  /-- The call is served. -/
  | ok
  /-- An I/O failure. -/
  | err
  deriving DecidableEq, Repr

/-- A move of the host between two steps of CORE (70_reset_and_hazards.md rule R291). -/
inductive HostAction where
  /-- The host does nothing and CORE takes the step. -/
  | letRun
  /-- The host asserts the reset input (rule R280). -/
  | reset
  /-- The host writes `CMD` (46_commands.md rule R225). -/
  | writeCmd (word : BitVec 32)
  /-- The host reads `STATUS` (46_commands.md rule R232). -/
  | readStatus
  /-- The host takes `OUT` (rule R283). -/
  | takeOut
  /-- The host makes the input of a command ready, with its answers to come (rule R282). -/
  | offer (in1 in2 : List Byte) (answers : List HostAnswer)
  deriving DecidableEq, Repr

/-- DESIGN CHOICE, safe (notes/assumptions/2.md, notes/assumptions/3.md). What the host holds and will do,
as plain data: every statement about a step holds for every value of it. -/
structure HostSide where
  /-- `IN1`, what pass 1 returns (10_state.md rule R33). -/
  in1 : List Byte
  /-- `IN2`, what pass 2 returns. -/
  in2 : List Byte
  /-- The answers to the coming stream calls, first call first; past the end the answer is `ok`. -/
  answers : List HostAnswer
  /-- The host's coming moves, one a step; past the end CORE takes every step. -/
  actions : List HostAction
  /-- The `STATUS` word the host last read. -/
  statusRead : Option (BitVec 32)
  /-- The output the host last took. -/
  taken : Option (List Byte)
  deriving DecidableEq, Repr

end Sys2Proof.Machine

namespace Sys2Proof.Machine

/-! ### The state -/

/-- The state: the items of 10_state.md rule R21, each with the width it gives, and the host's side. -/
structure State where
  /-- `CMD`, the last command word accepted. -/
  cmd : BitVec 32
  /-- `STATUS.STATE`. -/
  state : RunState
  /-- `STATUS.PHASE`, the counterpart of a program counter (46_commands.md rule R229). -/
  phase : BitVec 4
  /-- `STATUS.ERR`. -/
  err : BitVec 4
  /-- `STATUS.ERRCLASS`. -/
  errclass : BitVec 3
  /-- `FREQ[0..255]`, the ByteFrequencyTable (rule R22). -/
  freq : Vector Word64 256
  /-- `NODE[0..510]`, the tree nodes (rule R23). -/
  node : Vector Node 511
  /-- `POOL`, the ids of the nodes not yet merged, strictly rising (rule R24). -/
  pool : List NodeId
  /-- `NEXT_ID`, the id of the next internal node (rule R24). -/
  nextId : BitVec 9
  /-- `ROOT`, the id of the root, or NONE (rule R24). -/
  root : Option NodeId
  /-- `CODE[0..255]`, the CodeTable (rule R25). -/
  code : Vector Code 256
  /-- `BITLEN`, the encoded bit length (rule R26). -/
  bitlen : Word64
  /-- `ACC`, the bit-packer's partial byte (rule R27). -/
  acc : Byte
  /-- `NB`, the number of bits in `ACC` (rule R27). -/
  nb : BitVec 4
  /-- `PAY`, the payload bytes completed so far (rule R28). -/
  pay : List Byte
  /-- `CURSOR`, the payload bits consumed (rule R29). -/
  cursor : Word64
  /-- `WALK`, the node the decoder stands on (rule R29). -/
  walk : NodeId
  /-- `HDRLEN`, the parsed `header_length` (rule R30). -/
  hdrlen : BitVec 16
  /-- `NREC`, the number of records declared (rule R30). -/
  nrec : BitVec 16
  /-- `RECIDX`, the records parsed so far (rule R30). -/
  recidx : BitVec 16
  /-- `IN_POS`, the offset of the next input byte in the current pass (rule R33). -/
  inPos : Word64
  /-- `IN_PASS`, the current pass (rule R33). -/
  inPass : Pass
  /-- `OBUF`, the staged output (rule R34). -/
  obuf : List Byte
  /-- `OUT`, the committed output (rule R34). -/
  out : List Byte
  /-- The host's side of the step, not state of CORE (rule R35). -/
  host : HostSide
  deriving DecidableEq, Repr

/-! ### Why a step stops -/

/-- The model's own stuck states. CORE's faults are states of CORE (`Machine.raise`), so none of them is
here. No run from reset meets one of these. -/
inductive Fault where
  /-- Raised by ASSIGN when a walk from `ROOT` goes below depth 255 (the node table is then no tree;
  42_code_assigner.md rule R162). Safe: the model stops. -/
  | treeTooDeep
  /-- Raised by BUILD when a merge needs `NODE[511]`, which does not exist (10_state.md rule R23). Safe:
  the model stops. -/
  | nodeCapacity
  /-- Raised by a loop that used up its bound; Laws/ proves that no phase does. Safe: the model stops. -/
  | loopBound
  deriving DecidableEq, Repr

/-- Why the model gives a step no meaning. -/
inductive Refusal where
  /-- Raised by `exec` for an instruction without a meaning yet. Safe. -/
  | notModelled (mnemonic : String)
  /-- Raised by a step in a BUSY state whose `PHASE` is a code no command starts: 0, or 9 to 15 ("never
  written", 30_encoding.md rule R94). Safe: no run reaches it. -/
  | phaseNotStarted (code : BitVec 4)
  /-- Raised by the sequencer after a phase that the command in `CMD` does not have (46_commands.md rule
  R227, rule R228). Safe: no run reaches it. -/
  | phaseOutsideCommand (word : BitVec 32) (code : BitVec 4)
  /-- Raised by a stream read past the capacity `IN_CAP` (00_scope.md rule R9, the 64-bit `IN_POS`). Safe:
  the model stops. -/
  | inputBeyondCapacity
  /-- Raised by a step in which the host takes `OUT` while `STATE` is not DONE, which it must not do
  (70_reset_and_hazards.md rule R288, rule R291). Safe: the model stops. -/
  | outTakenBeforeDone
  /-- Raised by a step in which the host changes the input stream while CORE is BUSY, which it must not
  do (rule R288). Safe: the model stops. -/
  | inputChangedWhileBusy
  deriving DecidableEq, Repr

/-! ### Reset -/

/-- A node with all fields 0 (10_state.md rule R38). -/
def Node.zero : Node :=
  { leaf := false, byte := 0, freq := 0, minb := 0, left := 0, right := 0 }

/-- "no entry" (10_state.md rule R25, rule R38). -/
def Code.none : Code := { val := 0, len := 0 }

/-- DESIGN CHOICE (notes/assumptions/3.md). A host that has offered nothing and has nothing to do. -/
def HostSide.quiet : HostSide :=
  { in1 := [], in2 := [], answers := [], actions := [], statusRead := .none, taken := .none }

/-- The state after reset: 10_state.md rule R38, 70_reset_and_hazards.md rule R280. -/
def State.reset : State :=
  { cmd := 0
    state := .idle
    phase := 0
    err := 0
    errclass := 0
    freq := Vector.replicate 256 0
    node := Vector.replicate 511 Node.zero
    pool := []
    nextId := 256
    root := .none
    code := Vector.replicate 256 Code.none
    bitlen := 0
    acc := 0
    nb := 0
    pay := []
    cursor := 0
    walk := 0
    hdrlen := 0
    nrec := 0
    recidx := 0
    inPos := 0
    inPass := .one
    obuf := []
    out := []
    host := HostSide.quiet }

end Sys2Proof.Machine
end

