-- ==== Sys2Proof/Machine/Flags.lean ====
section
/-! DEFINITION. The flags of CORE: the fields of `STATUS` and their codes (10_state.md rule R32,
30_encoding.md rule R95, rule R96). -/

namespace Sys2Proof.Machine

/-- The faults of CORE (30_encoding.md rule R96, 60_exceptions.md rule R251 to rule R261). -/
inductive ErrCode where
  | eCmd
  | eIoIn
  | eIoOut
  | eFmtShort
  | eFmtHdrlen
  | eFmtRecord
  | eFmtTrunc
  | eFmtBitlen
  | eLookup
  | eOverflow
  deriving DecidableEq, Repr

/-- `STATUS.ERR` (30_encoding.md rule R96). -/
def errCode : ErrCode → BitVec 4
  | .eCmd => 1
  | .eIoIn => 2
  | .eIoOut => 3
  | .eFmtShort => 4
  | .eFmtHdrlen => 5
  | .eFmtRecord => 6
  | .eFmtTrunc => 7
  | .eFmtBitlen => 8
  | .eLookup => 9
  | .eOverflow => 10

/-- `STATUS.ERRCLASS` (30_encoding.md rule R96): 1 argument, 2 I/O, 3 format, 4 internal consistency,
5 arithmetic range. -/
def errClass : ErrCode → BitVec 3
  | .eCmd => 1
  | .eIoIn => 2
  | .eIoOut => 2
  | .eFmtShort => 3
  | .eFmtHdrlen => 3
  | .eFmtRecord => 3
  | .eFmtTrunc => 3
  | .eFmtBitlen => 3
  | .eLookup => 4
  | .eOverflow => 5

/-- `STATUS.STATE` (30_encoding.md rule R95). -/
def stateCode : RunState → BitVec 2
  | .idle => 0
  | .busy => 1
  | .done => 2
  | .fault => 3

/-- `IN_PASS` (10_state.md rule R33). -/
def passBit : Pass → BitVec 1
  | .one => 0
  | .two => 1

/-- The 32-bit word a read of `STATUS` returns (10_state.md rule R32): STATE in bits 1:0, zeros in 3:2,
PHASE in 7:4, ERR in 11:8, ERRCLASS in 14:12, zeros in 31:15. -/
def statusWord (s : State) : BitVec 32 :=
  0#17 ++ s.errclass ++ s.err ++ s.phase ++ 0#2 ++ stateCode s.state

end Sys2Proof.Machine
end

