-- ==== Sys2Proof/Machine/Tables.lean ====
section
/-! DEFINITION. The tables `FREQ`, `NODE` and `CODE`, each read and written through the one accessor of
its kind (00_scope.md rule R12), and `POOL` as a set. -/

namespace Sys2Proof.Machine

/-- The entry of a 256-entry table at a byte value. -/
def entry {α : Type} (t : Vector α 256) (b : Byte) : α := t[b.toNat]'b.isLt

/-- The table with the entry at a byte value replaced. -/
def setEntry {α : Type} (t : Vector α 256) (b : Byte) (v : α) : Vector α 256 :=
  t.set b.toNat v b.isLt

/-- All byte values, 0 up to 255. -/
def allBytes : List Byte := (List.range Config.nsym).map (BitVec.ofNat 8)

/-- 10_state.md rule R22: "A byte value `b` is a key of the mapping exactly when `FREQ[b] != 0`". -/
def presentIn (freq : Vector Word64 256) (b : Byte) : Bool := decide (entry freq b ≠ 0)

/-- The present bytes, ascending: those whose entry, taken in the order of the table, is not 0. -/
def presentBytes (freq : Vector Word64 256) : List Byte :=
  ((allBytes.zip freq.toList).filter fun p => decide (p.2 ≠ 0)).map Prod.fst

/-- The test `some FREQ[b] != 0` of 46_commands.md rule R227 and rule R228. -/
def anyPresent (freq : Vector Word64 256) : Bool := freq.toList.any fun f => decide (f ≠ 0)

/-- `NODE[i]`. -/
def nodeAt (t : Vector Node 511) (i : NodeId) : Node := t[i.val]'i.isLt

/-- `NODE[i] <- n`. -/
def setNode (t : Vector Node 511) (i : NodeId) (n : Node) : Vector Node 511 :=
  t.set i.val n i.isLt

/-- The id of the leaf of a byte value (10_state.md rule R23: "the leaf of byte value `b` is
`NODE[b]`"). -/
def leafId (b : Byte) : NodeId := ⟨b.toNat, by have := b.isLt; omega⟩

/-- `POOL + {i}`: the id joins the set, which stays strictly rising. -/
def poolInsert (i : NodeId) : List NodeId → List NodeId
  | [] => [i]
  | j :: rest =>
    if i < j then i :: j :: rest
    else if i = j then j :: rest
    else j :: poolInsert i rest

/-- The least element of a collection in a strict order, and the collection without it. -/
def takeLeast {α : Type} (lt : α → α → Bool) : List α → Option (α × List α)
  | [] => none
  | a :: rest =>
    match takeLeast lt rest with
    | none => some (a, [])
    | some (m, others) => if lt m a then some (m, a :: others) else some (a, rest)

end Sys2Proof.Machine
end

