-- ==== Sys2Proof/Machine/Ops.lean ====
section
/-! DEFINITION. The shared operations: how a piece of work ends, loops, the clearing at the start of a
command, raising a fault, and the start of a command. -/

namespace Sys2Proof.Machine

/-! ### How a piece of work ends -/

/-- The end of a piece of a phase: it is done, it raised a fault of CORE, or the model stops. -/
inductive Ended where
  | done (s : State)
  | raised (e : ErrCode) (s : State)
  | stuck (f : Fault)
  | refused (r : Refusal)
  deriving DecidableEq, Repr

/-- Go on with `k` where the work is done. -/
def Ended.bind (e : Ended) (k : State → Ended) : Ended :=
  match e with
  | .done s => k s
  | .raised c s => .raised c s
  | .stuck f => .stuck f
  | .refused r => .refused r

/-- One iteration of a loop: go round again, or leave. -/
inductive Iter where
  | again (s : State)
  | leave (e : Ended)
  deriving DecidableEq, Repr

/-- A loop with a bound on its iterations. -/
def iterate (body : State → Iter) : Nat → State → Ended
  | 0, _ => .stuck .loopBound
  | n + 1, s =>
    match body s with
    | .again s' => iterate body n s'
    | .leave e => e

/-! ### Taking a fault -/

/-- `raise Fault(E)` (60_exceptions.md rule R262): the state, error and class are recorded, `PHASE` keeps
the code of the phase that raised, the staged and the committed output are emptied, and the rest is
left as it was. There is no return from it (rule R265). -/
def raise (e : ErrCode) (s : State) : State :=
  { s with
    state := .fault
    err := errCode e
    errclass := errClass e
    obuf := []
    out := [] }

/-- The outcome of a phase: a fault of CORE is taken. -/
def Ended.outcome : Ended → Host.Outcome State Fault Refusal
  | .done s => .next s
  | .raised e s => .next (raise e s)
  | .stuck f => .fault f
  | .refused r => .refused r

/-! ### Starting a command -/

/-- The clearing of 46_commands.md rule R226: all per-command state at the reset values of 10_state.md
rule R38. -/
def clear (s : State) : State :=
  { State.reset with
    cmd := s.cmd
    state := s.state
    phase := s.phase
    err := s.err
    errclass := s.errclass
    host := s.host }

/-- Command acceptance up to the choice of the command (46_commands.md rule R225). -/
def startCommand (word : BitVec 32) (s : State) : State :=
  { clear s with
    cmd := word
    state := .busy
    err := 0
    errclass := 0
    phase := 0 }

/-- `PHASE <- p` (46_commands.md rule R229). -/
def setPhase (p : BitVec 4) (s : State) : State := { s with phase := p }

/-- A host write of a legal word to `CMD`: it starts a command whose first phase is `first`, and it has
no effect while CORE is BUSY (46_commands.md rule R225, rule R231). -/
def acceptCommand (word : BitVec 32) (first : BitVec 4) (s : State) : State :=
  if s.state = .busy then s else setPhase first (startCommand word s)

/-- A host write of an illegal word to `CMD`: `Fault(E_CMD)` before any phase (46_commands.md rule R225,
60_exceptions.md rule R251), and no effect while CORE is BUSY (rule R231). -/
def rejectCommand (word : BitVec 32) (s : State) : State :=
  if s.state = .busy then s else raise .eCmd (startCommand word s)

end Sys2Proof.Machine
end

