-- ==== Sys2Proof/Machine/Operands.lean ====
section
/-! DEFINITION. Where the operations get their operands and put their results: the stream primitives
(20_memory.md rule R61 to rule R63), the header bytes (44_key_serializer.md rule R192) and the bits of a
payload and of a code (20_memory.md rule R66, 30_encoding.md rule R103). -/

namespace Sys2Proof.Machine

/-! ### Input -/

/-- The host's answer to the next stream call, and the state with it given. -/
def takeAnswer (s : State) : HostAnswer × State :=
  match s.host.answers with
  | [] => (.ok, s)
  | a :: rest => (a, { s with host := { s.host with answers := rest } })

/-- The byte sequence of a pass: `IN1` or `IN2`. -/
def stream (p : Pass) (s : State) : List Byte :=
  match p with
  | .one => s.host.in1
  | .two => s.host.in2

/-- What `InNext` answers. -/
inductive Answer where
  /-- An I/O failure. -/
  | err
  /-- The end of the stream. -/
  | eos
  /-- The next byte. -/
  | byte (b : Byte)
  /-- The next byte lies past the capacity `IN_CAP` (notes/assumptions/5.md). -/
  | beyond
  deriving DecidableEq, Repr

/-- `InNext(p)` (20_memory.md rule R61). -/
def inNext (p : Pass) (s : State) : Answer × State :=
  match takeAnswer s with
  | (.err, s1) => (.err, s1)
  | (.ok, s1) =>
    match (stream p s1)[s1.inPos.toNat]? with
    | none => (.eos, s1)
    | some b =>
      if s1.inPos.toNat < Config.inCap then (.byte b, { s1 with inPos := s1.inPos + 1 })
      else (.beyond, s1)

/-- `InRewind()` (20_memory.md rule R62). -/
def inRewind (s : State) : Ended :=
  match takeAnswer s with
  | (.err, s1) => .raised .eIoIn s1
  | (.ok, s1) => .done { s1 with inPass := .two, inPos := 0 }

/-- The bytes of pass `p` not read yet. -/
def unread (p : Pass) (s : State) : Nat := (stream p s).length - s.inPos.toNat

/-- The end of a piece of work that reads bytes. -/
inductive Got where
  | bytes (bs : List Byte) (s : State)
  | ended (e : Ended)
  deriving DecidableEq, Repr

/-- `Need()` of 44_key_serializer.md rule R192, `n` times: the next `n` header bytes, the faults being
those of the byte being read (rule R195, rule R199). -/
def needBytes : Nat → State → Got
  | 0, s => .bytes [] s
  | n + 1, s =>
    match inNext .one s with
    | (.err, s1) => .ended (.raised .eIoIn s1)
    | (.eos, s1) => .ended (.raised .eFmtShort s1)
    | (.beyond, _) => .ended (.refused .inputBeyondCapacity)
    | (.byte b, s1) =>
      match needBytes n s1 with
      | .bytes bs s2 => .bytes (b :: bs) s2
      | .ended e => .ended e

/-! ### Output -/

/-- `EmitSeq(s)`, and `Emit(b)` as `EmitSeq([b])` (20_memory.md rule R63). -/
def emitSeq (bs : List Byte) (s : State) : State := { s with obuf := s.obuf ++ bs }

/-- `OutCommit()` (20_memory.md rule R63). -/
def outCommit (s : State) : Ended :=
  match takeAnswer s with
  | (.err, s1) => .raised .eIoOut s1
  | (.ok, s1) => .done { s1 with out := s1.obuf }

/-! ### Bits -/

/-- The payload `P`: the input after the header (44_key_serializer.md rule R198). -/
def payload (s : State) : List Byte := s.host.in1.drop s.hdrlen.toNat

/-- `PayBit(P, k)` (20_memory.md rule R66), or none past the physical end. -/
def payBit (p : List Byte) (k : Nat) : Option Bool :=
  match p[k / 8]? with
  | none => none
  | some b => some (b.getLsbD (7 - k % 8))

end Sys2Proof.Machine
end

