-- ==== Sys2Proof/Machine/Assign.lean ====
section
/-! DEFINITION. ASSIGN, the Code Assigner (42_code_assigner.md rule R160 to rule R167). -/

namespace Sys2Proof.Machine

/-- `CODE[b] <- (val=v, len=l)`. -/
def setCode (b : Byte) (v : BitVec 255) (l : BitVec 8) (s : State) : State :=
  { s with code := setEntry s.code b { val := v, len := l } }

/-- `visit(i, v, l)` of rule R161. The number is how many levels may still be descended: no leaf lies
below depth 255 (rule R162). -/
def visit : Nat → NodeId → BitVec 255 → BitVec 8 → State → Ended
  | 0, i, v, l, s =>
    if (nodeAt s.node i).leaf then .done (setCode (nodeAt s.node i).byte v l s)
    else .stuck .treeTooDeep
  | k + 1, i, v, l, s =>
    if (nodeAt s.node i).leaf then .done (setCode (nodeAt s.node i).byte v l s)
    else
      (visit k (nodeAt s.node i).left (v * 2) (l + 1) s).bind
        (visit k (nodeAt s.node i).right (v * 2 + 1) (l + 1))

/-- ASSIGN (rule R161, rule R163). Without a tree there are no entries to write
(notes/assumptions/7.md). -/
def assignPhase (s : State) : Ended :=
  match s.root with
  | none => .done s
  | some r =>
    if (nodeAt s.node r).leaf then .done (setCode (nodeAt s.node r).byte 0 1 s)
    else visit Config.maxDepth r 0 0 s

/-- ASSIGN as an operation. -/
def execAssign (s : State) : Host.Outcome State Fault Refusal := (assignPhase s).outcome

end Sys2Proof.Machine
end

