-- ==== Sys2Proof/Machine/Build.lean ====
section
/-! DEFINITION. BUILD, the Tree Builder (41_tree_builder.md rule R140 to rule R152). -/

namespace Sys2Proof.Machine

/-- The node order of rule R143. -/
def nodeLt (x y : Node) : Bool :=
  decide (x.freq.toNat < y.freq.toNat) ||
    (decide (x.freq = y.freq) && decide (x.minb.toNat < y.minb.toNat))

/-- The node order on ids (rule R143: "Node ids take no part in the order"). -/
def idLt (t : Vector Node 511) (i j : NodeId) : Bool := nodeLt (nodeAt t i) (nodeAt t j)

/-- The leaf of a byte value (rule R141 step 1, rule R142). -/
def leafNode (b : Byte) (freq : Word64) : Node :=
  { leaf := true, byte := b, freq := freq, minb := b, left := 0, right := 0 }

/-- The leaf of one present byte joins the tree nodes and the pool. -/
def addLeaf (s : State) (b : Byte) : State :=
  { s with
    node := setNode s.node (leafId b) (leafNode b (entry s.freq b))
    pool := poolInsert (leafId b) s.pool }

/-- Step 1 of rule R141: one leaf per present byte, in ascending byte value. -/
def addLeaves (s : State) : State := (presentBytes s.freq).foldl addLeaf s

/-- The smaller of two byte values. -/
def minByte (a b : Byte) : Byte := if a.toNat ≤ b.toNat then a else b

/-- The merged node (rule R145): the first selected becomes the left child. -/
def mergedNode (t : Vector Node 511) (x y : NodeId) : Node :=
  { leaf := false
    byte := 0
    freq := (nodeAt t x).freq + (nodeAt t y).freq
    minb := minByte (nodeAt t x).minb (nodeAt t y).minb
    left := x
    right := y }

/-- The merge of two selected nodes, in a state whose pool holds neither (rule R141 step 2, rule R145,
rule R148). -/
def merge (x y : NodeId) (s : State) : Iter :=
  if (nodeAt s.node x).freq.toNat + (nodeAt s.node y).freq.toNat > Config.maxWord64 then
    .leave (.raised .eOverflow s)
  else if h : s.nextId.toNat < Config.nnode then
    .again
      { s with
        node := setNode s.node ⟨s.nextId.toNat, h⟩ (mergedNode s.node x y)
        pool := poolInsert ⟨s.nextId.toNat, h⟩ s.pool
        nextId := s.nextId + 1 }
  else .leave (.stuck .nodeCapacity)

/-- One iteration of the loop of rule R141 step 2, and step 3 when one node is left: the two least nodes
are selected one after the other (rule R144). With an empty pool there is no tree (rule R147). -/
def mergeBody (s : State) : Iter :=
  match takeLeast (idLt s.node) s.pool with
  | none => .leave (.done { s with root := none })
  | some (x, others) =>
    match takeLeast (idLt s.node) others with
    | none => .leave (.done { s with root := some x })
    | some (y, rest) => merge x y { s with pool := rest }

/-- BUILD (rule R141). -/
def buildPhase (s : State) : Ended :=
  iterate mergeBody ((addLeaves s).pool.length + 1) (addLeaves s)

/-- BUILD as an operation. -/
def execBuild (s : State) : Host.Outcome State Fault Refusal := (buildPhase s).outcome

end Sys2Proof.Machine
end

