-- ==== Sys2Proof/Machine/Command.lean ====
section
/-! DEFINITION. The two commands, the reset and the end of a command (46_commands.md rule R225 to rule
R231, 70_reset_and_hazards.md rule R280, rule R281). The phases a command runs after its start are
selected by the sequencer (Machine/Sequencer.lean). -/

namespace Sys2Proof.Machine

/-- HUFF: `CMD = 0x68756666` is written (46_commands.md rule R225, rule R227): the first phase is COUNT. -/
def execHuff (s : State) : Host.Outcome State Fault Refusal := .next (acceptCommand huffWord 1 s)

/-- PUFF: `CMD = 0x70756666` is written (46_commands.md rule R225, rule R228): the first phase is KEYRD. -/
def execPuff (s : State) : Host.Outcome State Fault Refusal := .next (acceptCommand puffWord 6 s)

/-- RESET: every item of CORE at its reset value, in any state (70_reset_and_hazards.md rule R280, rule
R281). What the host holds is not state of CORE. -/
def execReset (s : State) : Host.Outcome State Fault Refusal :=
  .next { State.reset with host := s.host }

/-- COMMIT (46_commands.md rule R230). -/
def commitPhase (s : State) : Ended := (outCommit s).bind fun s1 => .done { s1 with state := .done }

/-- COMMIT as an operation. -/
def execCommit (s : State) : Host.Outcome State Fault Refusal := (commitPhase s).outcome

end Sys2Proof.Machine
end

