-- ==== Sys2Proof/Machine/Count.lean ====
section
/-! DEFINITION. COUNT, the Frequency Counter (40_frequency_counter.md rule R130 to rule R135). -/

namespace Sys2Proof.Machine

/-- One iteration of the loop of rule R131. -/
def countBody (s : State) : Iter :=
  match inNext .one s with
  | (.err, s1) => .leave (.raised .eIoIn s1)
  | (.eos, s1) => .leave (.done s1)
  | (.beyond, _) => .leave (.refused .inputBeyondCapacity)
  | (.byte b, s1) =>
    if (entry s1.freq b).toNat = Config.maxWord64 then .leave (.raised .eOverflow s1)
    else .again { s1 with freq := setEntry s1.freq b (entry s1.freq b + 1) }

/-- COUNT (rule R131). -/
def countPhase (s : State) : Ended := iterate countBody (unread .one s + 1) s

/-- COUNT as an operation. -/
def execCount (s : State) : Host.Outcome State Fault Refusal := (countPhase s).outcome

end Sys2Proof.Machine
end

