-- ==== Sys2Proof/Machine/Key.lean ====
section
/-! DEFINITION. The Key Serializer and Deserializer, KEYWR and KEYRD, and what KEYRD does with each of
the two formats of the key, KEY.HEADER and KEY.RECORD (44_key_serializer.md rule R185 to rule R201). -/

namespace Sys2Proof.Machine

/-! ### KEYWR -/

/-- `rec(b)`: the nine bytes of a record (rule R186, 30_encoding.md rule R99). -/
def recordBytes (freq : Vector Word64 256) (b : Byte) : List Byte := b :: be64 (entry freq b)

/-- `header_length` for a table (rule R187). -/
def headerLengthFor (freq : Vector Word64 256) : Nat :=
  Config.hdrFixed + Config.recBytes * (presentBytes freq).length

/-- `key(F, L)` (rule R186): the header, records in ascending byte value (rule R188). -/
def keyBytes (freq : Vector Word64 256) (bitlen : Word64) : List Byte :=
  be16 (BitVec.ofNat 16 (headerLengthFor freq)) ++ be64 bitlen ++
    (presentBytes freq).flatMap (recordBytes freq)

/-- KEYWR (rule R186): the key, and the payload after it. -/
def keywrPhase (s : State) : State := emitSeq (keyBytes s.freq s.bitlen ++ s.pay) s

/-- KEYWR as an operation; it raises no fault. -/
def execKeywr (s : State) : Host.Outcome State Fault Refusal := .next (keywrPhase s)

/-! ### KEYRD -/

/-- What KEYRD does with the fixed part (rule R192, rule R193, rule R196). -/
def takeHeader (headerLength : BitVec 16) (encodedBitLen : Word64) (s : State) : Ended :=
  if headerLength.toNat < Config.hdrFixed ∨
      (headerLength.toNat - Config.hdrFixed) % Config.recBytes ≠ 0 then
    .raised .eFmtHdrlen { s with hdrlen := headerLength, bitlen := encodedBitLen }
  else
    .done
      { s with
        hdrlen := headerLength
        bitlen := encodedBitLen
        nrec := BitVec.ofNat 16 ((headerLength.toNat - Config.hdrFixed) / Config.recBytes)
        recidx := 0 }

/-- What KEYRD does with one record (rule R192, rule R194). -/
def takeRecord (byteValue : Byte) (frequency : Word64) (s : State) : Ended :=
  if frequency = 0 ∨ entry s.freq byteValue ≠ 0 then .raised .eFmtRecord s
  else .done { s with freq := setEntry s.freq byteValue frequency, recidx := s.recidx + 1 }

/-- One iteration of the record loop of rule R192. -/
def recordBody (s : State) : Iter :=
  if s.recidx.toNat < s.nrec.toNat then
    match needBytes Config.recBytes s with
    | .ended e => .leave e
    | .bytes bs s1 =>
      match takeRecord (byteValueOf bs) (frequencyOf bs) s1 with
      | .done s2 => .again s2
      | .raised e s2 => .leave (.raised e s2)
      | .stuck f => .leave (.stuck f)
      | .refused r => .leave (.refused r)
  else .leave (.done s)

/-- The record loop of rule R192. -/
def recordsPhase (s : State) : Ended := iterate recordBody (s.nrec.toNat + 1) s

/-- KEYRD (rule R192): the fixed part, then the records. -/
def keyrdPhase (s : State) : Ended :=
  match needBytes Config.hdrFixed s with
  | .ended e => e
  | .bytes bs s1 => (takeHeader (headerLengthOf bs) (encodedBitLenOf bs) s1).bind recordsPhase

/-- KEYRD as an operation. -/
def execKeyrd (s : State) : Host.Outcome State Fault Refusal := (keyrdPhase s).outcome

/-! ### The formats, as KEYRD meets them -/

/-- KEY.HEADER: its ten bytes have been read (30_encoding.md rule R98). -/
def execKeyHeader (headerLength : BitVec 16) (encodedBitLen : Word64) (s : State) :
    Host.Outcome State Fault Refusal :=
  (takeHeader headerLength encodedBitLen s).outcome

/-- KEY.RECORD: its nine bytes have been read (30_encoding.md rule R99). -/
def execKeyRecord (byteValue : Byte) (frequency : Word64) (s : State) :
    Host.Outcome State Fault Refusal :=
  (takeRecord byteValue frequency s).outcome

end Sys2Proof.Machine
end

