-- ==== Sys2Proof/Machine/Pack.lean ====
section
/-! DEFINITION. PACK, the bit-packer (43_bit_packer.md rule R170 to rule R178). -/

namespace Sys2Proof.Machine

/-- `ACC` with a bit shifted in at its low end (rule R173). -/
def shiftIn (acc : Byte) (bit : Bool) : Byte := (acc <<< 1) ||| (BitVec.ofBool bit).setWidth 8

/-- `PushBit(bit)` (rule R173). -/
def pushBit (bit : Bool) (s : State) : Ended :=
  if s.bitlen.toNat = Config.maxWord64 then .raised .eOverflow s
  else if s.nb + 1 = 8 then
    .done
      { s with
        bitlen := s.bitlen + 1
        pay := s.pay ++ [shiftIn s.acc bit]
        acc := 0
        nb := 0 }
  else
    .done { s with bitlen := s.bitlen + 1, acc := shiftIn s.acc bit, nb := s.nb + 1 }

/-- The bits `v[l-1]` down to `v[0]` are pushed (rule R171). -/
def pushCode (v : BitVec 255) : Nat → State → Ended
  | 0, s => .done s
  | i + 1, s => (pushBit (v.getLsbD i) s).bind (pushCode v i)

/-- `Flush()` (rule R174): the padding bits are 0. -/
def flush (s : State) : State :=
  if s.nb = 0 then s
  else { s with pay := s.pay ++ [s.acc <<< (8 - s.nb.toNat)], acc := 0, nb := 0 }

/-- One iteration of the loop of rule R171, with `Flush()` at its end. -/
def packBody (s : State) : Iter :=
  match inNext .two s with
  | (.err, s1) => .leave (.raised .eIoIn s1)
  | (.eos, s1) => .leave (.done (flush s1))
  | (.beyond, _) => .leave (.refused .inputBeyondCapacity)
  | (.byte b, s1) =>
    if (entry s1.code b).len = 0 then .leave (.raised .eLookup s1)
    else
      match pushCode (entry s1.code b).val (entry s1.code b).len.toNat s1 with
      | .done s2 => .again s2
      | .raised e s2 => .leave (.raised e s2)
      | .stuck f => .leave (.stuck f)
      | .refused r => .leave (.refused r)

/-- PACK (rule R171). -/
def packPhase (s : State) : Ended := iterate packBody (unread .two s + 1) s

/-- PACK as an operation. -/
def execPack (s : State) : Host.Outcome State Fault Refusal := (packPhase s).outcome

end Sys2Proof.Machine
end

