-- ==== Sys2Proof/Machine/Unpack.lean ====
section
/-! DEFINITION. UNPACK, the bit-unpacker (45_bit_unpacker.md rule R210 to rule R221). -/

namespace Sys2Proof.Machine

/-- What `ConsumeBit` answers: a bit, or the end of the phase. -/
inductive Bit where
  | bit (b : Bool) (s : State)
  | ended (e : Ended)
  deriving DecidableEq, Repr

/-- The stream read of `ConsumeBit`: the next payload byte is fetched when a byte is begun (rule R220). -/
def fetchPayload (s : State) : Ended :=
  if s.cursor.toNat % 8 = 0 then
    match inNext .one s with
    | (.err, s1) => .raised .eIoIn s1
    | (.eos, s1) => .raised .eFmtTrunc s1
    | (.beyond, _) => .refused .inputBeyondCapacity
    | (.byte _, s1) => .done s1
  else .done s

/-- `ConsumeBit()` (rule R212): the declared length is tested first, then the physical end. -/
def consumeBit (s : State) : Bit :=
  if s.cursor.toNat ≥ s.bitlen.toNat then .ended (.raised .eFmtBitlen s)
  else
    match fetchPayload s with
    | .done s1 =>
      match payBit (payload s1) s1.cursor.toNat with
      | none => .ended (.raised .eFmtTrunc s1)
      | some b => .bit b { s1 with cursor := s1.cursor + 1 }
    | .raised e s1 => .ended (.raised e s1)
    | .stuck f => .ended (.stuck f)
    | .refused r => .ended (.refused r)

/-- The child a bit leads to: left on 0, right on 1 (rule R211). -/
def childOn (b : Bool) (n : Node) : NodeId := if b then n.right else n.left

/-- One iteration of the inner loop of rule R211: it ends on a leaf. -/
def walkBody (s : State) : Iter :=
  if (nodeAt s.node s.walk).leaf then .leave (.done s)
  else
    match consumeBit s with
    | .bit b s1 => .again { s1 with walk := childOn b (nodeAt s1.node s1.walk) }
    | .ended e => .leave e

/-- The declared bits not consumed yet. -/
def bitsLeft (s : State) : Nat := s.bitlen.toNat - s.cursor.toNat

/-- One code: from the root to a leaf, one bit a level; in a degenerate tree one bit, its value not
examined (rule R211, rule R213). -/
def walkCode (root : NodeId) (s : State) : Ended :=
  if (nodeAt s.node root).leaf then
    match consumeBit { s with walk := root } with
    | .bit _ s1 => .done s1
    | .ended e => e
  else iterate walkBody (bitsLeft s + 1) { s with walk := root }

/-- `Emit(NODE[WALK].byte)`. -/
def emitWalked (s : State) : State := emitSeq [(nodeAt s.node s.walk).byte] s

/-- One iteration of the repeat loop of rule R211, with its stop test (rule R214). -/
def symbolBody (root : NodeId) (s : State) : Iter :=
  match walkCode root s with
  | .done s1 =>
    if s1.cursor.toNat ≥ s1.bitlen.toNat then .leave (.done (emitWalked s1))
    else .again (emitWalked s1)
  | .raised e s1 => .leave (.raised e s1)
  | .stuck f => .leave (.stuck f)
  | .refused r => .leave (.refused r)

/-- UNPACK (rule R211, rule R217). -/
def unpackPhase (s : State) : Ended :=
  match s.root with
  | none => if s.bitlen = 0 then .done s else .raised .eFmtBitlen s
  | some r => iterate (symbolBody r) (bitsLeft s + 1) s

/-- UNPACK as an operation. -/
def execUnpack (s : State) : Host.Outcome State Fault Refusal := (unpackPhase s).outcome

end Sys2Proof.Machine
end

