-- ==== Sys2Proof/Machine/Dispatch.lean ====
section
/-! DEFINITION. The meaning of every operation, one arm each. -/

namespace Sys2Proof.Machine

def exec (i : Instr) (s : State) : Host.Outcome State Fault Refusal :=
  match i with
  | .huff => Sys2Proof.Machine.execHuff s
  | .puff => Sys2Proof.Machine.execPuff s
  | .reset => Sys2Proof.Machine.execReset s
  | .count => Sys2Proof.Machine.execCount s
  | .build => Sys2Proof.Machine.execBuild s
  | .assign => Sys2Proof.Machine.execAssign s
  | .pack => Sys2Proof.Machine.execPack s
  | .keywr => Sys2Proof.Machine.execKeywr s
  | .keyrd => Sys2Proof.Machine.execKeyrd s
  | .unpack => Sys2Proof.Machine.execUnpack s
  | .commit => Sys2Proof.Machine.execCommit s
  | .keyHeader headerLength encodedBitLen => Sys2Proof.Machine.execKeyHeader headerLength encodedBitLen s
  | .keyRecord byteValue frequency => Sys2Proof.Machine.execKeyRecord byteValue frequency s

end Sys2Proof.Machine
end

