-- ==== Sys2Proof/Machine/Sequencer.lean ====
section
/-! DEFINITION. The sequencer: which phase follows a phase that ended without a fault (46_commands.md rule
R227 to rule R229). -/

namespace Sys2Proof.Machine

/-- What follows a phase. -/
inductive Next where
  /-- `PHASE <- p`. -/
  | goto (p : BitVec 4)
  /-- `InRewind()`, then `PHASE <- p`. -/
  | rewindThen (p : BitVec 4)
  /-- The command has no such phase, or the phase is its last. -/
  | nothing
  deriving DecidableEq, Repr

/-- The order of HUFF (rule R227); `present` is the test `some FREQ[b] != 0`. -/
def nextOfHuff (present : Bool) (phase : BitVec 4) : Next :=
  match phase.toNat with
  | 1 => if present then .goto 2 else .rewindThen 4
  | 2 => .goto 3
  | 3 => .rewindThen 4
  | 4 => .goto 5
  | 5 => .goto 8
  | _ => .nothing

/-- The order of PUFF (rule R228). -/
def nextOfPuff (present : Bool) (phase : BitVec 4) : Next :=
  match phase.toNat with
  | 6 => if present then .goto 2 else .goto 7
  | 2 => .goto 3
  | 3 => .goto 7
  | 7 => .goto 8
  | _ => .nothing

/-- What follows the phase in `PHASE` for the command in `CMD`. -/
def nextPhase (s : State) : Next :=
  if s.cmd = huffWord then nextOfHuff (anyPresent s.freq) s.phase
  else if s.cmd = puffWord then nextOfPuff (anyPresent s.freq) s.phase
  else .nothing

/-- The sequencer's part of a step, after a phase that left the state `s`: nothing once the command has
ended (DONE or FAULT), else the next `PHASE` (rule R229). A fault of `InRewind` keeps the phase before it
(notes/assumptions/4.md). -/
def advance (s : State) : Host.Outcome State Fault Refusal :=
  if s.state = .busy then
    match nextPhase s with
    | .goto p => .next (setPhase p s)
    | .rewindThen p => ((inRewind s).bind fun s1 => .done (setPhase p s1)).outcome
    | .nothing => .refused (.phaseOutsideCommand s.cmd s.phase)
  else .next s

/-- The sequencer after a phase's outcome. -/
def afterPhase (o : Host.Outcome State Fault Refusal) : Host.Outcome State Fault Refusal :=
  match o with
  | .next s => advance s
  | .fault f => .fault f
  | .refused r => .refused r

end Sys2Proof.Machine
end

