-- ==== Sys2Proof/Machine/Fetch.lean ====
section
/-! DEFINITION. What a step does next: the host's move, or the phase in `PHASE`
(70_reset_and_hazards.md rule R291, 46_commands.md rule R229); and where a word is placed so that the
next step runs it. -/

namespace Sys2Proof.Machine

/-- What a step has selected. -/
inductive Selected where
  /-- An operation of the host, run on the state with the host's move taken off its queue. -/
  | operation (i : Instr) (s : State)
  /-- A phase, after which the sequencer acts. -/
  | phase (i : Instr) (s : State)
  /-- A step that runs no operation. -/
  | answer (o : Host.Outcome State Fault Refusal)

/-- CORE's own step: BUSY, it runs the phase in `PHASE`; in IDLE, DONE and FAULT it does nothing until the
host acts (46_commands.md rule R230, 60_exceptions.md rule R262, 70_reset_and_hazards.md rule R280). -/
def selectPhase (s : State) : Selected :=
  if s.state = .busy then
    match decode (.phase s.phase) with
    | .instr i => .phase i s
    | .rejected _ => .answer (.refused (.phaseNotStarted s.phase))
  else .answer (.next s)

/-- A host write to `CMD` (46_commands.md rule R225, rule R231). -/
def selectCommand (word : BitVec 32) (s : State) : Selected :=
  match decode (.cmd word) with
  | .instr i => .operation i s
  | .rejected _ => .answer (.next (rejectCommand word s))

/-- The reset input asserted by the host (70_reset_and_hazards.md rule R280). -/
def selectReset (s : State) : Selected :=
  match decode (.resetInput 1) with
  | .instr i => .operation i s
  | .rejected _ => .answer (.next s)

/-- The host reads `STATUS`: the fields, and no side effect on CORE (46_commands.md rule R232). -/
def hostReadsStatus (s : State) : State :=
  { s with host := { s.host with statusRead := some (statusWord s) } }

/-- The host takes `OUT`, which it must not do before DONE (70_reset_and_hazards.md rule R283, rule
R288). -/
def hostTakesOut (s : State) : Host.Outcome State Fault Refusal :=
  if s.state = .done then .next { s with host := { s.host with taken := some s.out } }
  else .refused .outTakenBeforeDone

/-- The host makes an input ready, which it must not do while CORE is BUSY (70_reset_and_hazards.md rule
R282, rule R288). -/
def hostOffers (in1 in2 : List Byte) (answers : List HostAnswer) (s : State) :
    Host.Outcome State Fault Refusal :=
  if s.state = .busy then .refused .inputChangedWhileBusy
  else .next { s with host := { s.host with in1 := in1, in2 := in2, answers := answers } }

/-- The state with the host's queue of moves replaced. -/
def withActions (acts : List HostAction) (s : State) : State :=
  { s with host := { s.host with actions := acts } }

/-- A move of the host (70_reset_and_hazards.md rule R291). -/
def selectAction (a : HostAction) (s : State) : Selected :=
  match a with
  | .letRun => selectPhase s
  | .reset => selectReset s
  | .writeCmd word => selectCommand word s
  | .readStatus => .answer (.next (hostReadsStatus s))
  | .takeOut => .answer (hostTakesOut s)
  | .offer in1 in2 answers => .answer (hostOffers in1 in2 answers s)

/-- What a step does: the host's next move if it has one, else CORE's own step. -/
def select (s : State) : Selected :=
  match s.host.actions with
  | [] => selectPhase s
  | a :: rest => selectAction a (withActions rest s)

/-! ### Placing a word -/

/-- The command whose sequence holds a phase: the command in `CMD` where it has the phase, else the one
that does (46_commands.md rule R227, rule R228). -/
def commandFor (phase : BitVec 4) (cmd : BitVec 32) : BitVec 32 :=
  if phase = 6 ∨ phase = 7 then puffWord
  else if phase = 1 ∨ phase = 4 ∨ phase = 5 then huffWord
  else if cmd = puffWord then puffWord
  else huffWord

/-- CORE is BUSY in a phase. -/
def placePhase (phase : BitVec 4) (s : State) : State :=
  withActions (.letRun :: s.host.actions)
    { s with cmd := commandFor phase s.cmd, state := .busy, phase := phase }

/-- KEYRD is about to read the given input. -/
def placeKey (input : List Byte) (s : State) : State :=
  placePhase 6 { s with inPos := 0, host := { s.host with in1 := input, answers := [] } }

/-- The state in which the next step runs what an encoded form stands for: a command word and the reset
input as the host's next move, a phase in `PHASE` of a BUSY machine, and a format of the key as the input
of KEYRD (a record behind a fixed part that declares one record). -/
def place (e : Encoded) (s : State) : State :=
  match e with
  | .cmd word => withActions (.writeCmd word :: s.host.actions) s
  | .resetInput level =>
    if level = 1 then withActions (.reset :: s.host.actions) s else s
  | .phase code => placePhase code s
  | .header bytes => placeKey bytes s
  | .record bytes => placeKey (be16 19 ++ be64 0 ++ bytes) s

end Sys2Proof.Machine
end

