-- ==== Sys2Proof/Machine/Step.lean ====
section
/-! DEFINITION. One step of the machine: a move of the host, or one phase of CORE and the sequencer's
part after it (46_commands.md rule R237: "one phase per step"). -/

namespace Sys2Proof.Machine

/-- One step. -/
def step (s : State) : Host.Outcome State Fault Refusal :=
  match select s with
  | .operation i s1 => exec i s1
  | .phase i s1 => afterPhase (exec i s1)
  | .answer o => o

/-- The state with a word of spec/opcode_table.json placed so that the next step runs it. -/
def State.withFetchWord (s : State) (nbits w : Nat) : State :=
  match tableForm nbits w with
  | some e => place e s
  | none => s

end Sys2Proof.Machine
end

