-- ==== Sys2Proof/Codec.lean ====
section
/-! DEFINITION. The commands as functions on byte sequences (46_commands.md rule R234), each unit in the
"As a function" form its file gives. They are what claims about whole commands are stated in; the
machine's step does not use them. -/

namespace Sys2Proof.Codec

open Sys2Proof.Machine

/-- The tree as a value (10_state.md rule R36). -/
inductive Tree where
  | leaf (byte : Byte) (freq : Nat)
  | internal (left right : Tree) (freq : Nat) (minb : Byte)
  deriving DecidableEq, Repr

/-- The cumulative frequency of a tree (rule R36). -/
def Tree.weight : Tree → Nat
  | .leaf _ f => f
  | .internal _ _ f _ => f

/-- The minimum byte value of a tree (rule R36). -/
def Tree.least : Tree → Byte
  | .leaf b _ => b
  | .internal _ _ _ m => m

/-- The byte values of a tree's leaves, left to right. -/
def Tree.bytes : Tree → List Byte
  | .leaf b _ => [b]
  | .internal l r _ _ => l.bytes ++ r.bytes

/-- The depth of the deepest leaf. -/
def Tree.depth : Tree → Nat
  | .leaf _ _ => 0
  | .internal l r _ _ => max l.depth r.depth + 1

/-- The node order on trees (41_tree_builder.md rule R143). -/
def treeLt (x y : Tree) : Bool :=
  decide (x.weight < y.weight) ||
    (decide (x.weight = y.weight) && decide (x.least.toNat < y.least.toNat))

/-- `tree(i)` of rule R36: the node table holds a tree at an id. -/
def Represents (t : Vector Node 511) : NodeId → Tree → Prop
  | i, .leaf b f =>
    (nodeAt t i).leaf = true ∧ (nodeAt t i).byte = b ∧ (nodeAt t i).freq.toNat = f ∧
      (nodeAt t i).minb = b
  | i, .internal l r f m =>
    (nodeAt t i).leaf = false ∧ (nodeAt t i).freq.toNat = f ∧ (nodeAt t i).minb = m ∧
      Represents t (nodeAt t i).left l ∧ Represents t (nodeAt t i).right r

/-! ### count -/

/-- `count(s)` (40_frequency_counter.md rule R131, rule R132). -/
def countTable (s : List Byte) : Except ErrCode (Vector Word64 256) :=
  if allBytes.any fun b => decide (s.count b > Config.maxWord64) then .error .eOverflow
  else .ok (Vector.ofFn fun i : Fin 256 => BitVec.ofNat 64 (s.count (BitVec.ofNat 8 i.val)))

/-! ### build -/

/-- Step 1 of 41_tree_builder.md rule R141. -/
def leaves (freq : Vector Word64 256) : List Tree :=
  (presentBytes freq).map fun b => .leaf b (entry freq b).toNat

/-- Step 2 and step 3 of rule R141 on a collection of trees; the number bounds the iterations. -/
def mergeTrees : Nat → List Tree → Except ErrCode (Option Tree)
  | 0, _ => .ok none
  | n + 1, ts =>
    match takeLeast treeLt ts with
    | none => .ok none
    | some (x, others) =>
      match takeLeast treeLt others with
      | none => .ok (some x)
      | some (y, rest) =>
        if x.weight + y.weight > Config.maxWord64 then .error .eOverflow
        else
          mergeTrees n
            (rest ++ [.internal x y (x.weight + y.weight) (minByte x.least y.least)])

/-- `build(F)`: the tree, or "no tree" on the empty table (rule R147). -/
def build (freq : Vector Word64 256) : Except ErrCode (Option Tree) :=
  mergeTrees ((leaves freq).length + 1) (leaves freq)

/-! ### assign -/

/-- A code table: byte value, code value, code length. -/
abbrev CodeTable := List (Byte × Nat × Nat)

/-- `codes(t, v, l)` of 42_code_assigner.md rule R161. -/
def codes : Tree → Nat → Nat → CodeTable
  | .leaf b _, v, l => [(b, v, l)]
  | .internal left right _ _, v, l => codes left (2 * v) (l + 1) ++ codes right (2 * v + 1) (l + 1)

/-- `assign(t)` of rule R161, with the degenerate tree of rule R163; no tree, no entries. -/
def assign : Option Tree → CodeTable
  | none => []
  | some (.leaf b _) => [(b, 0, 1)]
  | some (.internal left right f m) => codes (.internal left right f m) 0 0

/-! ### pack -/

/-- The bit sequence of a code: `v[l-1], v[l-2], ..., v[0]` (30_encoding.md rule R103). -/
def bits (v l : Nat) : List Bool := (List.range l).reverse.map v.testBit

/-- The bit sequence of an entry of `CODE`. -/
def codeBits (c : Code) : List Bool := bits c.val.toNat c.len.toNat

/-- The logical bit sequence of an input (43_bit_packer.md rule R171) with `n` bits before it: the
lookup miss of rule R172 before the overflow of rule R175 (60_exceptions.md rule R264). -/
def encodeBits (c : CodeTable) : List Byte → Nat → Except ErrCode (List Bool)
  | [], _ => .ok []
  | b :: rest, n =>
    match c.lookup b with
    | none => .error .eLookup
    | some (v, l) =>
      if n + l > Config.maxWord64 then .error .eOverflow
      else
        match encodeBits c rest (n + l) with
        | .error e => .error e
        | .ok more => .ok (bits v l ++ more)

/-- The byte whose bit 7 is `f 0`, bit 6 is `f 1`, and so on (20_memory.md rule R65). -/
def byteOfBits (f : Nat → Bool) : Byte :=
  (List.range 8).foldl (fun acc i => shiftIn acc (f i)) 0

/-- A bit sequence cut into groups of 8, the last group filled with zeros (rule R171). -/
def packBytes (bs : List Bool) : List Byte :=
  (List.range ((bs.length + 7) / 8)).map fun k => byteOfBits fun i => bs.getD (8 * k + i) false

/-- `pack(C, s)`: the payload bytes and the number of meaningful bits. -/
def pack (c : CodeTable) (s : List Byte) : Except ErrCode (List Byte × Nat) :=
  match encodeBits c s 0 with
  | .error e => .error e
  | .ok bs => .ok (packBytes bs, bs.length)

/-! ### parse -/

/-- The table with no entries. -/
def emptyTable : Vector Word64 256 := Vector.replicate 256 0

/-- The records of a key (44_key_serializer.md rule R192, rule R194, rule R195). -/
def parseRecords : Nat → List Byte → Vector Word64 256 →
    Except ErrCode (Vector Word64 256 × List Byte)
  | 0, d, freq => .ok (freq, d)
  | n + 1, d, freq =>
    if d.length < Config.recBytes then .error .eFmtShort
    else if frequencyOf d = 0 ∨ entry freq (byteValueOf d) ≠ 0 then .error .eFmtRecord
    else parseRecords n (d.drop Config.recBytes) (setEntry freq (byteValueOf d) (frequencyOf d))

/-- `parse(d)` of rule R192: the table, the declared bit length and the payload. -/
def parse (d : List Byte) : Except ErrCode (Vector Word64 256 × Nat × List Byte) :=
  if d.length < Config.hdrFixed then .error .eFmtShort
  else if (headerLengthOf d).toNat < Config.hdrFixed ∨
      ((headerLengthOf d).toNat - Config.hdrFixed) % Config.recBytes ≠ 0 then .error .eFmtHdrlen
  else
    match parseRecords (((headerLengthOf d).toNat - Config.hdrFixed) / Config.recBytes)
        (d.drop Config.hdrFixed) emptyTable with
    | .error e => .error e
    | .ok (freq, rest) => .ok (freq, (encodedBitLenOf d).toNat, rest)

/-! ### unpack -/

/-- The bits of a payload in order (20_memory.md rule R66). -/
def payloadBits (p : List Byte) : List Bool :=
  p.flatMap fun b => (List.range 8).map fun k => b.getLsbD (7 - k)

/-- Where a bit leads from a node; a leaf stays (45_bit_unpacker.md rule R211, rule R213). -/
def descend (b : Bool) : Tree → Tree
  | .leaf byte f => .leaf byte f
  | .internal l r _ _ => if b then r else l

/-- The walk of rule R211 from a node, with the declared bits left and the physical bits left: the
declared length is tested before the physical end (rule R212). -/
def decodeWalk (root : Tree) : Tree → Nat → List Bool → Except ErrCode (List Byte)
  | _, 0, _ => .error .eFmtBitlen
  | _, _ + 1, [] => .error .eFmtTrunc
  | at_, left + 1, b :: more =>
    match descend b at_ with
    | .leaf byte _ =>
      if left = 0 then .ok [byte]
      else
        match decodeWalk root root left more with
        | .error e => .error e
        | .ok out => .ok (byte :: out)
    | .internal l r f m => decodeWalk root (.internal l r f m) left more

/-- `unpack(T, L, P)` (rule R211, rule R217). -/
def unpack (t : Option Tree) (bitlen : Nat) (p : List Byte) : Except ErrCode (List Byte) :=
  match t with
  | none => if bitlen = 0 then .ok [] else .error .eFmtBitlen
  | some root => decodeWalk root root bitlen (payloadBits p)

/-! ### The two commands (46_commands.md rule R234) -/

/-- `huff(s1, s2)`. -/
def huff (s1 s2 : List Byte) : Except ErrCode (List Byte) :=
  match countTable s1 with
  | .error e => .error e
  | .ok freq =>
    match build freq with
    | .error e => .error e
    | .ok t =>
      match pack (assign t) s2 with
      | .error e => .error e
      | .ok (p, n) => .ok (keyBytes freq (BitVec.ofNat 64 n) ++ p)

/-- The encoded length of an input in bits: the sum of the lengths of its bytes' codes
(43_bit_packer.md rule R171). -/
def encodedLength (s : List Byte) : Nat :=
  match countTable s with
  | .error _ => 0
  | .ok freq =>
    match build freq with
    | .error _ => 0
    | .ok t => (s.map fun b => (((assign t).lookup b).map Prod.snd).getD 0).sum

/-- `puff(d)`. -/
def puff (d : List Byte) : Except ErrCode (List Byte) :=
  match parse d with
  | .error e => .error e
  | .ok (freq, n, p) =>
    match build freq with
    | .error e => .error e
    | .ok t => unpack t n p

end Sys2Proof.Codec
end

