-- ==== Sys2Proof/Safety.lean ====
section
/-! DEFINITION. The terms in which claims are stated: a host that answers no `Err`, a command that ended
in a fault, and the invariant every step keeps. -/

namespace Sys2Proof.Machine

/-- The host answers none of the coming stream calls with `Err` (46_commands.md rule R234: "With no I/O
failure"). -/
def NoErr (s : State) : Prop := ∀ a ∈ s.host.answers, a = HostAnswer.ok

/-- The state `s` with `n` answers of the host taken. -/
def answered (n : Nat) (s : State) : State :=
  { s with host := { s.host with answers := s.host.answers.drop n } }

/-- `t` is `s` after the fault `e` was raised (60_exceptions.md rule R262), as far as the host sees it:
the code, its class, `PHASE` kept, no output. -/
def Faulted (e : ErrCode) (s t : State) : Prop :=
  t.state = .fault ∧ t.err = errCode e ∧ t.errclass = errClass e ∧ t.phase = s.phase ∧
    t.cmd = s.cmd ∧ t.obuf = [] ∧ t.out = []

/-- The outcome is a next state in which the fault `e` was raised. -/
def RaisesFrom (s : State) (e : ErrCode) (o : Host.Outcome State Fault Refusal) : Prop :=
  ∃ t, o = .next t ∧ Faulted e s t

/-- CORE ended as a command function says (46_commands.md rule R234): DONE with the returned bytes in
`OUT`, or FAULT with the code and `OUT` empty. -/
def EndedAs (r : Except ErrCode (List Byte)) (t : State) : Prop :=
  match r with
  | .ok bytes => t.state = .done ∧ t.err = 0 ∧ t.errclass = 0 ∧ t.phase = 8 ∧ t.out = bytes
  | .error e => t.state = .fault ∧ t.err = errCode e ∧ t.errclass = errClass e ∧ t.out = []

/-- `STATUS`, `CMD` and `OUT` are as before: a phase that ends without a fault writes no flag. -/
def KeepsFlags (s t : State) : Prop :=
  t.state = s.state ∧ t.err = s.err ∧ t.errclass = s.errclass ∧ t.phase = s.phase ∧ t.cmd = s.cmd ∧
    t.out = s.out

/-- A phase either keeps the flags and the staged output, or raised a fault. -/
def KeepsOrFaults (s t : State) : Prop :=
  (KeepsFlags s t ∧ t.obuf = s.obuf) ∨ ∃ e, Faulted e s t

/-- The host's side is as before but for answers given. -/
def HostKept (s t : State) : Prop :=
  t.host = { s.host with answers := t.host.answers } ∧ t.host.answers <:+ s.host.answers

/-- The items of CORE alone: two states with equal items differ in the host's side only. -/
def coreOf (s : State) : State := { s with host := HostSide.quiet }

/-- The number of occurrences a table records in all (40_frequency_counter.md rule R131). -/
def total (freq : Vector Word64 256) : Nat := (allBytes.map fun b => (entry freq b).toNat).sum

/-- The bytes of an input pass not read yet. -/
def remaining (p : Pass) (s : State) : List Byte := (stream p s).drop s.inPos.toNat

/-! ### The invariant -/

/-- The phases of a command (46_commands.md rule R227, rule R228). -/
def phasesOf (cmd : BitVec 32) : List (BitVec 4) :=
  if cmd = huffWord then [1, 2, 3, 4, 5, 8]
  else if cmd = puffWord then [6, 2, 3, 7, 8]
  else []

/-- The values of `PHASE` a fault can be recorded with (60_exceptions.md rule R251 to rule R261; the fault
of `InRewind` keeps 1 or 3, notes/assumptions/4.md). -/
def raisersOf : ErrCode → List (BitVec 4)
  | .eCmd => [0]
  | .eIoIn => [1, 3, 4, 6, 7]
  | .eIoOut => [8]
  | .eFmtShort => [6]
  | .eFmtHdrlen => [6]
  | .eFmtRecord => [6]
  | .eFmtTrunc => [7]
  | .eFmtBitlen => [7]
  | .eLookup => [4]
  | .eOverflow => [1, 2, 4]

/-- The fields of `STATUS` agree: no error outside FAULT; BUSY only in a phase of the command in `CMD`;
DONE with `PHASE` 8; FAULT with the class of its code and a `PHASE` that raises it. -/
def StatusOk (s : State) : Prop :=
  match s.state with
  | .idle => s.phase = 0 ∧ s.err = 0 ∧ s.errclass = 0
  | .busy => s.err = 0 ∧ s.errclass = 0 ∧ s.phase ∈ phasesOf s.cmd
  | .done => s.err = 0 ∧ s.errclass = 0 ∧ s.phase = 8
  | .fault => ∃ e, s.err = errCode e ∧ s.errclass = errClass e ∧ s.phase ∈ raisersOf e

/-- The invariant of the machine. -/
structure Inv (s : State) : Prop where
  /-- The fields of `STATUS` agree (10_state.md rule R32). -/
  status : StatusOk s
  /-- `OUT` is empty but in DONE (10_state.md rule R34). -/
  output : s.state ≠ .done → s.out = []
  /-- `NB` is 0 to 7 between steps (10_state.md rule R27), and `ACC` holds `NB` bits. -/
  packer : s.nb.toNat ≤ 7 ∧ s.acc.toNat < 2 ^ s.nb.toNat
  /-- `POOL` is a set: its ids are listed strictly rising (10_state.md rule R24). -/
  pool : s.pool.Pairwise (· < ·)
  /-- `NEXT_ID` is the id of an internal node, or 511 when the table is full (10_state.md rule R23). -/
  nextId : 256 ≤ s.nextId.toNat
  /-- A code value lies below `2^len` (10_state.md rule R25). -/
  code : ∀ b : Byte, (entry s.code b).val.toNat < 2 ^ (entry s.code b).len.toNat
  /-- No more records are parsed than are declared (10_state.md rule R30). -/
  records : s.recidx.toNat ≤ s.nrec.toNat

/-- The invariant, and the output complete: in DONE `OUT` is all of what the command staged in `OBUF`
(10_state.md rule R34, 46_commands.md rule R230), `OBUF` being left as it was (notes/assumptions/10.md). -/
structure Delivered (s : State) : Prop where
  /-- The invariant, by which `OUT` is empty outside DONE. -/
  inv : Inv s
  /-- In DONE `OUT` is `OBUF`, whole. -/
  complete : s.state = .done → s.out = s.obuf

/-- The invariant, and what BUILD and ASSIGN find on entry: whatever runs next has what it needs. -/
structure EntryInv (s : State) : Prop where
  /-- The invariant, by which a BUSY machine is in a phase of its command. -/
  inv : Inv s
  /-- No node is merged before BUILD (41_tree_builder.md rule R140). -/
  fresh : s.state = .busy → s.phase = 1 ∨ s.phase = 2 ∨ s.phase = 6 → s.pool = [] ∧ s.nextId = 256
  /-- BUILD is run on a table that is not empty (rule R140, rule R147). -/
  present : s.state = .busy → s.phase = 2 → ∃ b, entry s.freq b ≠ 0
  /-- ASSIGN finds at `ROOT` a tree no deeper than 255 (42_code_assigner.md rule R160, rule R162). -/
  tree : s.state = .busy → s.phase = 3 →
    ∃ (r : NodeId) (tree : Codec.Tree), s.root = some r ∧ Codec.Represents s.node r tree ∧
      tree.depth ≤ 255

/-- The machine after reset, beside any host. -/
def resetWith (h : HostSide) : State := { State.reset with host := h }

/-- A state in which the host's next move is to write `word` to `CMD`, with nothing more to do, while
CORE accepts commands (70_reset_and_hazards.md rule R282). -/
def Commanded (word : BitVec 32) (s : State) : Prop :=
  s.state ≠ .busy ∧ s.host.actions = [.writeCmd word]

end Sys2Proof.Machine
end

