-- ==== Sys2Proof/Certificates/Slice0/Obligations.lean ====
section
/-! DEFINITION. The statements for the provers. Each docstring says which rule of spec/ it formalises. -/

open Sys2Proof Sys2Proof.Machine

/-! ### Encodings -/

/-- 30_encoding.md rule R90 to rule R99: decoding an encoded operation gives it back, with every value of
every field. -/
def Obligations.DecodeAfterEncode : Prop :=
  ∀ i : Instr, decode (encode i) = .instr i

/-- Rule R107, "each of the two commands has exactly one spelling and one encoding", for every operation:
what decodes to an operation is its encoding. -/
def Obligations.EncodeAfterDecode : Prop :=
  ∀ (e : Encoded) (i : Instr), decode e = .instr i → encode i = e

/-- Rule R92, rule R94, rule R98, rule R99: some words written out from the spec. -/
def Obligations.SampleWordsDecode : Prop :=
  decode (.cmd 0x68756666#32) = .instr .huff ∧
  decode (.cmd 0x70756666#32) = .instr .puff ∧
  decode (.phase 0b0001#4) = .instr .count ∧
  decode (.phase 0b0111#4) = .instr .unpack ∧
  decode (.phase 0b1001#4) = .rejected .phaseNeverWritten ∧
  decode (.header [0x00, 0x25, 0, 0, 0, 0, 0, 0, 0, 9]) = .instr (.keyHeader 37 9) ∧
  decode (.record [0x41, 0, 0, 0, 0, 0, 0, 0, 3]) = .instr (.keyRecord 0x41 3)

/-- 00_scope.md rule R11: the bytes of `BE16` and `BE64` are the slices it names, `be` is the sum it gives,
and `be` is their inverse. -/
def Obligations.BigEndianFields : Prop :=
  (∀ v : BitVec 16, be (be16 v) = v.toNat ∧
    be16 v = [v.extractLsb' 8 8, v.extractLsb' 0 8]) ∧
  (∀ v : Word64, be (be64 v) = v.toNat ∧ (be64 v).length = 8 ∧
    ∀ k, (be64 v)[k]? = if k < 8 then some (v.extractLsb' (8 * (7 - k)) 8) else none) ∧
  ∀ s : List Byte,
    be s = ((List.range s.length).map fun i => (s.getD i 0).toNat * 256 ^ (s.length - 1 - i)).sum

/-! ### The step -/

/-- 46_commands.md rule R229: BUSY, with the host doing nothing, a step runs the phase in `PHASE` and the
sequencer acts on what it leaves. That a step is one phase is the model's choice among those of rule R237
(notes/assumptions/1.md); the host's queue is the model's own data (notes/assumptions/2.md). -/
def Obligations.StepRunsThePhase : Prop :=
  ∀ (s : State) (i : Instr), s.state = .busy → decode (.phase s.phase) = .instr i →
    (s.host.actions = [] → step s = afterPhase (exec i s)) ∧
    (∀ rest, s.host.actions = .letRun :: rest →
      step s = afterPhase (exec i (withActions rest s)))

/-- Rule R225, 70_reset_and_hazards.md rule R280: a step in which the host writes a legal word to `CMD` or
asserts reset runs that operation, and the move is taken off the host's queue, which is the model's own
data (notes/assumptions/2.md). -/
def Obligations.StepRunsTheHostsOperation : Prop :=
  ∀ (s : State) (rest : List HostAction),
    (∀ w i, s.host.actions = .writeCmd w :: rest → decode (.cmd w) = .instr i →
      step s = exec i (withActions rest s)) ∧
    (s.host.actions = .reset :: rest → step s = exec .reset (withActions rest s))

/-- Rule R227, rule R229: the order of HUFF. After each phase that ended without a fault the sequencer
writes the next code to `PHASE`, BUILD and ASSIGN being skipped on an empty table; before PACK the
input is rewound. -/
def Obligations.OrderOfHuff : Prop :=
  ∀ s : State, s.state = .busy → s.cmd = 0x68756666#32 →
    (s.phase = 1 → (∃ b, entry s.freq b ≠ 0) → afterPhase (.next s) = .next { s with phase := 2 }) ∧
    (s.phase = 2 → afterPhase (.next s) = .next { s with phase := 3 }) ∧
    ((s.phase = 1 ∧ ∀ b, entry s.freq b = 0) ∨ s.phase = 3 → s.host.answers.head? ≠ some .err →
      afterPhase (.next s) =
        .next { answered 1 s with inPass := .two, inPos := 0, phase := 4 }) ∧
    (s.phase = 4 → afterPhase (.next s) = .next { s with phase := 5 }) ∧
    (s.phase = 5 → afterPhase (.next s) = .next { s with phase := 8 })

/-- Rule R228, rule R229: the order of PUFF. -/
def Obligations.OrderOfPuff : Prop :=
  ∀ s : State, s.state = .busy → s.cmd = 0x70756666#32 →
    (s.phase = 6 → (∃ b, entry s.freq b ≠ 0) → afterPhase (.next s) = .next { s with phase := 2 }) ∧
    (s.phase = 6 → (∀ b, entry s.freq b = 0) → afterPhase (.next s) = .next { s with phase := 7 }) ∧
    (s.phase = 2 → afterPhase (.next s) = .next { s with phase := 3 }) ∧
    (s.phase = 3 → afterPhase (.next s) = .next { s with phase := 7 }) ∧
    (s.phase = 7 → afterPhase (.next s) = .next { s with phase := 8 })

/-- 20_memory.md rule R62: an `Err` answer to `InRewind()` raises `Fault(E_IO_IN)`. That `PHASE` keeps the
code of the phase before (1 or 3) is the model's reading, notes/assumptions/4.md. -/
def Obligations.RewindFails : Prop :=
  ∀ s : State, s.state = .busy → s.cmd = 0x68756666#32 →
    (s.phase = 1 ∧ ∀ b, entry s.freq b = 0) ∨ s.phase = 3 → s.host.answers.head? = some .err →
    RaisesFrom s .eIoIn (afterPhase (.next s))

/-- 46_commands.md rule R230, 60_exceptions.md rule R262, 70_reset_and_hazards.md rule R280: in IDLE, DONE
and FAULT CORE does nothing until the host acts. -/
def Obligations.CoreWaitsForTheHost : Prop :=
  ∀ s : State, s.state ≠ .busy → s.host.actions = [] → step s = .next s

/-! ### Commands, reset, STATUS -/

/-- 46_commands.md rule R225 to rule R228: HUFF and PUFF are accepted in IDLE, DONE and FAULT; every item
of CORE is at its reset value but `CMD`, `STATE` (BUSY) and `PHASE`, the first phase of the command. That
`exec` of a command is this start alone, its phases being steps of their own, is the model's choice
(notes/assumptions/1.md). -/
def Obligations.CommandsStart : Prop :=
  ∀ s : State, s.state ≠ .busy →
    exec .huff s =
      .next { resetWith s.host with cmd := 0x68756666#32, state := .busy, phase := 1 } ∧
    exec .puff s =
      .next { resetWith s.host with cmd := 0x70756666#32, state := .busy, phase := 6 }

/-- Rule R226: at the start of every command, an illegal one too, all per-command state is set to the
reset values of 10_state.md rule R38. -/
def Obligations.CommandStartClears : Prop :=
  ∀ (s : State) (w : BitVec 32) (rest : List HostAction), s.state ≠ .busy →
    s.host.actions = .writeCmd w :: rest →
    ∃ t, step s = .next t ∧ t.cmd = w ∧
      (∀ b, entry t.freq b = 0) ∧ (∀ i, nodeAt t.node i = Node.zero) ∧ t.pool = [] ∧
      t.nextId = 256 ∧ t.root = none ∧ (∀ b, entry t.code b = { val := 0, len := 0 }) ∧
      t.bitlen = 0 ∧ t.acc = 0 ∧ t.nb = 0 ∧ t.pay = [] ∧ t.cursor = 0 ∧ t.walk = 0 ∧
      t.hdrlen = 0 ∧ t.nrec = 0 ∧ t.recidx = 0 ∧ t.inPos = 0 ∧ t.inPass = .one ∧
      t.obuf = [] ∧ t.out = []

/-- Rule R231: a write to `CMD` while BUSY has no effect: "`CMD` keeps its value, the running command goes
on". -/
def Obligations.WriteWhileBusyIgnored : Prop :=
  ∀ (s : State) (w : BitVec 32) (rest : List HostAction), s.state = .busy →
    s.host.actions = .writeCmd w :: rest → step s = .next (withActions rest s)

/-- Rule R93, 60_exceptions.md rule R251: any other command word raises `Fault(E_CMD)` before any phase;
`PHASE` reads 0 and `CMD` keeps the offending word. -/
def Obligations.IllegalCommandFaults : Prop :=
  ∀ (s : State) (w : BitVec 32) (rest : List HostAction), s.state ≠ .busy →
    w ≠ 0x68756666#32 → w ≠ 0x70756666#32 → s.host.actions = .writeCmd w :: rest →
    ∃ t, step s = .next t ∧ t.state = .fault ∧ t.err = 1 ∧ t.errclass = 1 ∧ t.phase = 0 ∧
      t.cmd = w ∧ t.out = []

/-- 70_reset_and_hazards.md rule R280, rule R281: RESET puts every item of state at its reset value, in
any state, BUSY included, and CORE then does nothing until the host acts. -/
def Obligations.ResetRestoresEverything : Prop :=
  ∀ s : State, ∃ t, exec .reset s = .next t ∧ t.host = s.host ∧ t.cmd = 0 ∧ t.state = .idle ∧
    t.phase = 0 ∧ t.err = 0 ∧ t.errclass = 0 ∧
    (∀ b, entry t.freq b = 0) ∧ (∀ i, nodeAt t.node i = Node.zero) ∧ t.pool = [] ∧
    t.nextId = 256 ∧ t.root = none ∧ (∀ b, entry t.code b = { val := 0, len := 0 }) ∧
    t.bitlen = 0 ∧ t.acc = 0 ∧ t.nb = 0 ∧ t.pay = [] ∧ t.cursor = 0 ∧ t.walk = 0 ∧
    t.hdrlen = 0 ∧ t.nrec = 0 ∧ t.recidx = 0 ∧ t.inPos = 0 ∧ t.inPass = .one ∧
    t.obuf = [] ∧ t.out = [] ∧ statusWord t = 0 ∧ (s.host.actions = [] → step t = .next t)

/-- 10_state.md rule R32: the layout of `STATUS`; 30_encoding.md rule R95: the codes of `STATE`; rule R96:
the number and the class of each of the ten faults, and where a `STATUS` that records one shows them. -/
def Obligations.StatusLayout : Prop :=
  (∀ s : State,
    (statusWord s).extractLsb' 0 2 =
      (match s.state with
        | .idle => 0
        | .busy => 1
        | .done => 2
        | .fault => 3) ∧
    (statusWord s).extractLsb' 2 2 = 0 ∧
    (statusWord s).extractLsb' 4 4 = s.phase ∧
    (statusWord s).extractLsb' 8 4 = s.err ∧
    (statusWord s).extractLsb' 12 3 = s.errclass ∧
    (statusWord s).extractLsb' 15 17 = 0) ∧
  ∀ x ∈ [(ErrCode.eCmd, 1#4, 1#3), (.eIoIn, 2, 2), (.eIoOut, 3, 2), (.eFmtShort, 4, 3),
      (.eFmtHdrlen, 5, 3), (.eFmtRecord, 6, 3), (.eFmtTrunc, 7, 3), (.eFmtBitlen, 8, 3),
      (.eLookup, 9, 4), (.eOverflow, 10, 5)],
    errCode x.1 = x.2.1 ∧ errClass x.1 = x.2.2 ∧
    ∀ s t : State, Faulted x.1 s t →
      (statusWord t).extractLsb' 0 2 = 3 ∧ (statusWord t).extractLsb' 4 4 = s.phase ∧
      (statusWord t).extractLsb' 8 4 = x.2.1 ∧ (statusWord t).extractLsb' 12 3 = x.2.2

/-- 46_commands.md rule R232: a read of `STATUS` returns its fields and has no side effect. -/
def Obligations.ReadingStatusChangesNothing : Prop :=
  ∀ (s : State) (rest : List HostAction), s.host.actions = .readStatus :: rest →
    ∃ t, step s = .next t ∧ coreOf t = coreOf s ∧ t.host.statusRead = some (statusWord s)

/-- 70_reset_and_hazards.md rule R281, rule R291: while BUSY no move of the host but reset touches the
command that runs. The host's moves are the model's own data (notes/assumptions/2.md). -/
def Obligations.OnlyResetStopsACommand : Prop :=
  ∀ (s t : State) (a : HostAction) (rest : List HostAction), s.state = .busy →
    s.host.actions = a :: rest → a ≠ .letRun → a ≠ .reset → step s = .next t →
    coreOf t = coreOf s

/-! ### COUNT -/

/-- 40_frequency_counter.md rule R131: each occurrence in the rest of pass 1 adds one to its entry, where
every count fits in 64 bits; nothing but `FREQ` and `IN_POS` is written. -/
def Obligations.CountAddsOccurrences : Prop :=
  ∀ s : State, NoErr s → s.host.in1.length < 2 ^ 64 →
    (∀ b, (entry s.freq b).toNat + (remaining .one s).count b < 2 ^ 64) →
    ∃ t, exec .count s = .next t ∧
      (∀ b, (entry t.freq b).toNat = (entry s.freq b).toNat + (remaining .one s).count b) ∧
      t.inPos.toNat = max s.inPos.toNat s.host.in1.length ∧
      t = { answered ((remaining .one s).length + 1) s with freq := t.freq, inPos := t.inPos }

/-- Rule R131: "After COUNT, `FREQ = count(IN1)`, the sum of all `FREQ[b]` equals `len(IN1)`, and `b` is a
present byte exactly when it occurs in `IN1`." -/
def Obligations.CountFromCleared : Prop :=
  ∀ s : State, NoErr s → s.host.in1.length < 2 ^ 64 → s.inPos = 0 → (∀ b, entry s.freq b = 0) →
    ∃ t, exec .count s = .next t ∧
      (∀ b, (entry t.freq b).toNat = s.host.in1.count b) ∧
      total t.freq = s.host.in1.length ∧
      (∀ b, presentIn t.freq b = true ↔ b ∈ s.host.in1) ∧
      KeepsFlags s t

/-- Rule R132: a count that would pass `2^64 - 1` raises `Fault(E_OVERFLOW)`; it never wraps. -/
def Obligations.CountOverflowFaults : Prop :=
  ∀ s : State, NoErr s → s.host.in1.length < 2 ^ 64 →
    (∃ b, (entry s.freq b).toNat + (remaining .one s).count b ≥ 2 ^ 64) →
    RaisesFrom s .eOverflow (exec .count s)

/-- Rule R133, 44_key_serializer.md rule R192: an `Err` answer to any `InNext(1)` of COUNT, and to one that
reads a byte of the header in KEYRD, raises `Fault(E_IO_IN)`. After `k` calls that were served COUNT still
reads where none of the first `k` bytes overflowed a count. KEYRD, on any input, still reads the header
where those `k` bytes alone are a file too short (rule R195, rule R199): what stands behind them, a bad
length or a bad record, is not reached. -/
def Obligations.InputFailsWhileReading : Prop :=
  ∀ (s : State) (k : Nat) (more : List HostAnswer),
    s.host.answers = List.replicate k .ok ++ .err :: more →
    (s.host.in1.length < 2 ^ 64 → k ≤ (remaining .one s).length →
      (∀ b, (entry s.freq b).toNat + ((remaining .one s).take k).count b < 2 ^ 64) →
      RaisesFrom s .eIoIn (exec .count s)) ∧
    (s.inPos = 0 → s.freq = Codec.emptyTable → k ≤ s.host.in1.length →
      Codec.parse (s.host.in1.take k) = .error .eFmtShort → RaisesFrom s .eIoIn (exec .keyrd s))

/-! ### BUILD -/

/-- 41_tree_builder.md rule R143: on nodes whose `minb` differ the node order is a strict total order. -/
def Obligations.NodeOrderIsTotal : Prop :=
  ∀ x y z : Node,
    nodeLt x x = false ∧
    (nodeLt x y = true ↔ x.freq.toNat < y.freq.toNat ∨ (x.freq = y.freq ∧ x.minb.toNat < y.minb.toNat)) ∧
    (nodeLt x y = true → nodeLt y z = true → nodeLt x z = true) ∧
    (x.minb ≠ y.minb → (nodeLt x y = true ↔ nodeLt y x = false))

/-- Rule R144: the selected node is the least of the pool, and the rest of the pool is left. -/
def Obligations.SelectionIsLeast : Prop :=
  ∀ (t : Vector Node 511) (pool : List NodeId),
    (pool.Pairwise fun i j => (nodeAt t i).minb ≠ (nodeAt t j).minb) →
    (takeLeast (idLt t) pool = none ↔ pool = []) ∧
    ∀ x rest, takeLeast (idLt t) pool = some (x, rest) →
      pool.Perm (x :: rest) ∧ ∀ y ∈ rest, idLt t x y = true

/-- Rule R141 with 10_state.md rule R36: BUILD leaves in `NODE` and `ROOT` the tree that the algorithm
gives as a value; the fault, the empty table (no tree, the model's choice where rule R147 allows it,
notes/assumptions/7.md) and the frame included. -/
def Obligations.BuildMakesTheTree : Prop :=
  ∀ s : State, s.pool = [] → s.nextId = 256 →
    match Codec.build s.freq with
    | .error e => RaisesFrom s e (exec .build s)
    | .ok none => exec .build s = .next { s with root := none }
    | .ok (some tree) =>
      ∃ r t, exec .build s = .next t ∧ t.root = some r ∧ Codec.Represents t.node r tree ∧
        t.pool = [r] ∧ t.nextId.toNat = 256 + (presentBytes s.freq).length - 1 ∧
        t = { s with node := t.node, pool := t.pool, nextId := t.nextId, root := t.root }

/-- Rule R148, rule R149: BUILD raises `E_OVERFLOW` when the frequencies add up to `2^64` or more; else
it ends with one root whose frequency is the sum and whose `minb` is the smallest present byte. ROOT NONE
on the empty table is the model's choice (notes/assumptions/7.md): rule R147 says that BUILD is never run
there, and only allows it. -/
def Obligations.BuildFaultsOnlyOnOverflow : Prop :=
  ∀ s : State, s.pool = [] → s.nextId = 256 →
    (total s.freq ≥ 2 ^ 64 → RaisesFrom s .eOverflow (exec .build s)) ∧
    (total s.freq < 2 ^ 64 →
      ∃ t, exec .build s = .next t ∧ KeepsFlags s t ∧
        (t.root = none ↔ ∀ b, entry s.freq b = 0) ∧
        ∀ r, t.root = some r →
          (nodeAt t.node r).freq.toNat = total s.freq ∧
          entry s.freq (nodeAt t.node r).minb ≠ 0 ∧
          ∀ b, entry s.freq b ≠ 0 → (nodeAt t.node r).minb.toNat ≤ b.toNat)

/-- Rule R146: a table with one entry gives a one-node tree, whose root is the leaf. -/
def Obligations.BuildOneEntry : Prop :=
  ∀ (s : State) (b : Byte), s.pool = [] → s.nextId = 256 → entry s.freq b ≠ 0 →
    (∀ c, c ≠ b → entry s.freq c = 0) →
    exec .build s =
      .next
        { s with
          node := setNode s.node (leafId b)
            { leaf := true, byte := b, freq := entry s.freq b, minb := b, left := 0, right := 0 }
          pool := [leafId b]
          root := some (leafId b) }

/-- Rule R149 item 3 and item 5: the leaves of the tree BUILD makes are the present bytes, each once, and
no leaf lies below depth 255. -/
def Obligations.BuiltTreeHasEachByteOnce : Prop :=
  ∀ (freq : Vector Word64 256) (tree : Codec.Tree), Codec.build freq = .ok (some tree) →
    tree.bytes.Perm (presentBytes freq) ∧ tree.bytes.Nodup ∧
      tree.depth + 1 ≤ (presentBytes freq).length ∧ tree.depth ≤ 255

/-! ### ASSIGN -/

/-- 42_code_assigner.md rule R161: ASSIGN writes for each leaf the code of its path, and nothing else. -/
def Obligations.AssignWritesThePaths : Prop :=
  ∀ (s : State) (r : NodeId) (tree : Codec.Tree), s.root = some r →
    Codec.Represents s.node r tree → tree.depth ≤ 255 → tree.bytes.Nodup →
    ∃ t, exec .assign s = .next t ∧ t = { s with code := t.code } ∧
      ∀ b, match (Codec.assign (some tree)).lookup b with
        | some (v, l) => (entry t.code b).val.toNat = v ∧ (entry t.code b).len.toNat = l
        | none => entry t.code b = entry s.code b

/-- Rule R163: on a degenerate tree ASSIGN stores `(val=0, len=1)`. -/
def Obligations.AssignDegenerateTree : Prop :=
  ∀ (s : State) (r : NodeId), s.root = some r → (nodeAt s.node r).leaf = true →
    exec .assign s =
      .next { s with code := setEntry s.code (nodeAt s.node r).byte { val := 0, len := 1 } }

/-- Rule R164: no two codes are prefix-comparable, and the entries are those of the tree's bytes. -/
def Obligations.CodesArePrefixFree : Prop :=
  ∀ (s t : State) (r : NodeId) (tree : Codec.Tree), s.root = some r →
    Codec.Represents s.node r tree → tree.depth ≤ 255 → tree.bytes.Nodup →
    (∀ b, (entry s.code b).len = 0) → exec .assign s = .next t →
    (∀ b, (entry t.code b).len ≠ 0 ↔ b ∈ tree.bytes) ∧
    ∀ a b, a ≠ b → (entry t.code a).len ≠ 0 → (entry t.code b).len ≠ 0 →
      ¬ Codec.codeBits (entry t.code a) <+: Codec.codeBits (entry t.code b)

/-! ### PACK -/

/-- 43_bit_packer.md rule R171, rule R173, rule R174, 20_memory.md rule R65, rule R66: from the entry
state of rule R170 the payload holds the codes' bits in order, most significant first, the padding bits
are 0, `BITLEN` is the exact number, and nothing else is written. -/
def Obligations.PackConcatenatesTheCodes : Prop :=
  ∀ (s : State) (bs : List Bool), NoErr s → s.host.in2.length < 2 ^ 64 →
    s.inPos = 0 → s.pay = [] → s.bitlen = 0 → s.acc = 0 → s.nb = 0 →
    (∀ b ∈ s.host.in2, (entry s.code b).len ≠ 0) →
    bs = s.host.in2.flatMap (fun b => Codec.codeBits (entry s.code b)) → bs.length < 2 ^ 64 →
    ∃ t, exec .pack s = .next t ∧ t.bitlen.toNat = bs.length ∧
      t.pay.length = (bs.length + 7) / 8 ∧
      (∀ k, k < bs.length → payBit t.pay k = bs[k]?) ∧
      (∀ k, bs.length ≤ k → k < 8 * t.pay.length → payBit t.pay k = some false) ∧
      t.inPos.toNat = s.host.in2.length ∧
      t = { answered (s.host.in2.length + 1) s with
        pay := t.pay, bitlen := t.bitlen, inPos := t.inPos }

/-- Rule R172: a byte without an entry in `CODE` raises `Fault(E_LOOKUP)`. -/
def Obligations.PackLookupMissFaults : Prop :=
  ∀ (s : State) (before after : List Byte) (b : Byte), NoErr s → s.host.in2.length < 2 ^ 64 →
    remaining .two s = before ++ b :: after → (entry s.code b).len = 0 →
    (∀ c ∈ before, (entry s.code c).len ≠ 0) →
    s.bitlen.toNat + (before.flatMap fun c => Codec.codeBits (entry s.code c)).length < 2 ^ 64 →
    RaisesFrom s .eLookup (exec .pack s)

/-- Rule R176, rule R175: an `Err` answer raises `E_IO_IN`; a bit length that would pass `2^64 - 1` raises
`E_OVERFLOW`. -/
def Obligations.PackInputFailsOrOverflows : Prop :=
  ∀ s : State, s.host.in2.length < 2 ^ 64 →
    (∀ b ∈ remaining .two s, (entry s.code b).len ≠ 0) →
    (∀ k more, k ≤ (remaining .two s).length →
      s.host.answers = List.replicate k .ok ++ .err :: more →
      s.bitlen.toNat +
        (((remaining .two s).take k).flatMap fun c => Codec.codeBits (entry s.code c)).length < 2 ^ 64 →
      RaisesFrom s .eIoIn (exec .pack s)) ∧
    (NoErr s →
      s.bitlen.toNat +
        ((remaining .two s).flatMap fun c => Codec.codeBits (entry s.code c)).length ≥ 2 ^ 64 →
      RaisesFrom s .eOverflow (exec .pack s))

/-! ### KEYWR and KEYRD -/

/-- 44_key_serializer.md rule R186, rule R188: the header, the records ascending, the payload. -/
def Obligations.KeywrWritesTheFile : Prop :=
  ∀ s : State,
    exec .keywr s =
      .next
        { s with
          obuf := s.obuf ++
            (be16 (BitVec.ofNat 16 (10 + 9 * (allBytes.filter (presentIn s.freq)).length)) ++
              be64 s.bitlen ++
              (allBytes.filter (presentIn s.freq)).flatMap (fun b => b :: be64 (entry s.freq b)) ++
              s.pay) }

/-- Rule R187: `header_length` is the byte length of the header, lies between 10 and 2314, fits its two
bytes, and gives the number of records. -/
def Obligations.HeaderLengthFits : Prop :=
  ∀ (freq : Vector Word64 256) (n : Word64),
    (keyBytes freq n).length = headerLengthFor freq ∧
    (headerLengthOf (keyBytes freq n)).toNat = headerLengthFor freq ∧
    headerLengthFor freq = 10 + 9 * (allBytes.filter (presentIn freq)).length ∧
    10 ≤ headerLengthFor freq ∧ headerLengthFor freq ≤ 2314 ∧
    (headerLengthFor freq - 10) / 9 = (allBytes.filter (presentIn freq)).length

/-- 30_encoding.md rule R98, 44_key_serializer.md rule R192, rule R193, rule R196: the fixed part, once its
ten bytes are read (notes/assumptions/13.md), is taken as it stands; `E_FMT_HDRLEN` when `header_length` is below 10 or leaves a remainder. -/
def Obligations.KeyHeaderIsTaken : Prop :=
  ∀ (s : State) (h : BitVec 16) (n : Word64),
    (10 ≤ h.toNat → (h.toNat - 10) % 9 = 0 →
      exec (.keyHeader h n) s =
        .next { s with
          hdrlen := h, bitlen := n, nrec := BitVec.ofNat 16 ((h.toNat - 10) / 9), recidx := 0 }) ∧
    (h.toNat < 10 ∨ (h.toNat - 10) % 9 ≠ 0 → RaisesFrom s .eFmtHdrlen (exec (.keyHeader h n) s))

/-- 30_encoding.md rule R99, 44_key_serializer.md rule R192, rule R194: a record, once its nine bytes are
read (notes/assumptions/13.md), enters `FREQ`; frequency 0
and a byte value already seen raise `E_FMT_RECORD`. -/
def Obligations.KeyRecordIsTaken : Prop :=
  ∀ (s : State) (b : Byte) (f : Word64),
    (f ≠ 0 → entry s.freq b = 0 →
      ∃ t, exec (.keyRecord b f) s = .next t ∧ entry t.freq b = f ∧
        (∀ c, c ≠ b → entry t.freq c = entry s.freq c) ∧ t.recidx = s.recidx + 1 ∧
        t = { s with freq := t.freq, recidx := t.recidx }) ∧
    (f = 0 ∨ entry s.freq b ≠ 0 → RaisesFrom s .eFmtRecord (exec (.keyRecord b f) s))

/-- Rule R192 to rule R199: KEYRD is the function `parse` on pass 1, its faults in the order of rule
R199. -/
def Obligations.KeyrdParses : Prop :=
  ∀ s : State, NoErr s → s.inPos = 0 → s.freq = Codec.emptyTable →
    match Codec.parse s.host.in1 with
    | .error e => RaisesFrom s e (exec .keyrd s)
    | .ok (freq, n, p) =>
      ∃ t, exec .keyrd s = .next t ∧ t.freq = freq ∧ t.bitlen.toNat = n ∧ payload t = p ∧
        t.hdrlen = headerLengthOf s.host.in1 ∧ t.nrec.toNat = (t.hdrlen.toNat - 10) / 9 ∧
        t.recidx = t.nrec ∧ t.inPos.toNat = t.hdrlen.toNat ∧
        t = { answered t.hdrlen.toNat s with
          freq := t.freq, bitlen := t.bitlen, hdrlen := t.hdrlen, nrec := t.nrec,
          recidx := t.recidx, inPos := t.inPos }

/-- Rule R201: KEYRD undoes KEYWR, for every table and every bit length. -/
def Obligations.KeyrdUndoesKeywr : Prop :=
  ∀ (s : State) (freq : Vector Word64 256) (n : Word64) (p : List Byte), NoErr s → s.inPos = 0 →
    s.freq = Codec.emptyTable → s.host.in1 = keyBytes freq n ++ p →
    ∃ t, exec .keyrd s = .next t ∧ t.freq = freq ∧ t.bitlen = n ∧ payload t = p ∧ KeepsFlags s t

/-- Rule R197: permuted records give the same table. -/
def Obligations.RecordOrderIsFree : Prop :=
  ∀ (s : State) (freq : Vector Word64 256) (n : Word64) (order : List Byte) (p : List Byte),
    NoErr s → s.inPos = 0 → s.freq = Codec.emptyTable → order.Perm (presentBytes freq) →
    s.host.in1 =
      be16 (BitVec.ofNat 16 (headerLengthFor freq)) ++ be64 n ++ order.flatMap (recordBytes freq) ++ p →
    ∃ t, exec .keyrd s = .next t ∧ t.freq = freq ∧ t.bitlen = n ∧ payload t = p

/-! ### UNPACK -/

/-- 45_bit_unpacker.md rule R211 to rule R220: from the entry state of rule R210 UNPACK is the walk of the
tree over the payload bits, with its faults; the cursor ends at the declared length, and nothing but
`CURSOR`, `WALK`, `IN_POS` and `OBUF` is written. -/
def Obligations.UnpackWalksTheTree : Prop :=
  ∀ (s : State) (r : NodeId) (tree : Codec.Tree), NoErr s → s.host.in1.length < 2 ^ 64 →
    s.root = some r → Codec.Represents s.node r tree → s.cursor = 0 →
    s.inPos.toNat = s.hdrlen.toNat →
    match Codec.unpack (some tree) s.bitlen.toNat (payload s) with
    | .error e => RaisesFrom s e (exec .unpack s)
    | .ok bytes =>
      ∃ t, exec .unpack s = .next t ∧ t.obuf = s.obuf ++ bytes ∧ t.cursor = s.bitlen ∧
        t = { answered ((s.bitlen.toNat + 7) / 8) s with
          cursor := t.cursor, walk := t.walk, inPos := t.inPos, obuf := t.obuf }

/-- Rule R213: on a degenerate tree one bit is consumed per emitted byte, with the same two tests as any
other bit, and "The output is `BITLEN` copies of the byte", whatever the bits are. -/
def Obligations.UnpackDegenerateTree : Prop :=
  ∀ (s : State) (r : NodeId), NoErr s → s.host.in1.length < 2 ^ 64 → s.root = some r →
    (nodeAt s.node r).leaf = true → s.cursor = 0 → s.inPos.toNat = s.hdrlen.toNat →
    (s.bitlen = 0 → RaisesFrom s .eFmtBitlen (exec .unpack s)) ∧
    (8 * (payload s).length < s.bitlen.toNat → RaisesFrom s .eFmtTrunc (exec .unpack s)) ∧
    (s.bitlen ≠ 0 → s.bitlen.toNat ≤ 8 * (payload s).length →
      ∃ t, exec .unpack s = .next t ∧ t.cursor = s.bitlen ∧
        t.obuf = s.obuf ++ List.replicate s.bitlen.toNat (nodeAt s.node r).byte)

/-- Rule R217: without a tree UNPACK emits nothing when the declared length is 0, and raises
`E_FMT_BITLEN` otherwise. With a tree, at the first bit: rule R216, `E_FMT_BITLEN` when the declared
length is 0; rule R212, `E_IO_IN` when the host answers `Err`; rule R215, `E_FMT_TRUNC` when there is no
payload. At any later payload byte, rule R212 and 60_exceptions.md rule R252: when the host serves `k`
payload bytes and then answers `Err`, and the walk needs a bit past them (so that a payload of those `k`
bytes alone would be truncated, rule R215), UNPACK raises `E_IO_IN`. -/
def Obligations.UnpackFirstBit : Prop :=
  ∀ s : State,
    (s.root = none →
      (s.bitlen = 0 → exec .unpack s = .next s) ∧
      (s.bitlen ≠ 0 → RaisesFrom s .eFmtBitlen (exec .unpack s))) ∧
    (∀ r, s.root = some r → s.cursor = 0 →
      (s.bitlen = 0 → RaisesFrom s .eFmtBitlen (exec .unpack s)) ∧
      (s.bitlen ≠ 0 → s.host.answers.head? = some .err → RaisesFrom s .eIoIn (exec .unpack s)) ∧
      (s.bitlen ≠ 0 → s.host.answers.head? ≠ some .err → s.host.in1.length ≤ s.inPos.toNat →
        RaisesFrom s .eFmtTrunc (exec .unpack s))) ∧
    ∀ (r : NodeId) (tree : Codec.Tree) (k : Nat) (more : List HostAnswer), s.root = some r →
      Codec.Represents s.node r tree → s.cursor = 0 → s.inPos.toNat = s.hdrlen.toNat →
      s.host.in1.length < 2 ^ 64 → s.host.answers = List.replicate k .ok ++ .err :: more →
      k ≤ (payload s).length →
      Codec.unpack (some tree) s.bitlen.toNat ((payload s).take k) = .error .eFmtTrunc →
      RaisesFrom s .eIoIn (exec .unpack s)

/-! ### COMMIT -/

/-- 46_commands.md rule R230, 20_memory.md rule R63: COMMIT hands `OBUF` over and ends the command in DONE,
and CORE then does nothing until the host acts. 60_exceptions.md rule R253: an `Err` answer to `OutCommit`
raises `E_IO_OUT`; `PHASE` reads 8 and `OUT` stays empty. -/
def Obligations.CommitHandsOver : Prop :=
  ∀ s : State,
    (s.host.answers.head? ≠ some .err →
      exec .commit s = .next { answered 1 s with out := s.obuf, state := .done }) ∧
    (s.phase = 8 → s.host.answers.head? = some .err →
      ∃ t, exec .commit s = .next t ∧ t.state = .fault ∧ t.err = 3 ∧ t.errclass = 2 ∧ t.phase = 8 ∧
        t.out = []) ∧
    (∀ t, exec .commit s = .next t → t.host.actions = [] → step t = .next t)

/-! ### Faults and frames -/

/-- 60_exceptions.md rule R260: which operation can raise which code, but for its row of `E_CMD`, which is
in IllegalCommandFaults. `Faulted` says that `PHASE` is kept (rule R262); that a fault of `InRewind` so
keeps 1 or 3 is the model's reading, notes/assumptions/4.md. -/
def Obligations.FaultsOfEachOperation : Prop :=
  ∀ s t : State, s.state = .busy → t.state = .fault →
    (exec .count s = .next t → Faulted .eIoIn s t ∨ Faulted .eOverflow s t) ∧
    (exec .build s = .next t → Faulted .eOverflow s t) ∧
    (exec .assign s ≠ .next t) ∧
    (afterPhase (.next s) = .next t → Faulted .eIoIn s t) ∧
    (exec .pack s = .next t →
      Faulted .eIoIn s t ∨ Faulted .eLookup s t ∨ Faulted .eOverflow s t) ∧
    (exec .keywr s ≠ .next t) ∧
    (exec .keyrd s = .next t →
      Faulted .eIoIn s t ∨ Faulted .eFmtShort s t ∨ Faulted .eFmtHdrlen s t ∨
        Faulted .eFmtRecord s t) ∧
    (exec .unpack s = .next t →
      Faulted .eIoIn s t ∨ Faulted .eFmtBitlen s t ∨ Faulted .eFmtTrunc s t) ∧
    (exec .commit s = .next t → Faulted .eIoOut s t)

/-- 40_frequency_counter.md rule R131, 44_key_serializer.md rule R192: what COUNT, KEYRD and the two
formats leave unchanged, in every state and on every path that answers a next state. -/
def Obligations.FrameOfTheReaders : Prop :=
  ∀ s t : State,
    (exec .count s = .next t →
      KeepsOrFaults s t ∧ HostKept s t ∧
      (∀ b, (entry s.freq b).toNat ≤ (entry t.freq b).toNat) ∧
      t = { s with
        freq := t.freq, inPos := t.inPos, host := t.host, state := t.state, err := t.err,
        errclass := t.errclass, obuf := t.obuf, out := t.out }) ∧
    (exec .keyrd s = .next t →
      KeepsOrFaults s t ∧ HostKept s t ∧
      (∀ b, entry s.freq b ≠ 0 → entry t.freq b = entry s.freq b) ∧
      t = { s with
        freq := t.freq, hdrlen := t.hdrlen, bitlen := t.bitlen, nrec := t.nrec, recidx := t.recidx,
        inPos := t.inPos, host := t.host, state := t.state, err := t.err, errclass := t.errclass,
        obuf := t.obuf, out := t.out }) ∧
    (∀ h n, exec (.keyHeader h n) s = .next t →
      KeepsOrFaults s t ∧
      t = { s with
        hdrlen := h, bitlen := n, nrec := t.nrec, recidx := t.recidx, state := t.state, err := t.err,
        errclass := t.errclass, obuf := t.obuf, out := t.out }) ∧
    (∀ b f, exec (.keyRecord b f) s = .next t →
      KeepsOrFaults s t ∧ (∀ c, c ≠ b → entry t.freq c = entry s.freq c) ∧
      t = { s with
        freq := t.freq, recidx := t.recidx, state := t.state, err := t.err, errclass := t.errclass,
        obuf := t.obuf, out := t.out })

/-- 41_tree_builder.md rule R141, 42_code_assigner.md rule R161: what BUILD and ASSIGN leave unchanged;
of `NODE`, BUILD writes only the leaves of present bytes and the ids `NEXT_ID` goes through. -/
def Obligations.FrameOfTheTreeUnits : Prop :=
  ∀ s t : State,
    (exec .build s = .next t →
      KeepsOrFaults s t ∧
      (∀ i : NodeId, (∀ b, i = leafId b → entry s.freq b = 0) →
        i.val < s.nextId.toNat ∨ t.nextId.toNat ≤ i.val → nodeAt t.node i = nodeAt s.node i) ∧
      t = { s with
        node := t.node, pool := t.pool, nextId := t.nextId, root := t.root, state := t.state,
        err := t.err, errclass := t.errclass, obuf := t.obuf, out := t.out }) ∧
    (exec .assign s = .next t → t = { s with code := t.code })

/-- 43_bit_packer.md rule R171, 44_key_serializer.md rule R186, 45_bit_unpacker.md rule R211, 46_commands.md
rule R230: what PACK, KEYWR, UNPACK and COMMIT leave unchanged; the staged output only grows, unless a
fault empties it. -/
def Obligations.FrameOfTheWriters : Prop :=
  ∀ s t : State,
    (exec .pack s = .next t →
      KeepsOrFaults s t ∧ HostKept s t ∧
      t = { s with
        pay := t.pay, bitlen := t.bitlen, acc := t.acc, nb := t.nb, inPos := t.inPos, host := t.host,
        state := t.state, err := t.err, errclass := t.errclass, obuf := t.obuf, out := t.out }) ∧
    (exec .keywr s = .next t → s.obuf <+: t.obuf ∧ t = { s with obuf := t.obuf }) ∧
    (exec .unpack s = .next t →
      ((KeepsFlags s t ∧ s.obuf <+: t.obuf) ∨ ∃ e, Faulted e s t) ∧ HostKept s t ∧
      t = { s with
        cursor := t.cursor, walk := t.walk, inPos := t.inPos, host := t.host, state := t.state,
        err := t.err, errclass := t.errclass, obuf := t.obuf, out := t.out }) ∧
    (exec .commit s = .next t →
      HostKept s t ∧
      t = { s with
        host := t.host, state := t.state, err := t.err, errclass := t.errclass, obuf := t.obuf,
        out := t.out })

/-! ### The machine as a whole -/

/-- The invariant of the machine is kept by every step: `STATUS` agrees with itself and with `CMD`
(10_state.md rule R32), `OUT` is empty but in DONE (rule R34), and the ranges of rule R24, rule R25, rule
R27 and rule R30 hold. -/
def Obligations.EveryStepKeepsTheInvariant : Prop :=
  ∀ s t : State, Inv s → step s = .next t → Inv t

/-- The invariant holds after reset, beside any host. -/
def Obligations.InvariantAfterReset : Prop :=
  ∀ h : HostSide, Inv (resetWith h)

/-- 46_commands.md rule R234: HUFF computes `huff(IN1, IN2)`, from every state that accepts a command. The
number of steps is the model's (one phase a step, notes/assumptions/1.md). -/
def Obligations.HuffIsItsFunction : Prop :=
  ∀ s : State, Commanded 0x68756666#32 s → NoErr s → s.host.in1.length < 2 ^ 64 →
    s.host.in2.length < 2 ^ 64 →
    ∃ t, Host.Core.run core 7 s = .next t ∧ EndedAs (Codec.huff s.host.in1 s.host.in2) t

/-- Rule R234: PUFF computes `puff(IN1)`, from every state that accepts a command. The number of steps is
the model's (notes/assumptions/1.md). -/
def Obligations.PuffIsItsFunction : Prop :=
  ∀ s : State, Commanded 0x70756666#32 s → NoErr s → s.host.in1.length < 2 ^ 64 →
    ∃ t, Host.Core.run core 6 s = .next t ∧ EndedAs (Codec.puff s.host.in1) t

/-- Rule R235: the round trip, `puff(huff(input)) == input`, on the machine: for every byte sequence
shorter than `2^64` bytes whose encoded length is below `2^64` bits HUFF does not fault, and PUFF of what
it gives returns the input. The numbers of steps, 7 and 6, are the model's (notes/assumptions/1.md). -/
def Obligations.RoundTrip : Prop :=
  ∀ (d : List Byte) (s : State), d.length < 2 ^ 64 → Codec.encodedLength d < 2 ^ 64 →
    Commanded 0x68756666#32 s → NoErr s → s.host.in1 = d → s.host.in2 = d →
    ∃ t, Host.Core.run core 7 s = .next t ∧ t.state = .done ∧
      ∀ s', Commanded 0x70756666#32 s' → NoErr s' → s'.host.in1 = t.out →
        ∃ t', Host.Core.run core 6 s' = .next t' ∧ t'.state = .done ∧ t'.out = d

/-- 43_bit_packer.md rule R172, 70_reset_and_hazards.md rule R285: when pass 2 differs from pass 1 but uses
only bytes of it, HUFF ends DONE and the file decodes to pass 2. The one exception follows from
45_bit_unpacker.md rule R216: an empty pass 2 after a pass 1 that is not empty gives a key with records
and a declared length of 0, on which PUFF raises `E_FMT_BITLEN` (notes/assumptions/16.md). The numbers of
steps, 7 and 6, are the model's (notes/assumptions/1.md). -/
def Obligations.SecondPassIsWhatIsEncoded : Prop :=
  ∀ (d e : List Byte) (s : State), d.length < 2 ^ 64 → e.length < 2 ^ 56 → (∀ b ∈ e, b ∈ d) →
    Commanded 0x68756666#32 s → NoErr s → s.host.in1 = d → s.host.in2 = e →
    ∃ t, Host.Core.run core 7 s = .next t ∧ t.state = .done ∧
      ∀ s', Commanded 0x70756666#32 s' → NoErr s' → s'.host.in1 = t.out →
        ∃ t', Host.Core.run core 6 s' = .next t' ∧
          (e ≠ [] ∨ d = [] → t'.state = .done ∧ t'.out = e) ∧
          (e = [] → d ≠ [] → t'.state = .fault ∧ t'.err = errCode .eFmtBitlen ∧ t'.out = [])

/-- Rule R236, 10_state.md rule R37: a command sees nothing of what an earlier one left: from any two
states that accept it beside the same host, every run is the same. -/
def Obligations.CommandSeesOnlyItsInput : Prop :=
  ∀ (w : BitVec 32) (s s' : State) (n : Nat), Commanded w s → Commanded w s' → s.host = s'.host →
    Host.Core.run core (n + 1) s = Host.Core.run core (n + 1) s'

/-- 70_reset_and_hazards.md rule R289: every command ends, in DONE or FAULT, whatever the host answers. The
bound of 7 steps is the model's (notes/assumptions/1.md), the bound on the inputs that of
notes/assumptions/5.md. -/
def Obligations.EveryCommandEnds : Prop :=
  ∀ (w : BitVec 32) (s : State), Commanded w s → s.host.in1.length < 2 ^ 64 →
    s.host.in2.length < 2 ^ 64 →
    ∃ t, Host.Core.run core 7 s = .next t ∧ (t.state = .done ∨ t.state = .fault)

/-- 60_exceptions.md rule R263, 10_state.md rule R34, 46_commands.md rule R230: the host sees a complete
output or none. Every step of a state that meets `Delivered` keeps it: outside DONE `OUT` is empty, and in
DONE it is all of what was staged, handed over by COMMIT in one step or unchanged since (that `OBUF` is
left as it was after COMMIT is the model's choice, notes/assumptions/10.md). It holds after reset, so in
every run from there, beside any host. -/
def Obligations.NoPartialOutput : Prop :=
  (∀ s t : State, Delivered s → step s = .next t →
    Delivered t ∧ (t.state ≠ .done → t.out = []) ∧
    (t.state = .done →
      t.out = t.obuf ∧
      ((s.state = .done ∧ t.out = s.out) ∨
        (s.state = .busy ∧ s.phase = 8 ∧ t.out = s.obuf)))) ∧
  (∀ h : HostSide, Delivered (resetWith h)) ∧
  ∀ (h : HostSide) (n : Nat) (t : State), Host.Core.run core n (resetWith h) = .next t →
    (t.state ≠ .done → t.out = []) ∧ (t.state = .done → t.out = t.obuf)

/-- Rule R289, 41_tree_builder.md rule R140, 42_code_assigner.md rule R160, rule R162: every step of a
state that meets `EntryInv` keeps it, and ends neither in one of the model's own stuck states nor in a
`PHASE` without a meaning (notes/assumptions/6.md and 8.md say that these stops are the model's). It holds
after reset, so no run from there meets such a stop, whatever the host does. -/
def Obligations.NoRunGetsStuck : Prop :=
  (∀ s : State, EntryInv s →
    (∀ t, step s = .next t → EntryInv t) ∧
    (∀ f, step s ≠ .fault f) ∧
    (∀ p, step s ≠ .refused (.phaseNotStarted p)) ∧
    (∀ w p, step s ≠ .refused (.phaseOutsideCommand w p)) ∧
    (∀ m, step s ≠ .refused (.notModelled m))) ∧
  (∀ h : HostSide, EntryInv (resetWith h)) ∧
  ∀ (h : HostSide) (n : Nat),
    (∀ f, Host.Core.run core n (resetWith h) ≠ .fault f) ∧
    (∀ p, Host.Core.run core n (resetWith h) ≠ .refused (.phaseNotStarted p)) ∧
    (∀ w p, Host.Core.run core n (resetWith h) ≠ .refused (.phaseOutsideCommand w p)) ∧
    (∀ m, Host.Core.run core n (resetWith h) ≠ .refused (.notModelled m))

/-- Rule R289: no phase runs out of the bound on its loops, in any state. -/
def Obligations.EveryLoopEnds : Prop :=
  ∀ (i : Instr) (s : State), exec i s ≠ .fault .loopBound
end

