-- ==== Sys2Proof/Laws/Bits.lean ====
section
/-! SUPPORT. Bit sequences: the bits of a code and of a payload, most significant first (20_memory.md rule
R65, rule R66, 30_encoding.md rule R103). -/

namespace Sys2Proof.Machine

open Codec

/-! ### The bits of a code -/

theorem bits_length (v l : Nat) : (bits v l).length = l := by simp [bits]

/-- The code of length `l` of value `v` starts with the code of length `k` of value `v / 2^(l-k)`. -/
theorem bits_take {v l k : Nat} (h : k ≤ l) : (bits v l).take k = bits (v / 2 ^ (l - k)) k := by
  apply List.ext_getElem
  · simp [bits, h]
  · intro i h1 h2
    have hi : i < k := by simpa [bits] using h2
    simp only [bits, List.getElem_take, List.getElem_map, List.getElem_reverse, List.length_range,
      List.getElem_range, Nat.testBit_div_two_pow]
    congr 1
    omega

theorem bits_inj {v w l : Nat} (hv : v < 2 ^ l) (hw : w < 2 ^ l) (h : bits v l = bits w l) :
    v = w := by
  apply Nat.eq_of_testBit_eq
  intro i
  by_cases hi : i < l
  · have := congrArg (fun x : List Bool => x[l - 1 - i]?) h
    simp only [bits] at this
    rw [List.getElem?_eq_getElem (by simp; omega), List.getElem?_eq_getElem (by simp; omega)] at this
    simp only [List.getElem_map, List.getElem_reverse, List.length_range, List.getElem_range,
      Option.some.injEq] at this
    rwa [show l - 1 - (l - 1 - i) = i by omega] at this
  · rw [Nat.testBit_eq_false_of_lt (lt_of_lt_of_le hv (Nat.pow_le_pow_right (by omega) (by omega))),
      Nat.testBit_eq_false_of_lt (lt_of_lt_of_le hw (Nat.pow_le_pow_right (by omega) (by omega)))]

/-- A code is its bits but the last, and the last. -/
theorem bits_snoc (v l : Nat) (b : Bool) : bits (2 * v + b.toNat) (l + 1) = bits v l ++ [b] := by
  simp only [bits, List.range_succ_eq_map, List.reverse_cons, List.map_append, List.map_cons,
    List.map_nil, List.map_reverse, List.map_map]
  congr 1
  · congr 1
    apply List.map_congr_left
    intro i _
    simp only [Function.comp, Nat.succ_eq_add_one, Nat.testBit_add_one]
    congr 1
    cases b <;> simp; omega
  · cases b <;> simp [Nat.testBit_zero]

theorem bits_cons (v l : Nat) : bits v (l + 1) = v.testBit l :: bits v l := by
  simp [bits, List.range_succ]

/-- Zeros at the low end are zeros at the end of the bits. -/
theorem bits_shift (v l k : Nat) : bits (v * 2 ^ k) (l + k) = bits v l ++ List.replicate k false := by
  induction k with
  | zero => simp
  | succ k ih =>
    have e : v * 2 ^ (k + 1) = 2 * (v * 2 ^ k) + Bool.toNat false := by
      simp only [Nat.pow_succ, Bool.toNat_false]; ring
    rw [e, ← Nat.add_assoc, bits_snoc, ih, List.replicate_succ', List.append_assoc]

/-! ### The bits of a payload -/

theorem payloadBits_eq (p : List Byte) : payloadBits p = p.flatMap fun b => bits b.toNat 8 := by
  unfold payloadBits
  congr 1

@[simp] theorem payloadBits_nil : payloadBits [] = [] := rfl

@[simp] theorem payloadBits_cons (b : Byte) (p : List Byte) :
    payloadBits (b :: p) = bits b.toNat 8 ++ payloadBits p := by
  simp [payloadBits_eq]

@[simp] theorem payloadBits_append (p q : List Byte) :
    payloadBits (p ++ q) = payloadBits p ++ payloadBits q := by
  simp [payloadBits_eq]

@[simp] theorem payloadBits_length (p : List Byte) : (payloadBits p).length = 8 * p.length := by
  induction p with
  | nil => rfl
  | cons b p ih => simp [ih, bits_length]; omega

/-- `PayBit(P, k)` is bit `k` of the payload's bits. -/
theorem payBit_eq (p : List Byte) (k : Nat) : payBit p k = (payloadBits p)[k]? := by
  induction p generalizing k with
  | nil => simp [payBit]
  | cons b p ih =>
    rw [payloadBits_cons]
    by_cases hk : k < 8
    · rw [List.getElem?_append_left (by simpa [bits_length] using hk)]
      have h0 : k / 8 = 0 := by omega
      have h1 : k % 8 = k := by omega
      simp only [payBit, h0, h1, List.getElem?_cons_zero, bits, BitVec.getLsbD]
      rw [List.getElem?_eq_getElem (by simpa using hk)]
      simp
    · rw [List.getElem?_append_right (by simp [bits_length]; omega), bits_length, ← ih]
      have h0 : k / 8 = (k - 8) / 8 + 1 := by omega
      have h1 : k % 8 = (k - 8) % 8 := by omega
      simp only [payBit, h0, h1, List.getElem?_cons_succ]

/-- Two payloads with the same bits are the same. -/
theorem payloadBits_inj {p q : List Byte} (h : payloadBits p = payloadBits q) : p = q := by
  induction p generalizing q with
  | nil =>
    have := congrArg List.length h
    simp at this
    exact this.symm
  | cons b p ih =>
    cases q with
    | nil => simpa [bits_length] using congrArg List.length h
    | cons c q =>
      simp only [payloadBits_cons] at h
      obtain ⟨h1, h2⟩ := List.append_inj h (by simp [bits_length])
      rw [ih h2, BitVec.eq_of_toNat_eq (bits_inj b.isLt c.isLt h1)]

end Sys2Proof.Machine
end

