-- ==== Sys2Proof/Laws/State.lean ====
section
/-! SUPPORT. What each update of the state does to each field, one lemma a field, so that no later proof
unfolds a record update. -/

namespace Sys2Proof.Machine

/-! ### `raise` -/

@[simp] theorem raise_cmd (e : ErrCode) (s : State) : (raise e s).cmd = s.cmd := rfl
@[simp] theorem raise_state (e : ErrCode) (s : State) : (raise e s).state = .fault := rfl
@[simp] theorem raise_phase (e : ErrCode) (s : State) : (raise e s).phase = s.phase := rfl
@[simp] theorem raise_err (e : ErrCode) (s : State) : (raise e s).err = errCode e := rfl
@[simp] theorem raise_errclass (e : ErrCode) (s : State) : (raise e s).errclass = errClass e := rfl
@[simp] theorem raise_freq (e : ErrCode) (s : State) : (raise e s).freq = s.freq := rfl
@[simp] theorem raise_node (e : ErrCode) (s : State) : (raise e s).node = s.node := rfl
@[simp] theorem raise_pool (e : ErrCode) (s : State) : (raise e s).pool = s.pool := rfl
@[simp] theorem raise_nextId (e : ErrCode) (s : State) : (raise e s).nextId = s.nextId := rfl
@[simp] theorem raise_root (e : ErrCode) (s : State) : (raise e s).root = s.root := rfl
@[simp] theorem raise_code (e : ErrCode) (s : State) : (raise e s).code = s.code := rfl
@[simp] theorem raise_bitlen (e : ErrCode) (s : State) : (raise e s).bitlen = s.bitlen := rfl
@[simp] theorem raise_acc (e : ErrCode) (s : State) : (raise e s).acc = s.acc := rfl
@[simp] theorem raise_nb (e : ErrCode) (s : State) : (raise e s).nb = s.nb := rfl
@[simp] theorem raise_pay (e : ErrCode) (s : State) : (raise e s).pay = s.pay := rfl
@[simp] theorem raise_cursor (e : ErrCode) (s : State) : (raise e s).cursor = s.cursor := rfl
@[simp] theorem raise_walk (e : ErrCode) (s : State) : (raise e s).walk = s.walk := rfl
@[simp] theorem raise_hdrlen (e : ErrCode) (s : State) : (raise e s).hdrlen = s.hdrlen := rfl
@[simp] theorem raise_nrec (e : ErrCode) (s : State) : (raise e s).nrec = s.nrec := rfl
@[simp] theorem raise_recidx (e : ErrCode) (s : State) : (raise e s).recidx = s.recidx := rfl
@[simp] theorem raise_inPos (e : ErrCode) (s : State) : (raise e s).inPos = s.inPos := rfl
@[simp] theorem raise_inPass (e : ErrCode) (s : State) : (raise e s).inPass = s.inPass := rfl
@[simp] theorem raise_obuf (e : ErrCode) (s : State) : (raise e s).obuf = [] := rfl
@[simp] theorem raise_out (e : ErrCode) (s : State) : (raise e s).out = [] := rfl
@[simp] theorem raise_host (e : ErrCode) (s : State) : (raise e s).host = s.host := rfl

/-! ### `setPhase` -/

@[simp] theorem setPhase_cmd (p : BitVec 4) (s : State) : (setPhase p s).cmd = s.cmd := rfl
@[simp] theorem setPhase_state (p : BitVec 4) (s : State) : (setPhase p s).state = s.state := rfl
@[simp] theorem setPhase_phase (p : BitVec 4) (s : State) : (setPhase p s).phase = p := rfl
@[simp] theorem setPhase_err (p : BitVec 4) (s : State) : (setPhase p s).err = s.err := rfl
@[simp] theorem setPhase_errclass (p : BitVec 4) (s : State) : (setPhase p s).errclass = s.errclass := rfl
@[simp] theorem setPhase_freq (p : BitVec 4) (s : State) : (setPhase p s).freq = s.freq := rfl
@[simp] theorem setPhase_node (p : BitVec 4) (s : State) : (setPhase p s).node = s.node := rfl
@[simp] theorem setPhase_pool (p : BitVec 4) (s : State) : (setPhase p s).pool = s.pool := rfl
@[simp] theorem setPhase_nextId (p : BitVec 4) (s : State) : (setPhase p s).nextId = s.nextId := rfl
@[simp] theorem setPhase_root (p : BitVec 4) (s : State) : (setPhase p s).root = s.root := rfl
@[simp] theorem setPhase_code (p : BitVec 4) (s : State) : (setPhase p s).code = s.code := rfl
@[simp] theorem setPhase_bitlen (p : BitVec 4) (s : State) : (setPhase p s).bitlen = s.bitlen := rfl
@[simp] theorem setPhase_acc (p : BitVec 4) (s : State) : (setPhase p s).acc = s.acc := rfl
@[simp] theorem setPhase_nb (p : BitVec 4) (s : State) : (setPhase p s).nb = s.nb := rfl
@[simp] theorem setPhase_pay (p : BitVec 4) (s : State) : (setPhase p s).pay = s.pay := rfl
@[simp] theorem setPhase_cursor (p : BitVec 4) (s : State) : (setPhase p s).cursor = s.cursor := rfl
@[simp] theorem setPhase_walk (p : BitVec 4) (s : State) : (setPhase p s).walk = s.walk := rfl
@[simp] theorem setPhase_hdrlen (p : BitVec 4) (s : State) : (setPhase p s).hdrlen = s.hdrlen := rfl
@[simp] theorem setPhase_nrec (p : BitVec 4) (s : State) : (setPhase p s).nrec = s.nrec := rfl
@[simp] theorem setPhase_recidx (p : BitVec 4) (s : State) : (setPhase p s).recidx = s.recidx := rfl
@[simp] theorem setPhase_inPos (p : BitVec 4) (s : State) : (setPhase p s).inPos = s.inPos := rfl
@[simp] theorem setPhase_inPass (p : BitVec 4) (s : State) : (setPhase p s).inPass = s.inPass := rfl
@[simp] theorem setPhase_obuf (p : BitVec 4) (s : State) : (setPhase p s).obuf = s.obuf := rfl
@[simp] theorem setPhase_out (p : BitVec 4) (s : State) : (setPhase p s).out = s.out := rfl
@[simp] theorem setPhase_host (p : BitVec 4) (s : State) : (setPhase p s).host = s.host := rfl

/-! ### `emitSeq` -/

@[simp] theorem emitSeq_cmd (bs : List Byte) (s : State) : (emitSeq bs s).cmd = s.cmd := rfl
@[simp] theorem emitSeq_state (bs : List Byte) (s : State) : (emitSeq bs s).state = s.state := rfl
@[simp] theorem emitSeq_phase (bs : List Byte) (s : State) : (emitSeq bs s).phase = s.phase := rfl
@[simp] theorem emitSeq_err (bs : List Byte) (s : State) : (emitSeq bs s).err = s.err := rfl
@[simp] theorem emitSeq_errclass (bs : List Byte) (s : State) : (emitSeq bs s).errclass = s.errclass := rfl
@[simp] theorem emitSeq_freq (bs : List Byte) (s : State) : (emitSeq bs s).freq = s.freq := rfl
@[simp] theorem emitSeq_node (bs : List Byte) (s : State) : (emitSeq bs s).node = s.node := rfl
@[simp] theorem emitSeq_pool (bs : List Byte) (s : State) : (emitSeq bs s).pool = s.pool := rfl
@[simp] theorem emitSeq_nextId (bs : List Byte) (s : State) : (emitSeq bs s).nextId = s.nextId := rfl
@[simp] theorem emitSeq_root (bs : List Byte) (s : State) : (emitSeq bs s).root = s.root := rfl
@[simp] theorem emitSeq_code (bs : List Byte) (s : State) : (emitSeq bs s).code = s.code := rfl
@[simp] theorem emitSeq_bitlen (bs : List Byte) (s : State) : (emitSeq bs s).bitlen = s.bitlen := rfl
@[simp] theorem emitSeq_acc (bs : List Byte) (s : State) : (emitSeq bs s).acc = s.acc := rfl
@[simp] theorem emitSeq_nb (bs : List Byte) (s : State) : (emitSeq bs s).nb = s.nb := rfl
@[simp] theorem emitSeq_pay (bs : List Byte) (s : State) : (emitSeq bs s).pay = s.pay := rfl
@[simp] theorem emitSeq_cursor (bs : List Byte) (s : State) : (emitSeq bs s).cursor = s.cursor := rfl
@[simp] theorem emitSeq_walk (bs : List Byte) (s : State) : (emitSeq bs s).walk = s.walk := rfl
@[simp] theorem emitSeq_hdrlen (bs : List Byte) (s : State) : (emitSeq bs s).hdrlen = s.hdrlen := rfl
@[simp] theorem emitSeq_nrec (bs : List Byte) (s : State) : (emitSeq bs s).nrec = s.nrec := rfl
@[simp] theorem emitSeq_recidx (bs : List Byte) (s : State) : (emitSeq bs s).recidx = s.recidx := rfl
@[simp] theorem emitSeq_inPos (bs : List Byte) (s : State) : (emitSeq bs s).inPos = s.inPos := rfl
@[simp] theorem emitSeq_inPass (bs : List Byte) (s : State) : (emitSeq bs s).inPass = s.inPass := rfl
@[simp] theorem emitSeq_obuf (bs : List Byte) (s : State) : (emitSeq bs s).obuf = s.obuf ++ bs := rfl
@[simp] theorem emitSeq_out (bs : List Byte) (s : State) : (emitSeq bs s).out = s.out := rfl
@[simp] theorem emitSeq_host (bs : List Byte) (s : State) : (emitSeq bs s).host = s.host := rfl

/-! ### `setCode` -/

@[simp] theorem setCode_cmd (b : Byte) (v : BitVec 255) (l : BitVec 8) (s : State) : (setCode b v l s).cmd = s.cmd := rfl
@[simp] theorem setCode_state (b : Byte) (v : BitVec 255) (l : BitVec 8) (s : State) : (setCode b v l s).state = s.state := rfl
@[simp] theorem setCode_phase (b : Byte) (v : BitVec 255) (l : BitVec 8) (s : State) : (setCode b v l s).phase = s.phase := rfl
@[simp] theorem setCode_err (b : Byte) (v : BitVec 255) (l : BitVec 8) (s : State) : (setCode b v l s).err = s.err := rfl
@[simp] theorem setCode_errclass (b : Byte) (v : BitVec 255) (l : BitVec 8) (s : State) : (setCode b v l s).errclass = s.errclass := rfl
@[simp] theorem setCode_freq (b : Byte) (v : BitVec 255) (l : BitVec 8) (s : State) : (setCode b v l s).freq = s.freq := rfl
@[simp] theorem setCode_node (b : Byte) (v : BitVec 255) (l : BitVec 8) (s : State) : (setCode b v l s).node = s.node := rfl
@[simp] theorem setCode_pool (b : Byte) (v : BitVec 255) (l : BitVec 8) (s : State) : (setCode b v l s).pool = s.pool := rfl
@[simp] theorem setCode_nextId (b : Byte) (v : BitVec 255) (l : BitVec 8) (s : State) : (setCode b v l s).nextId = s.nextId := rfl
@[simp] theorem setCode_root (b : Byte) (v : BitVec 255) (l : BitVec 8) (s : State) : (setCode b v l s).root = s.root := rfl
@[simp] theorem setCode_code (b : Byte) (v : BitVec 255) (l : BitVec 8) (s : State) : (setCode b v l s).code = setEntry s.code b { val := v, len := l } := rfl
@[simp] theorem setCode_bitlen (b : Byte) (v : BitVec 255) (l : BitVec 8) (s : State) : (setCode b v l s).bitlen = s.bitlen := rfl
@[simp] theorem setCode_acc (b : Byte) (v : BitVec 255) (l : BitVec 8) (s : State) : (setCode b v l s).acc = s.acc := rfl
@[simp] theorem setCode_nb (b : Byte) (v : BitVec 255) (l : BitVec 8) (s : State) : (setCode b v l s).nb = s.nb := rfl
@[simp] theorem setCode_pay (b : Byte) (v : BitVec 255) (l : BitVec 8) (s : State) : (setCode b v l s).pay = s.pay := rfl
@[simp] theorem setCode_cursor (b : Byte) (v : BitVec 255) (l : BitVec 8) (s : State) : (setCode b v l s).cursor = s.cursor := rfl
@[simp] theorem setCode_walk (b : Byte) (v : BitVec 255) (l : BitVec 8) (s : State) : (setCode b v l s).walk = s.walk := rfl
@[simp] theorem setCode_hdrlen (b : Byte) (v : BitVec 255) (l : BitVec 8) (s : State) : (setCode b v l s).hdrlen = s.hdrlen := rfl
@[simp] theorem setCode_nrec (b : Byte) (v : BitVec 255) (l : BitVec 8) (s : State) : (setCode b v l s).nrec = s.nrec := rfl
@[simp] theorem setCode_recidx (b : Byte) (v : BitVec 255) (l : BitVec 8) (s : State) : (setCode b v l s).recidx = s.recidx := rfl
@[simp] theorem setCode_inPos (b : Byte) (v : BitVec 255) (l : BitVec 8) (s : State) : (setCode b v l s).inPos = s.inPos := rfl
@[simp] theorem setCode_inPass (b : Byte) (v : BitVec 255) (l : BitVec 8) (s : State) : (setCode b v l s).inPass = s.inPass := rfl
@[simp] theorem setCode_obuf (b : Byte) (v : BitVec 255) (l : BitVec 8) (s : State) : (setCode b v l s).obuf = s.obuf := rfl
@[simp] theorem setCode_out (b : Byte) (v : BitVec 255) (l : BitVec 8) (s : State) : (setCode b v l s).out = s.out := rfl
@[simp] theorem setCode_host (b : Byte) (v : BitVec 255) (l : BitVec 8) (s : State) : (setCode b v l s).host = s.host := rfl

/-! ### `addLeaf` -/

@[simp] theorem addLeaf_cmd (s : State) (b : Byte) : (addLeaf s b).cmd = s.cmd := rfl
@[simp] theorem addLeaf_state (s : State) (b : Byte) : (addLeaf s b).state = s.state := rfl
@[simp] theorem addLeaf_phase (s : State) (b : Byte) : (addLeaf s b).phase = s.phase := rfl
@[simp] theorem addLeaf_err (s : State) (b : Byte) : (addLeaf s b).err = s.err := rfl
@[simp] theorem addLeaf_errclass (s : State) (b : Byte) : (addLeaf s b).errclass = s.errclass := rfl
@[simp] theorem addLeaf_freq (s : State) (b : Byte) : (addLeaf s b).freq = s.freq := rfl
@[simp] theorem addLeaf_node (s : State) (b : Byte) : (addLeaf s b).node = setNode s.node (leafId b) (leafNode b (entry s.freq b)) := rfl
@[simp] theorem addLeaf_pool (s : State) (b : Byte) : (addLeaf s b).pool = poolInsert (leafId b) s.pool := rfl
@[simp] theorem addLeaf_nextId (s : State) (b : Byte) : (addLeaf s b).nextId = s.nextId := rfl
@[simp] theorem addLeaf_root (s : State) (b : Byte) : (addLeaf s b).root = s.root := rfl
@[simp] theorem addLeaf_code (s : State) (b : Byte) : (addLeaf s b).code = s.code := rfl
@[simp] theorem addLeaf_bitlen (s : State) (b : Byte) : (addLeaf s b).bitlen = s.bitlen := rfl
@[simp] theorem addLeaf_acc (s : State) (b : Byte) : (addLeaf s b).acc = s.acc := rfl
@[simp] theorem addLeaf_nb (s : State) (b : Byte) : (addLeaf s b).nb = s.nb := rfl
@[simp] theorem addLeaf_pay (s : State) (b : Byte) : (addLeaf s b).pay = s.pay := rfl
@[simp] theorem addLeaf_cursor (s : State) (b : Byte) : (addLeaf s b).cursor = s.cursor := rfl
@[simp] theorem addLeaf_walk (s : State) (b : Byte) : (addLeaf s b).walk = s.walk := rfl
@[simp] theorem addLeaf_hdrlen (s : State) (b : Byte) : (addLeaf s b).hdrlen = s.hdrlen := rfl
@[simp] theorem addLeaf_nrec (s : State) (b : Byte) : (addLeaf s b).nrec = s.nrec := rfl
@[simp] theorem addLeaf_recidx (s : State) (b : Byte) : (addLeaf s b).recidx = s.recidx := rfl
@[simp] theorem addLeaf_inPos (s : State) (b : Byte) : (addLeaf s b).inPos = s.inPos := rfl
@[simp] theorem addLeaf_inPass (s : State) (b : Byte) : (addLeaf s b).inPass = s.inPass := rfl
@[simp] theorem addLeaf_obuf (s : State) (b : Byte) : (addLeaf s b).obuf = s.obuf := rfl
@[simp] theorem addLeaf_out (s : State) (b : Byte) : (addLeaf s b).out = s.out := rfl
@[simp] theorem addLeaf_host (s : State) (b : Byte) : (addLeaf s b).host = s.host := rfl

/-! ### `withActions` -/

@[simp] theorem withActions_cmd (acts : List HostAction) (s : State) : (withActions acts s).cmd = s.cmd := rfl
@[simp] theorem withActions_state (acts : List HostAction) (s : State) : (withActions acts s).state = s.state := rfl
@[simp] theorem withActions_phase (acts : List HostAction) (s : State) : (withActions acts s).phase = s.phase := rfl
@[simp] theorem withActions_err (acts : List HostAction) (s : State) : (withActions acts s).err = s.err := rfl
@[simp] theorem withActions_errclass (acts : List HostAction) (s : State) : (withActions acts s).errclass = s.errclass := rfl
@[simp] theorem withActions_freq (acts : List HostAction) (s : State) : (withActions acts s).freq = s.freq := rfl
@[simp] theorem withActions_node (acts : List HostAction) (s : State) : (withActions acts s).node = s.node := rfl
@[simp] theorem withActions_pool (acts : List HostAction) (s : State) : (withActions acts s).pool = s.pool := rfl
@[simp] theorem withActions_nextId (acts : List HostAction) (s : State) : (withActions acts s).nextId = s.nextId := rfl
@[simp] theorem withActions_root (acts : List HostAction) (s : State) : (withActions acts s).root = s.root := rfl
@[simp] theorem withActions_code (acts : List HostAction) (s : State) : (withActions acts s).code = s.code := rfl
@[simp] theorem withActions_bitlen (acts : List HostAction) (s : State) : (withActions acts s).bitlen = s.bitlen := rfl
@[simp] theorem withActions_acc (acts : List HostAction) (s : State) : (withActions acts s).acc = s.acc := rfl
@[simp] theorem withActions_nb (acts : List HostAction) (s : State) : (withActions acts s).nb = s.nb := rfl
@[simp] theorem withActions_pay (acts : List HostAction) (s : State) : (withActions acts s).pay = s.pay := rfl
@[simp] theorem withActions_cursor (acts : List HostAction) (s : State) : (withActions acts s).cursor = s.cursor := rfl
@[simp] theorem withActions_walk (acts : List HostAction) (s : State) : (withActions acts s).walk = s.walk := rfl
@[simp] theorem withActions_hdrlen (acts : List HostAction) (s : State) : (withActions acts s).hdrlen = s.hdrlen := rfl
@[simp] theorem withActions_nrec (acts : List HostAction) (s : State) : (withActions acts s).nrec = s.nrec := rfl
@[simp] theorem withActions_recidx (acts : List HostAction) (s : State) : (withActions acts s).recidx = s.recidx := rfl
@[simp] theorem withActions_inPos (acts : List HostAction) (s : State) : (withActions acts s).inPos = s.inPos := rfl
@[simp] theorem withActions_inPass (acts : List HostAction) (s : State) : (withActions acts s).inPass = s.inPass := rfl
@[simp] theorem withActions_obuf (acts : List HostAction) (s : State) : (withActions acts s).obuf = s.obuf := rfl
@[simp] theorem withActions_out (acts : List HostAction) (s : State) : (withActions acts s).out = s.out := rfl
@[simp] theorem withActions_host (acts : List HostAction) (s : State) : (withActions acts s).host = { s.host with actions := acts } := rfl

/-! ### `answered` -/

@[simp] theorem answered_cmd (n : Nat) (s : State) : (answered n s).cmd = s.cmd := rfl
@[simp] theorem answered_state (n : Nat) (s : State) : (answered n s).state = s.state := rfl
@[simp] theorem answered_phase (n : Nat) (s : State) : (answered n s).phase = s.phase := rfl
@[simp] theorem answered_err (n : Nat) (s : State) : (answered n s).err = s.err := rfl
@[simp] theorem answered_errclass (n : Nat) (s : State) : (answered n s).errclass = s.errclass := rfl
@[simp] theorem answered_freq (n : Nat) (s : State) : (answered n s).freq = s.freq := rfl
@[simp] theorem answered_node (n : Nat) (s : State) : (answered n s).node = s.node := rfl
@[simp] theorem answered_pool (n : Nat) (s : State) : (answered n s).pool = s.pool := rfl
@[simp] theorem answered_nextId (n : Nat) (s : State) : (answered n s).nextId = s.nextId := rfl
@[simp] theorem answered_root (n : Nat) (s : State) : (answered n s).root = s.root := rfl
@[simp] theorem answered_code (n : Nat) (s : State) : (answered n s).code = s.code := rfl
@[simp] theorem answered_bitlen (n : Nat) (s : State) : (answered n s).bitlen = s.bitlen := rfl
@[simp] theorem answered_acc (n : Nat) (s : State) : (answered n s).acc = s.acc := rfl
@[simp] theorem answered_nb (n : Nat) (s : State) : (answered n s).nb = s.nb := rfl
@[simp] theorem answered_pay (n : Nat) (s : State) : (answered n s).pay = s.pay := rfl
@[simp] theorem answered_cursor (n : Nat) (s : State) : (answered n s).cursor = s.cursor := rfl
@[simp] theorem answered_walk (n : Nat) (s : State) : (answered n s).walk = s.walk := rfl
@[simp] theorem answered_hdrlen (n : Nat) (s : State) : (answered n s).hdrlen = s.hdrlen := rfl
@[simp] theorem answered_nrec (n : Nat) (s : State) : (answered n s).nrec = s.nrec := rfl
@[simp] theorem answered_recidx (n : Nat) (s : State) : (answered n s).recidx = s.recidx := rfl
@[simp] theorem answered_inPos (n : Nat) (s : State) : (answered n s).inPos = s.inPos := rfl
@[simp] theorem answered_inPass (n : Nat) (s : State) : (answered n s).inPass = s.inPass := rfl
@[simp] theorem answered_obuf (n : Nat) (s : State) : (answered n s).obuf = s.obuf := rfl
@[simp] theorem answered_out (n : Nat) (s : State) : (answered n s).out = s.out := rfl
@[simp] theorem answered_host (n : Nat) (s : State) : (answered n s).host = { s.host with answers := s.host.answers.drop n } := rfl

/-! ### `hostReadsStatus` -/

@[simp] theorem hostReadsStatus_cmd (s : State) : (hostReadsStatus s).cmd = s.cmd := rfl
@[simp] theorem hostReadsStatus_state (s : State) : (hostReadsStatus s).state = s.state := rfl
@[simp] theorem hostReadsStatus_phase (s : State) : (hostReadsStatus s).phase = s.phase := rfl
@[simp] theorem hostReadsStatus_err (s : State) : (hostReadsStatus s).err = s.err := rfl
@[simp] theorem hostReadsStatus_errclass (s : State) : (hostReadsStatus s).errclass = s.errclass := rfl
@[simp] theorem hostReadsStatus_freq (s : State) : (hostReadsStatus s).freq = s.freq := rfl
@[simp] theorem hostReadsStatus_node (s : State) : (hostReadsStatus s).node = s.node := rfl
@[simp] theorem hostReadsStatus_pool (s : State) : (hostReadsStatus s).pool = s.pool := rfl
@[simp] theorem hostReadsStatus_nextId (s : State) : (hostReadsStatus s).nextId = s.nextId := rfl
@[simp] theorem hostReadsStatus_root (s : State) : (hostReadsStatus s).root = s.root := rfl
@[simp] theorem hostReadsStatus_code (s : State) : (hostReadsStatus s).code = s.code := rfl
@[simp] theorem hostReadsStatus_bitlen (s : State) : (hostReadsStatus s).bitlen = s.bitlen := rfl
@[simp] theorem hostReadsStatus_acc (s : State) : (hostReadsStatus s).acc = s.acc := rfl
@[simp] theorem hostReadsStatus_nb (s : State) : (hostReadsStatus s).nb = s.nb := rfl
@[simp] theorem hostReadsStatus_pay (s : State) : (hostReadsStatus s).pay = s.pay := rfl
@[simp] theorem hostReadsStatus_cursor (s : State) : (hostReadsStatus s).cursor = s.cursor := rfl
@[simp] theorem hostReadsStatus_walk (s : State) : (hostReadsStatus s).walk = s.walk := rfl
@[simp] theorem hostReadsStatus_hdrlen (s : State) : (hostReadsStatus s).hdrlen = s.hdrlen := rfl
@[simp] theorem hostReadsStatus_nrec (s : State) : (hostReadsStatus s).nrec = s.nrec := rfl
@[simp] theorem hostReadsStatus_recidx (s : State) : (hostReadsStatus s).recidx = s.recidx := rfl
@[simp] theorem hostReadsStatus_inPos (s : State) : (hostReadsStatus s).inPos = s.inPos := rfl
@[simp] theorem hostReadsStatus_inPass (s : State) : (hostReadsStatus s).inPass = s.inPass := rfl
@[simp] theorem hostReadsStatus_obuf (s : State) : (hostReadsStatus s).obuf = s.obuf := rfl
@[simp] theorem hostReadsStatus_out (s : State) : (hostReadsStatus s).out = s.out := rfl
@[simp] theorem hostReadsStatus_host (s : State) : (hostReadsStatus s).host = { s.host with statusRead := some (statusWord s) } := rfl

/-! ### `startCommand` -/

@[simp] theorem startCommand_cmd (word : BitVec 32) (s : State) : (startCommand word s).cmd = word := rfl
@[simp] theorem startCommand_state (word : BitVec 32) (s : State) : (startCommand word s).state = .busy := rfl
@[simp] theorem startCommand_phase (word : BitVec 32) (s : State) : (startCommand word s).phase = 0 := rfl
@[simp] theorem startCommand_err (word : BitVec 32) (s : State) : (startCommand word s).err = 0 := rfl
@[simp] theorem startCommand_errclass (word : BitVec 32) (s : State) : (startCommand word s).errclass = 0 := rfl
@[simp] theorem startCommand_freq (word : BitVec 32) (s : State) : (startCommand word s).freq = State.reset.freq := rfl
@[simp] theorem startCommand_node (word : BitVec 32) (s : State) : (startCommand word s).node = State.reset.node := rfl
@[simp] theorem startCommand_pool (word : BitVec 32) (s : State) : (startCommand word s).pool = State.reset.pool := rfl
@[simp] theorem startCommand_nextId (word : BitVec 32) (s : State) : (startCommand word s).nextId = State.reset.nextId := rfl
@[simp] theorem startCommand_root (word : BitVec 32) (s : State) : (startCommand word s).root = State.reset.root := rfl
@[simp] theorem startCommand_code (word : BitVec 32) (s : State) : (startCommand word s).code = State.reset.code := rfl
@[simp] theorem startCommand_bitlen (word : BitVec 32) (s : State) : (startCommand word s).bitlen = State.reset.bitlen := rfl
@[simp] theorem startCommand_acc (word : BitVec 32) (s : State) : (startCommand word s).acc = State.reset.acc := rfl
@[simp] theorem startCommand_nb (word : BitVec 32) (s : State) : (startCommand word s).nb = State.reset.nb := rfl
@[simp] theorem startCommand_pay (word : BitVec 32) (s : State) : (startCommand word s).pay = State.reset.pay := rfl
@[simp] theorem startCommand_cursor (word : BitVec 32) (s : State) : (startCommand word s).cursor = State.reset.cursor := rfl
@[simp] theorem startCommand_walk (word : BitVec 32) (s : State) : (startCommand word s).walk = State.reset.walk := rfl
@[simp] theorem startCommand_hdrlen (word : BitVec 32) (s : State) : (startCommand word s).hdrlen = State.reset.hdrlen := rfl
@[simp] theorem startCommand_nrec (word : BitVec 32) (s : State) : (startCommand word s).nrec = State.reset.nrec := rfl
@[simp] theorem startCommand_recidx (word : BitVec 32) (s : State) : (startCommand word s).recidx = State.reset.recidx := rfl
@[simp] theorem startCommand_inPos (word : BitVec 32) (s : State) : (startCommand word s).inPos = State.reset.inPos := rfl
@[simp] theorem startCommand_inPass (word : BitVec 32) (s : State) : (startCommand word s).inPass = State.reset.inPass := rfl
@[simp] theorem startCommand_obuf (word : BitVec 32) (s : State) : (startCommand word s).obuf = State.reset.obuf := rfl
@[simp] theorem startCommand_out (word : BitVec 32) (s : State) : (startCommand word s).out = State.reset.out := rfl
@[simp] theorem startCommand_host (word : BitVec 32) (s : State) : (startCommand word s).host = s.host := rfl

/-! ### `clear` -/

@[simp] theorem clear_cmd (s : State) : (clear s).cmd = s.cmd := rfl
@[simp] theorem clear_state (s : State) : (clear s).state = s.state := rfl
@[simp] theorem clear_phase (s : State) : (clear s).phase = s.phase := rfl
@[simp] theorem clear_err (s : State) : (clear s).err = s.err := rfl
@[simp] theorem clear_errclass (s : State) : (clear s).errclass = s.errclass := rfl
@[simp] theorem clear_freq (s : State) : (clear s).freq = State.reset.freq := rfl
@[simp] theorem clear_node (s : State) : (clear s).node = State.reset.node := rfl
@[simp] theorem clear_pool (s : State) : (clear s).pool = State.reset.pool := rfl
@[simp] theorem clear_nextId (s : State) : (clear s).nextId = State.reset.nextId := rfl
@[simp] theorem clear_root (s : State) : (clear s).root = State.reset.root := rfl
@[simp] theorem clear_code (s : State) : (clear s).code = State.reset.code := rfl
@[simp] theorem clear_bitlen (s : State) : (clear s).bitlen = State.reset.bitlen := rfl
@[simp] theorem clear_acc (s : State) : (clear s).acc = State.reset.acc := rfl
@[simp] theorem clear_nb (s : State) : (clear s).nb = State.reset.nb := rfl
@[simp] theorem clear_pay (s : State) : (clear s).pay = State.reset.pay := rfl
@[simp] theorem clear_cursor (s : State) : (clear s).cursor = State.reset.cursor := rfl
@[simp] theorem clear_walk (s : State) : (clear s).walk = State.reset.walk := rfl
@[simp] theorem clear_hdrlen (s : State) : (clear s).hdrlen = State.reset.hdrlen := rfl
@[simp] theorem clear_nrec (s : State) : (clear s).nrec = State.reset.nrec := rfl
@[simp] theorem clear_recidx (s : State) : (clear s).recidx = State.reset.recidx := rfl
@[simp] theorem clear_inPos (s : State) : (clear s).inPos = State.reset.inPos := rfl
@[simp] theorem clear_inPass (s : State) : (clear s).inPass = State.reset.inPass := rfl
@[simp] theorem clear_obuf (s : State) : (clear s).obuf = State.reset.obuf := rfl
@[simp] theorem clear_out (s : State) : (clear s).out = State.reset.out := rfl
@[simp] theorem clear_host (s : State) : (clear s).host = s.host := rfl

/-! ### `State.reset` (10_state.md rule R38) -/

@[simp] theorem reset_cmd : State.reset.cmd = 0 := rfl
@[simp] theorem reset_state : State.reset.state = .idle := rfl
@[simp] theorem reset_phase : State.reset.phase = 0 := rfl
@[simp] theorem reset_err : State.reset.err = 0 := rfl
@[simp] theorem reset_errclass : State.reset.errclass = 0 := rfl
@[simp] theorem reset_freq : State.reset.freq = Vector.replicate 256 0 := rfl
@[simp] theorem reset_node : State.reset.node = Vector.replicate 511 Node.zero := rfl
@[simp] theorem reset_pool : State.reset.pool = [] := rfl
@[simp] theorem reset_nextId : State.reset.nextId = 256 := rfl
@[simp] theorem reset_root : State.reset.root = .none := rfl
@[simp] theorem reset_code : State.reset.code = Vector.replicate 256 Code.none := rfl
@[simp] theorem reset_bitlen : State.reset.bitlen = 0 := rfl
@[simp] theorem reset_acc : State.reset.acc = 0 := rfl
@[simp] theorem reset_nb : State.reset.nb = 0 := rfl
@[simp] theorem reset_pay : State.reset.pay = [] := rfl
@[simp] theorem reset_cursor : State.reset.cursor = 0 := rfl
@[simp] theorem reset_walk : State.reset.walk = 0 := rfl
@[simp] theorem reset_hdrlen : State.reset.hdrlen = 0 := rfl
@[simp] theorem reset_nrec : State.reset.nrec = 0 := rfl
@[simp] theorem reset_recidx : State.reset.recidx = 0 := rfl
@[simp] theorem reset_inPos : State.reset.inPos = 0 := rfl
@[simp] theorem reset_inPass : State.reset.inPass = .one := rfl
@[simp] theorem reset_obuf : State.reset.obuf = [] := rfl
@[simp] theorem reset_out : State.reset.out = [] := rfl
@[simp] theorem reset_host : State.reset.host = HostSide.quiet := rfl

/-! ### `resetWith` -/

@[simp] theorem resetWith_cmd (h : HostSide) : (resetWith h).cmd = 0 := rfl
@[simp] theorem resetWith_state (h : HostSide) : (resetWith h).state = .idle := rfl
@[simp] theorem resetWith_phase (h : HostSide) : (resetWith h).phase = 0 := rfl
@[simp] theorem resetWith_err (h : HostSide) : (resetWith h).err = 0 := rfl
@[simp] theorem resetWith_errclass (h : HostSide) : (resetWith h).errclass = 0 := rfl
@[simp] theorem resetWith_freq (h : HostSide) : (resetWith h).freq = Vector.replicate 256 0 := rfl
@[simp] theorem resetWith_node (h : HostSide) : (resetWith h).node = Vector.replicate 511 Node.zero := rfl
@[simp] theorem resetWith_pool (h : HostSide) : (resetWith h).pool = [] := rfl
@[simp] theorem resetWith_nextId (h : HostSide) : (resetWith h).nextId = 256 := rfl
@[simp] theorem resetWith_root (h : HostSide) : (resetWith h).root = .none := rfl
@[simp] theorem resetWith_code (h : HostSide) : (resetWith h).code = Vector.replicate 256 Code.none := rfl
@[simp] theorem resetWith_bitlen (h : HostSide) : (resetWith h).bitlen = 0 := rfl
@[simp] theorem resetWith_acc (h : HostSide) : (resetWith h).acc = 0 := rfl
@[simp] theorem resetWith_nb (h : HostSide) : (resetWith h).nb = 0 := rfl
@[simp] theorem resetWith_pay (h : HostSide) : (resetWith h).pay = [] := rfl
@[simp] theorem resetWith_cursor (h : HostSide) : (resetWith h).cursor = 0 := rfl
@[simp] theorem resetWith_walk (h : HostSide) : (resetWith h).walk = 0 := rfl
@[simp] theorem resetWith_hdrlen (h : HostSide) : (resetWith h).hdrlen = 0 := rfl
@[simp] theorem resetWith_nrec (h : HostSide) : (resetWith h).nrec = 0 := rfl
@[simp] theorem resetWith_recidx (h : HostSide) : (resetWith h).recidx = 0 := rfl
@[simp] theorem resetWith_inPos (h : HostSide) : (resetWith h).inPos = 0 := rfl
@[simp] theorem resetWith_inPass (h : HostSide) : (resetWith h).inPass = .one := rfl
@[simp] theorem resetWith_obuf (h : HostSide) : (resetWith h).obuf = [] := rfl
@[simp] theorem resetWith_out (h : HostSide) : (resetWith h).out = [] := rfl
@[simp] theorem resetWith_host (h : HostSide) : (resetWith h).host = h := rfl

end Sys2Proof.Machine
end

