-- ==== Sys2Proof/Laws/Loops.lean ====
section
/-! SUPPORT. How a piece of work can end, said once: what `bind`, `iterate` and `outcome` give. -/

namespace Sys2Proof.Machine

/-- The end of a piece of work meets `D` where it is done and `R` where it raised a fault of CORE. -/
def Ended.Sat (D : State → Prop) (R : ErrCode → State → Prop) : Ended → Prop
  | .done s => D s
  | .raised e s => R e s
  | .stuck _ => True
  | .refused _ => True

/-- The end of a piece of work is CORE's own, done or a fault, but for an input the model cannot count. -/
def Ended.Own (long : Prop) : Ended → Prop
  | .done _ => True
  | .raised _ _ => True
  | .stuck _ => False
  | .refused r => r = .inputBeyondCapacity ∧ long

@[simp] theorem bind_done (s : State) (k : State → Ended) : (Ended.done s).bind k = k s := rfl

@[simp] theorem bind_raised (e : ErrCode) (s : State) (k : State → Ended) :
    (Ended.raised e s).bind k = .raised e s := rfl

@[simp] theorem bind_stuck (f : Fault) (k : State → Ended) : (Ended.stuck f).bind k = .stuck f := rfl

@[simp] theorem bind_refused (r : Refusal) (k : State → Ended) :
    (Ended.refused r).bind k = .refused r := rfl

@[simp] theorem outcome_done (s : State) : (Ended.done s).outcome = .next s := rfl

@[simp] theorem outcome_raised (e : ErrCode) (s : State) :
    (Ended.raised e s).outcome = .next (raise e s) := rfl

@[simp] theorem outcome_stuck (f : Fault) : (Ended.stuck f).outcome = .fault f := rfl

@[simp] theorem outcome_refused (r : Refusal) : (Ended.refused r).outcome = .refused r := rfl

theorem Ended.Sat.mono {D D' : State → Prop} {R R' : ErrCode → State → Prop} {e : Ended}
    (h : e.Sat D R) (hD : ∀ s, D s → D' s) (hR : ∀ c s, R c s → R' c s) : e.Sat D' R' := by
  cases e <;> simp_all [Ended.Sat]

theorem bind_sat {D M : State → Prop} {R : ErrCode → State → Prop} {e : Ended}
    {k : State → Ended} (h : e.Sat M R) (hk : ∀ s, M s → (k s).Sat D R) : (e.bind k).Sat D R := by
  cases e <;> simp_all [Ended.Sat]

/-- What a next state of a phase is: the state the work ended in, or that state with the fault taken. -/
theorem outcome_next {D : State → Prop} {R : ErrCode → State → Prop} {e : Ended} {t : State}
    (h : e.Sat D R) (ht : e.outcome = .next t) : D t ∨ ∃ c s, R c s ∧ t = raise c s := by
  cases e with
  | done s => left; simp_all [Ended.Sat]
  | raised c s => right; exact ⟨c, s, h, by simpa using ht.symm⟩
  | stuck f => simp at ht
  | refused r => simp at ht

/-- An invariant of a loop's body carries to the loop's end. -/
theorem iterate_sat {body : State → Iter} {I D : State → Prop} {R : ErrCode → State → Prop}
    (again : ∀ s s', I s → body s = .again s' → I s')
    (leave : ∀ s e, I s → body s = .leave e → e.Sat D R) :
    ∀ n s, I s → (iterate body n s).Sat D R := by
  intro n
  induction n with
  | zero => intro s _; trivial
  | succ n ih =>
    intro s hs
    cases h : body s with
    | again s' => simpa [iterate, h] using ih s' (again s s' hs h)
    | leave e => simpa [iterate, h] using leave s e hs h

/-- A loop whose measure falls at every iteration leaves by its body, in a state the invariant holds
in, and not by its bound. -/
theorem iterate_leaves {body : State → Iter} {I : State → Prop} (m : State → Nat)
    (again : ∀ s s', I s → body s = .again s' → I s' ∧ m s' < m s) :
    ∀ n s, I s → m s < n → ∃ s' e, I s' ∧ body s' = .leave e ∧ iterate body n s = e := by
  intro n
  induction n with
  | zero => intro s _ h; omega
  | succ n ih =>
    intro s hs hm
    cases h : body s with
    | again s' =>
      obtain ⟨hs', hm'⟩ := again s s' hs h
      obtain ⟨u, e, hu, hb, he⟩ := ih s' hs' (by omega)
      exact ⟨u, e, hu, hb, by simpa [iterate, h] using he⟩
    | leave e => exact ⟨s, e, hs, h, by simp [iterate, h]⟩

theorem iterate_again {body : State → Iter} {n : Nat} {s s' : State} (h : body s = .again s') :
    iterate body (n + 1) s = iterate body n s' := by simp [iterate, h]

theorem iterate_leave {body : State → Iter} {n : Nat} {s : State} {e : Ended}
    (h : body s = .leave e) : iterate body (n + 1) s = e := by simp [iterate, h]

end Sys2Proof.Machine
end

