-- ==== Sys2Proof/Laws/Shape.lean ====
section
/-! SUPPORT. The shape of a tree in the node table: what ASSIGN and UNPACK read of it
(42_code_assigner.md rule R161, 45_bit_unpacker.md rule R211). -/

namespace Sys2Proof.Machine

open Codec

/-- The node table has the shape of a tree at an id: its leaves' bytes and its branches, whatever `freq`
and `minb` hold. -/
def Shaped (t : Vector Node 511) : NodeId → Tree → Prop
  | i, .leaf b _ => (nodeAt t i).leaf = true ∧ (nodeAt t i).byte = b
  | i, .internal l r _ _ =>
    (nodeAt t i).leaf = false ∧ Shaped t (nodeAt t i).left l ∧ Shaped t (nodeAt t i).right r

theorem represents_shaped {t : Vector Node 511} {i : NodeId} {tr : Tree} (h : Represents t i tr) :
    Shaped t i tr := by
  induction tr generalizing i with
  | leaf b f => exact ⟨h.1, h.2.1⟩
  | internal l r f m ihl ihr => exact ⟨h.1, ihl h.2.2.2.1, ihr h.2.2.2.2⟩

end Sys2Proof.Machine
end

