-- ==== Sys2Proof/Laws/Tables.lean ====
section
/-! SUPPORT. The tables: a read after a write, the present bytes, the pool as a rising list, and the
selection of the least element. -/

namespace Sys2Proof.Machine

/-! ### The 256-entry tables -/

@[simp] theorem entry_setEntry_same {α : Type} (t : Vector α 256) (b : Byte) (v : α) :
    entry (setEntry t b v) b = v := by
  simp [entry, setEntry]

theorem entry_setEntry_other {α : Type} (t : Vector α 256) (b c : Byte) (v : α) (h : c ≠ b) :
    entry (setEntry t b v) c = entry t c := by
  have : b.toNat ≠ c.toNat := fun e => h (BitVec.eq_of_toNat_eq e.symm)
  simp [entry, setEntry, this]

theorem entry_setEntry {α : Type} (t : Vector α 256) (b c : Byte) (v : α) :
    entry (setEntry t b v) c = if c = b then v else entry t c := by
  split
  · simp_all
  · exact entry_setEntry_other t b c v ‹_›

@[simp] theorem entry_replicate {α : Type} (v : α) (b : Byte) :
    entry (Vector.replicate 256 v) b = v := by
  simp [entry]

/-- Two tables with the same entries are the same. -/
theorem table_ext {α : Type} {t u : Vector α 256} (h : ∀ b, entry t b = entry u b) : t = u := by
  apply Vector.ext
  intro i hi
  have := h (BitVec.ofNat 8 i)
  simpa [entry, Nat.mod_eq_of_lt hi] using this

/-! ### `NODE` -/

@[simp] theorem nodeAt_setNode_same (t : Vector Node 511) (i : NodeId) (n : Node) :
    nodeAt (setNode t i n) i = n := by
  simp [nodeAt, setNode]

theorem nodeAt_setNode_other (t : Vector Node 511) (i j : NodeId) (n : Node) (h : j ≠ i) :
    nodeAt (setNode t i n) j = nodeAt t j := by
  have : i.val ≠ j.val := fun e => h (Fin.ext e.symm)
  simp [nodeAt, setNode, this]

theorem nodeAt_setNode (t : Vector Node 511) (i j : NodeId) (n : Node) :
    nodeAt (setNode t i n) j = if j = i then n else nodeAt t j := by
  split
  · simp_all
  · exact nodeAt_setNode_other t i j n ‹_›

@[simp] theorem leafId_val (b : Byte) : (leafId b).val = b.toNat := rfl

theorem leafId_inj {a b : Byte} (h : leafId a = leafId b) : a = b :=
  BitVec.eq_of_toNat_eq (by simpa using congrArg (fun i : NodeId => i.val) h)

/-! ### The byte values -/

theorem allBytes_length : allBytes.length = 256 := by simp [allBytes, Config.nsym]

theorem allBytes_get (i : Nat) (h : i < 256) :
    allBytes[i]'(by simpa [allBytes_length] using h) = BitVec.ofNat 8 i := by
  simp [allBytes]

theorem mem_allBytes (b : Byte) : b ∈ allBytes := by
  simp only [allBytes, Config.nsym, List.mem_map, List.mem_range]
  exact ⟨b.toNat, b.isLt, by simp⟩

theorem allBytes_rising : allBytes.Pairwise (fun a b => a.toNat < b.toNat) := by
  rw [List.pairwise_iff_getElem]
  intro i j hi hj hij
  rw [allBytes_length] at hi hj
  rw [allBytes_get i hi, allBytes_get j hj]
  simp [Nat.mod_eq_of_lt hi, Nat.mod_eq_of_lt hj, hij]

theorem allBytes_nodup : allBytes.Nodup :=
  allBytes_rising.imp fun h e => by simp [e] at h

/-- The entries of a table in its order are the entries at all byte values. -/
theorem toList_eq_map {α : Type} (t : Vector α 256) : t.toList = allBytes.map (entry t) := by
  apply List.ext_getElem
  · simp [allBytes_length]
  · intro i h1 h2
    have hi : i < 256 := by simpa using h1
    simp [allBytes_get i hi, entry, Nat.mod_eq_of_lt hi]

theorem presentBytes_eq_filter (freq : Vector Word64 256) :
    presentBytes freq = allBytes.filter (presentIn freq) := by
  have h : ∀ l : List Byte,
      ((l.zip (l.map (entry freq))).filter fun p => decide (p.2 ≠ 0)).map Prod.fst =
        l.filter (presentIn freq) := by
    intro l
    induction l with
    | nil => rfl
    | cons b rest ih =>
      by_cases hb : entry freq b = 0 <;> simp_all [presentIn]
  rw [presentBytes, toList_eq_map]
  exact h allBytes

@[simp] theorem presentIn_iff (freq : Vector Word64 256) (b : Byte) :
    presentIn freq b = true ↔ entry freq b ≠ 0 := by
  simp [presentIn]

theorem mem_presentBytes (freq : Vector Word64 256) (b : Byte) :
    b ∈ presentBytes freq ↔ entry freq b ≠ 0 := by
  simp [presentBytes_eq_filter, mem_allBytes]

theorem presentBytes_rising (freq : Vector Word64 256) :
    (presentBytes freq).Pairwise (fun a b => a.toNat < b.toNat) := by
  rw [presentBytes_eq_filter]
  exact allBytes_rising.filter _

theorem presentBytes_nodup (freq : Vector Word64 256) : (presentBytes freq).Nodup :=
  (presentBytes_rising freq).imp fun h e => by simp [e] at h

theorem presentBytes_length_le (freq : Vector Word64 256) : (presentBytes freq).length ≤ 256 := by
  rw [presentBytes_eq_filter, ← allBytes_length]
  exact List.length_filter_le _ _

theorem anyPresent_iff (freq : Vector Word64 256) :
    anyPresent freq = true ↔ ∃ b, entry freq b ≠ 0 := by
  simp [anyPresent, toList_eq_map, mem_allBytes]

theorem anyPresent_false_iff (freq : Vector Word64 256) :
    anyPresent freq = false ↔ ∀ b, entry freq b = 0 := by
  rw [← Bool.not_eq_true, anyPresent_iff]
  simp

theorem presentBytes_eq_nil (freq : Vector Word64 256) :
    presentBytes freq = [] ↔ ∀ b, entry freq b = 0 := by
  rw [List.eq_nil_iff_forall_not_mem]
  simp [mem_presentBytes]

/-! ### Sums over the byte values -/

theorem sum_map_add_nat {α : Type} (m : List α) (f g : α → Nat) :
    (m.map fun b => f b + g b).sum = (m.map f).sum + (m.map g).sum := by
  induction m with
  | nil => rfl
  | cons c m ih => simp only [List.map_cons, List.sum_cons, ih]; omega

theorem sum_map_ite (m : List Byte) (a : Byte) :
    (m.map fun b => if a = b then 1 else 0).sum = m.count a := by
  induction m with
  | nil => rfl
  | cons c m ih =>
    rw [List.map_cons, List.sum_cons, ih, List.count_cons]
    by_cases hc : a = c
    · subst hc; simp [Nat.add_comm]
    · simp [hc, Ne.symm hc]

/-- The occurrences of all byte values add up to the length. -/
theorem sum_counts (l : List Byte) : (allBytes.map fun b => l.count b).sum = l.length := by
  have hnd := allBytes_nodup
  have hm := mem_allBytes
  generalize allBytes = m at hnd hm
  induction l with
  | nil => simp
  | cons a rest ih =>
    simp only [List.count_cons, List.length_cons, beq_iff_eq]
    rw [sum_map_add_nat, ih, sum_map_ite, List.count_eq_one_of_mem hnd (hm a)]

/-- Only the present bytes count in a sum over a table. -/
theorem sum_present (freq : Vector Word64 256) :
    (allBytes.map fun b => (entry freq b).toNat).sum =
      ((presentBytes freq).map fun b => (entry freq b).toNat).sum := by
  rw [presentBytes_eq_filter]
  generalize allBytes = m
  induction m with
  | nil => rfl
  | cons b rest ih =>
    by_cases hb : entry freq b = 0
    · rw [List.filter_cons_of_neg (by simp [presentIn, hb])]; simp [hb, ih]
    · rw [List.filter_cons_of_pos (by simpa [presentIn] using hb)]; simp [ih]

/-! ### `POOL` -/

theorem poolInsert_of_lt (i : NodeId) (pool : List NodeId) (h : ∀ j ∈ pool, j < i) :
    poolInsert i pool = pool ++ [i] := by
  induction pool with
  | nil => rfl
  | cons j rest ih =>
    have hj : j < i := h j (by simp)
    have : ¬ i < j := not_lt.mpr hj.le
    simp [poolInsert, this, hj.ne', ih fun k hk => h k (by simp [hk])]

theorem mem_poolInsert (i j : NodeId) (pool : List NodeId) :
    j ∈ poolInsert i pool ↔ j = i ∨ j ∈ pool := by
  induction pool with
  | nil => simp [poolInsert]
  | cons k rest ih =>
    unfold poolInsert
    split
    · simp
    · split
      · subst_vars; simp
      · simp only [List.mem_cons, ih]; tauto

/-- `POOL` stays strictly rising (10_state.md rule R24: it is a set). -/
theorem poolInsert_rising (i : NodeId) (pool : List NodeId) (h : pool.Pairwise (· < ·)) :
    (poolInsert i pool).Pairwise (· < ·) := by
  induction pool with
  | nil => simp [poolInsert]
  | cons k rest ih =>
    rw [List.pairwise_cons] at h
    unfold poolInsert
    split
    · rename_i hik
      refine List.pairwise_cons.mpr ⟨?_, List.pairwise_cons.mpr h⟩
      intro j hj
      rcases List.mem_cons.mp hj with rfl | hj
      · exact hik
      · exact hik.trans (h.1 j hj)
    · split
      · exact List.pairwise_cons.mpr h
      · rename_i h1 h2
        refine List.pairwise_cons.mpr ⟨?_, ih h.2⟩
        intro j hj
        rcases (mem_poolInsert i j rest).mp hj with rfl | hj
        · exact lt_of_le_of_ne (not_lt.mp h1) (Ne.symm h2)
        · exact h.1 j hj

theorem poolInsert_length_le (i : NodeId) (pool : List NodeId) :
    (poolInsert i pool).length ≤ pool.length + 1 := by
  induction pool with
  | nil => simp [poolInsert]
  | cons k rest ih =>
    unfold poolInsert
    split
    · simp
    · split
      · simp
      · simpa using ih

/-! ### Selection (41_tree_builder.md rule R144) -/

theorem takeLeast_eq_none {α : Type} (lt : α → α → Bool) (l : List α) :
    takeLeast lt l = none ↔ l = [] := by
  cases l with
  | nil => simp [takeLeast]
  | cons a rest =>
    simp only [takeLeast, reduceCtorEq, iff_false]
    split
    · simp
    · split <;> simp

/-- The selected element and the others are the collection. -/
theorem takeLeast_perm {α : Type} (lt : α → α → Bool) {l : List α} {m : α} {others : List α}
    (h : takeLeast lt l = some (m, others)) : l.Perm (m :: others) := by
  induction l generalizing m others with
  | nil => simp [takeLeast] at h
  | cons a rest ih =>
    simp only [takeLeast] at h
    split at h
    · rename_i hn
      obtain rfl := (takeLeast_eq_none lt rest).mp hn
      simp only [Option.some.injEq, Prod.mk.injEq] at h
      obtain ⟨rfl, rfl⟩ := h
      exact List.Perm.refl _
    · rename_i m' others' hs
      have hp := ih hs
      split at h
      · simp only [Option.some.injEq, Prod.mk.injEq] at h
        obtain ⟨rfl, rfl⟩ := h
        exact (hp.cons a).trans (List.Perm.swap m' a others')
      · simp only [Option.some.injEq, Prod.mk.injEq] at h
        obtain ⟨rfl, rfl⟩ := h
        exact List.Perm.refl _

theorem takeLeast_length {α : Type} (lt : α → α → Bool) {l : List α} {m : α} {others : List α}
    (h : takeLeast lt l = some (m, others)) : l.length = others.length + 1 := by
  simpa using (takeLeast_perm lt h).length_eq

/-- The others stand in the order they had. -/
theorem takeLeast_sublist {α : Type} (lt : α → α → Bool) {l : List α} {m : α} {others : List α}
    (h : takeLeast lt l = some (m, others)) : others.Sublist l := by
  induction l generalizing m others with
  | nil => simp [takeLeast] at h
  | cons a rest ih =>
    simp only [takeLeast] at h
    split at h
    · simp only [Option.some.injEq, Prod.mk.injEq] at h
      obtain ⟨rfl, rfl⟩ := h
      simp
    · rename_i m' others' hs
      split at h
      · simp only [Option.some.injEq, Prod.mk.injEq] at h
        obtain ⟨rfl, rfl⟩ := h
        exact (ih hs).cons_cons a
      · simp only [Option.some.injEq, Prod.mk.injEq] at h
        obtain ⟨rfl, rfl⟩ := h
        simp

/-- Two collections element by element alike, with orders that agree, are selected from alike. -/
theorem takeLeast_forall₂ {α β : Type} {R : α → β → Prop} {lt : α → α → Bool}
    {lt' : β → β → Bool} (hlt : ∀ a b a' b', R a a' → R b b' → lt a b = lt' a' b')
    {l : List α} {l' : List β} (h : List.Forall₂ R l l') :
    (takeLeast lt l = none ∧ takeLeast lt' l' = none) ∨
      ∃ m others m' others', takeLeast lt l = some (m, others) ∧
        takeLeast lt' l' = some (m', others') ∧ R m m' ∧ List.Forall₂ R others others' := by
  induction h with
  | nil => left; simp [takeLeast]
  | @cons a a' rest rest' haa hrest ih =>
    right
    rcases ih with ⟨h1, h2⟩ | ⟨m, o, m', o', h1, h2, hm, ho⟩
    · exact ⟨a, [], a', [], by simp [takeLeast, h1], by simp [takeLeast, h2], haa, .nil⟩
    · have hl := hlt m a m' a' hm haa
      by_cases hc : lt m a = true
      · exact ⟨m, a :: o, m', a' :: o', by simp [takeLeast, h1, hc],
          by simp [takeLeast, h2, ← hl, hc], hm, .cons haa ho⟩
      · exact ⟨a, rest, a', rest', by simp [takeLeast, h1, hc],
          by simp [takeLeast, h2, ← hl, hc], haa, hrest⟩

end Sys2Proof.Machine
end

