-- ==== Sys2Proof/Laws/Assign.lean ====
section
/-! SUPPORT. ASSIGN: what its walk of the tree writes (42_code_assigner.md rule R161 to rule R164). -/

namespace Sys2Proof.Machine

open Codec

/-! ### The walk against `codes` -/

/-- A code table with the entries of a list written one after the other. -/
def setCodes (cs : CodeTable) (t : Vector Code 256) : Vector Code 256 :=
  cs.foldl (fun u c => setEntry u c.1 { val := BitVec.ofNat 255 c.2.1, len := BitVec.ofNat 8 c.2.2 }) t

@[simp] theorem setCodes_nil (t : Vector Code 256) : setCodes [] t = t := rfl

@[simp] theorem setCodes_cons (c : Byte × Nat × Nat) (cs : CodeTable) (t : Vector Code 256) :
    setCodes (c :: cs) t =
      setCodes cs
        (setEntry t c.1 { val := BitVec.ofNat 255 c.2.1, len := BitVec.ofNat 8 c.2.2 }) := rfl

theorem setCodes_append (cs ds : CodeTable) (t : Vector Code 256) :
    setCodes (cs ++ ds) t = setCodes ds (setCodes cs t) := by simp [setCodes]

theorem code_double {v : BitVec 255} {l : Nat} (hv : v.toNat < 2 ^ l) (hl : l + 1 ≤ 255) :
    (v * 2).toNat = 2 * v.toNat ∧ (v * 2 + 1).toNat = 2 * v.toNat + 1 := by
  have hp : 2 ^ (l + 1) ≤ 2 ^ 255 := Nat.pow_le_pow_right (by omega) hl
  have e2 : (2 : BitVec 255).toNat = 2 := rfl
  have e1 : (1 : BitVec 255).toNat = 1 := rfl
  have hd : (v * 2).toNat = 2 * v.toNat := by
    rw [BitVec.toNat_mul, e2, Nat.mod_eq_of_lt (by omega), Nat.mul_comm]
  refine ⟨hd, ?_⟩
  rw [BitVec.toNat_add, hd, e1, Nat.mod_eq_of_lt (by omega)]

theorem len_succ {l : BitVec 8} (h : l.toNat + 1 ≤ 255) : (l + 1).toNat = l.toNat + 1 := by
  have e1 : (1 : BitVec 8).toNat = 1 := rfl
  rw [BitVec.toNat_add, e1, Nat.mod_eq_of_lt (by omega)]

/-- The walk of a tree writes the codes of `codes`. -/
theorem visit_eq {k : Nat} {i : NodeId} {v : BitVec 255} {l : BitVec 8} {s : State} {tr : Tree}
    (hr : Shaped s.node i tr) (hk : tr.depth ≤ k) (hl : l.toNat + tr.depth ≤ 255)
    (hv : v.toNat < 2 ^ l.toNat) :
    visit k i v l s = .done { s with code := setCodes (codes tr v.toNat l.toNat) s.code } := by
  induction tr generalizing k i v l s with
  | leaf b f =>
    obtain ⟨h1, h2⟩ := hr
    cases k <;> simp [visit, h1, h2, setCode, codes]
  | internal left right f m ihl ihr =>
    obtain ⟨h1, h2, h3⟩ := hr
    simp only [Tree.depth] at hk hl
    obtain ⟨k, rfl⟩ : ∃ n, k = n + 1 := ⟨k - 1, by omega⟩
    have hl1 : l.toNat + 1 ≤ 255 := by omega
    obtain ⟨d0, d1⟩ := code_double hv hl1
    have hp : 2 ^ (l + 1).toNat = 2 * 2 ^ l.toNat := by rw [len_succ hl1, Nat.pow_succ, Nat.mul_comm]
    simp only [visit, h1, Bool.false_eq_true, ↓reduceIte]
    rw [ihl h2 (by omega) (by rw [len_succ hl1]; omega) (by rw [hp, d0]; omega), bind_done,
      ihr (k := k) (v := v * 2 + 1) (l := l + 1)
        (s := { s with code := setCodes (codes left (v * 2).toNat (l + 1).toNat) s.code })
        h3 (by omega) (by rw [len_succ hl1]; omega) (by rw [hp, d1]; omega)]
    simp only [codes, d0, d1, len_succ hl1, setCodes_append]

/-! ### The codes of a tree -/

theorem codes_keys (tr : Tree) (v l : Nat) : (codes tr v l).map Prod.fst = tr.bytes := by
  induction tr generalizing v l with
  | leaf b f => rfl
  | internal left right f m ihl ihr => simp [codes, Tree.bytes, ihl, ihr]

/-- Every code of a tree continues the code it started from. -/
theorem codes_range {tr : Tree} {v l : Nat} {c : Byte × Nat × Nat} (h : c ∈ codes tr v l) :
    l ≤ c.2.2 ∧ c.2.2 ≤ l + tr.depth ∧ v * 2 ^ (c.2.2 - l) ≤ c.2.1 ∧
      c.2.1 < (v + 1) * 2 ^ (c.2.2 - l) := by
  induction tr generalizing v l with
  | leaf b f =>
    obtain rfl := List.mem_singleton.mp h
    simp
  | internal left right f m ihl ihr =>
    simp only [codes, List.mem_append] at h
    simp only [Tree.depth]
    rcases h with h | h
    · obtain ⟨h1, h2, h3, h4⟩ := ihl h
      obtain ⟨d, hd⟩ : ∃ d, c.2.2 = l + 1 + d := ⟨c.2.2 - (l + 1), by omega⟩
      have e1 : c.2.2 - (l + 1) = d := by omega
      have e2 : c.2.2 - l = d + 1 := by omega
      rw [e1] at h3 h4
      rw [e2, Nat.pow_succ]
      refine ⟨by omega, by omega, by nlinarith, by nlinarith⟩
    · obtain ⟨h1, h2, h3, h4⟩ := ihr h
      obtain ⟨d, hd⟩ : ∃ d, c.2.2 = l + 1 + d := ⟨c.2.2 - (l + 1), by omega⟩
      have e1 : c.2.2 - (l + 1) = d := by omega
      have e2 : c.2.2 - l = d + 1 := by omega
      rw [e1] at h3 h4
      rw [e2, Nat.pow_succ]
      refine ⟨by omega, by omega, by nlinarith, by nlinarith⟩

theorem entry_setCodes {cs : CodeTable} (t : Vector Code 256) (hnd : (cs.map Prod.fst).Nodup)
    (b : Byte) :
    entry (setCodes cs t) b =
      match cs.lookup b with
      | some (v, l) => { val := BitVec.ofNat 255 v, len := BitVec.ofNat 8 l }
      | none => entry t b := by
  induction cs generalizing t with
  | nil => rfl
  | cons c cs ih =>
    obtain ⟨hc, hnd'⟩ : c.1 ∉ cs.map Prod.fst ∧ (cs.map Prod.fst).Nodup := by simpa using hnd
    rw [setCodes_cons, ih _ hnd', List.lookup]
    by_cases hb : b = c.1
    · subst hb
      have : cs.lookup c.1 = none := by
        rw [List.lookup_eq_none_iff]
        intro p hp
        simp only [bne_iff_ne]
        rintro e
        exact hc (e ▸ List.mem_map_of_mem hp)
      simp [this]
    · have hb' : (b == c.1) = false := by simpa using hb
      rw [hb', entry_setEntry_other _ _ _ _ hb]

/-! ### ASSIGN -/

/-- ASSIGN on a tree writes the codes of `assign`. -/
theorem assignPhase_eq {s : State} {r : NodeId} {tr : Tree} (hroot : s.root = some r)
    (hr : Shaped s.node r tr) (hd : tr.depth ≤ 255) :
    assignPhase s = .done { s with code := setCodes (Codec.assign (some tr)) s.code } := by
  have e : assignPhase s =
      if (nodeAt s.node r).leaf then .done (setCode (nodeAt s.node r).byte 0 1 s)
      else visit Config.maxDepth r 0 0 s := by simp only [assignPhase, hroot]
  rw [e]
  cases tr with
  | leaf b f =>
    obtain ⟨h1, h2⟩ := hr
    rw [if_pos h1, h2]
    rfl
  | internal left right f m =>
    have h1 := hr.1
    rw [if_neg (by simp [h1]),
      visit_eq (k := Config.maxDepth) (v := 0) (l := 0) hr hd (by simpa using hd) (by simp)]
    rfl

theorem assign_keys (tr : Tree) : (Codec.assign (some tr)).map Prod.fst = tr.bytes := by
  cases tr with
  | leaf b f => rfl
  | internal left right f m => exact codes_keys _ 0 0

/-- Every code of a tree lies below `2^len`, and its length is 1 up to the depth or 1. -/
theorem assign_range {tr : Tree} {c : Byte × Nat × Nat} (h : c ∈ Codec.assign (some tr)) :
    1 ≤ c.2.2 ∧ c.2.2 ≤ max 1 tr.depth ∧ c.2.1 < 2 ^ c.2.2 := by
  cases tr with
  | leaf b f =>
    obtain rfl := List.mem_singleton.mp h
    simp
  | internal left right f m =>
    obtain ⟨-, h2, -, h4⟩ := codes_range h
    refine ⟨?_, by omega, by simpa using h4⟩
    simp only [Codec.assign, codes, List.mem_append] at h
    rcases h with h | h <;> have := codes_range h <;> omega

theorem lookup_mem {α β : Type} [BEq α] [LawfulBEq α] {a : α} {b : β} {l : List (α × β)}
    (h : l.lookup a = some b) : (a, b) ∈ l := by
  induction l with
  | nil => simp at h
  | cons c l ih =>
    rw [List.lookup] at h
    split at h
    · rename_i he
      obtain rfl := eq_of_beq he
      obtain rfl := Option.some.inj h
      exact List.mem_cons_self
    · exact List.mem_cons_of_mem _ (ih h)

theorem lookup_isSome {α β : Type} [BEq α] [LawfulBEq α] {a : α} {l : List (α × β)} :
    (∃ b, l.lookup a = some b) ↔ a ∈ l.map Prod.fst := by
  induction l with
  | nil => simp
  | cons c l ih =>
    rw [List.lookup]
    split
    · rename_i he
      obtain rfl := eq_of_beq he
      simp
    · rename_i he
      have : a ≠ c.1 := by simpa using he
      rw [ih]
      simp [this]

theorem lookup_none {α β : Type} [BEq α] [LawfulBEq α] {a : α} {l : List (α × β)}
    (h : a ∉ l.map Prod.fst) : l.lookup a = none := by
  rw [← lookup_isSome] at h
  cases e : l.lookup a with
  | none => rfl
  | some b => exact absurd ⟨b, e⟩ h

/-! ### Prefix freedom (rule R164) -/

/-- The codes of one tree are apart: neither starts the other. -/
theorem codes_apart {tr : Tree} {v l : Nat} (hnd : tr.bytes.Nodup) {c d : Byte × Nat × Nat}
    (hc : c ∈ codes tr v l) (hd : d ∈ codes tr v l) (hle : c.2.2 ≤ d.2.2)
    (h : d.2.1 / 2 ^ (d.2.2 - c.2.2) = c.2.1) : c = d := by
  induction tr generalizing v l with
  | leaf b f =>
    rw [List.mem_singleton.mp hc, List.mem_singleton.mp hd]
  | internal left right f m ihl ihr =>
    simp only [codes, List.mem_append] at hc hd
    simp only [Tree.bytes] at hnd
    obtain ⟨n1, n2, -⟩ := List.nodup_append.mp hnd
    have key : ∀ {t u : Tree} {w x : Nat}, c ∈ codes t w (l + 1) → d ∈ codes u x (l + 1) → w = x := by
      intro t u w x h1 h2
      obtain ⟨a1, -, a3, a4⟩ := codes_range h1
      obtain ⟨b1, -, b3, b4⟩ := codes_range h2
      have e : d.2.1 / 2 ^ (d.2.2 - (l + 1)) = x :=
        Nat.div_eq_of_lt_le b3 b4
      have e' : c.2.1 / 2 ^ (c.2.2 - (l + 1)) = w :=
        Nat.div_eq_of_lt_le a3 a4
      rw [← h, Nat.div_div_eq_div_mul, ← pow_add,
        show d.2.2 - c.2.2 + (c.2.2 - (l + 1)) = d.2.2 - (l + 1) by omega, e] at e'
      exact e'.symm
    rcases hc with hc | hc <;> rcases hd with hd | hd
    · exact ihl n1 hc hd
    · have := key hc hd; omega
    · have := key hc hd; omega
    · exact ihr n2 hc hd

/-- The code of a tree's byte starts the code of another only if the two are the same. -/
theorem assign_apart {tr : Tree} (hnd : tr.bytes.Nodup) {c d : Byte × Nat × Nat}
    (hc : c ∈ Codec.assign (some tr)) (hd : d ∈ Codec.assign (some tr))
    (h : bits c.2.1 c.2.2 <+: bits d.2.1 d.2.2) : c = d := by
  have hle : c.2.2 ≤ d.2.2 := by simpa [bits_length] using h.length_le
  have hcr := assign_range hc
  have hdr := assign_range hd
  have ht := List.prefix_iff_eq_take.mp h
  rw [bits_length, bits_take hle] at ht
  have hv : d.2.1 / 2 ^ (d.2.2 - c.2.2) = c.2.1 := by
    refine (bits_inj hcr.2.2 ?_ ht).symm
    rw [Nat.div_lt_iff_lt_mul (by positivity), ← pow_add,
      show c.2.2 + (d.2.2 - c.2.2) = d.2.2 by omega]
    exact hdr.2.2
  cases tr with
  | leaf b f => rw [List.mem_singleton.mp hc, List.mem_singleton.mp hd]
  | internal left right f m => exact codes_apart hnd hc hd hle hv

/-! ### ASSIGN in any state -/

/-- `t` is `s` but for `CODE`, and what `CODE` holds stays below `2^len`. -/
def CodedFrom (s t : State) : Prop :=
  t = { s with code := t.code } ∧
    ((∀ b : Byte, (entry s.code b).val.toNat < 2 ^ (entry s.code b).len.toNat) →
      ∀ b : Byte, (entry t.code b).val.toNat < 2 ^ (entry t.code b).len.toNat)

theorem CodedFrom.refl (s : State) : CodedFrom s s := ⟨rfl, id⟩

theorem CodedFrom.trans {s t u : State} (h : CodedFrom s t) (h' : CodedFrom t u) :
    CodedFrom s u := by
  obtain ⟨h1, h2⟩ := h
  obtain ⟨h3, h4⟩ := h'
  refine ⟨?_, h4 ∘ h2⟩
  rw [h3, h1]

theorem CodedFrom.set (s : State) (b : Byte) {v : BitVec 255} {l : BitVec 8}
    (hv : v.toNat < 2 ^ l.toNat) : CodedFrom s (setCode b v l s) := by
  refine ⟨rfl, fun h c => ?_⟩
  simp only [setCode, entry_setEntry]
  split
  · exact hv
  · exact h c

theorem visit_sat {k : Nat} {i : NodeId} {v : BitVec 255} {l : BitVec 8} {s : State}
    (hl : l.toNat + k ≤ 255) (hv : v.toNat < 2 ^ l.toNat) :
    (visit k i v l s).Sat (CodedFrom s) (fun _ _ => False) := by
  induction k generalizing i v l s with
  | zero =>
    simp only [visit]
    split
    · exact .set s _ hv
    · trivial
  | succ k ih =>
    have hl1 : l.toNat + 1 ≤ 255 := by omega
    obtain ⟨d0, d1⟩ := code_double hv hl1
    have hp : 2 ^ (l + 1).toNat = 2 * 2 ^ l.toNat := by rw [len_succ hl1, Nat.pow_succ, Nat.mul_comm]
    simp only [visit]
    split
    · exact .set s _ hv
    · refine bind_sat (ih (by rw [len_succ hl1]; omega) (by rw [hp, d0]; omega)) fun t ht => ?_
      exact (ih (by rw [len_succ hl1]; omega) (by rw [hp, d1]; omega)).mono
        (fun u hu => ht.trans hu) (fun _ _ h => h)

theorem assignPhase_sat (s : State) : (assignPhase s).Sat (CodedFrom s) (fun _ _ => False) := by
  unfold assignPhase
  split
  · exact .refl s
  · split
    · exact .set s _ (by decide)
    · exact visit_sat (by decide) (by decide)

theorem visit_not_bound (k : Nat) (i : NodeId) (v : BitVec 255) (l : BitVec 8) (s : State) :
    visit k i v l s ≠ .stuck .loopBound := by
  induction k generalizing i v l s with
  | zero => simp only [visit]; split <;> simp
  | succ k ih =>
    simp only [visit]
    split
    · simp
    · cases h : visit k (nodeAt s.node i).left (v * 2) (l + 1) s with
      | done t => exact ih _ _ _ _
      | raised e t => simp
      | stuck f =>
        have := ih (nodeAt s.node i).left (v * 2) (l + 1) s
        rw [h] at this
        exact this
      | refused r => simp

theorem assignPhase_not_bound (s : State) : assignPhase s ≠ .stuck .loopBound := by
  unfold assignPhase
  split
  · simp
  · split
    · simp
    · exact visit_not_bound _ _ _ _ _

end Sys2Proof.Machine
end

