-- ==== Sys2Proof/Laws/Build.lean ====
section
/-! SUPPORT. BUILD: the leaves, the merges against the merges of trees as values, and what BUILD keeps
(41_tree_builder.md rule R141 to rule R149). -/

namespace Sys2Proof.Machine

open Codec

/-! ### What BUILD keeps -/

/-- `t` is `s` but for `NODE`, `POOL`, `NEXT_ID` and `ROOT`. -/
def BuiltFrom (s t : State) : Prop :=
  t = { s with node := t.node, pool := t.pool, nextId := t.nextId, root := t.root }

theorem BuiltFrom.refl (s : State) : BuiltFrom s s := rfl

theorem BuiltFrom.trans {s t u : State} (h : BuiltFrom s t) (h' : BuiltFrom t u) :
    BuiltFrom s u := by
  unfold BuiltFrom at *
  rw [h', h]

/-! ### The leaves -/

theorem foldl_addLeaf_from (bs : List Byte) (s : State) :
    bs.foldl addLeaf s =
      { s with node := (bs.foldl addLeaf s).node, pool := (bs.foldl addLeaf s).pool } := by
  induction bs generalizing s with
  | nil => rfl
  | cons b rest ih =>
    rw [List.foldl_cons, ih]
    rfl

theorem foldl_addLeaf_freq (bs : List Byte) (s : State) :
    (bs.foldl addLeaf s).freq = s.freq := by
  rw [foldl_addLeaf_from]

theorem foldl_addLeaf_pool (bs : List Byte) (s : State)
    (hp : ∀ i ∈ s.pool, ∀ b ∈ bs, i < leafId b)
    (hr : bs.Pairwise (fun a b => a.toNat < b.toNat)) :
    (bs.foldl addLeaf s).pool = s.pool ++ bs.map leafId := by
  induction bs generalizing s with
  | nil => simp
  | cons b rest ih =>
    rw [List.pairwise_cons] at hr
    have hi : poolInsert (leafId b) s.pool = s.pool ++ [leafId b] :=
      poolInsert_of_lt _ _ fun j hj => hp j hj b (by simp)
    rw [List.foldl_cons, ih _ _ hr.2, addLeaf_pool, hi, List.append_assoc, List.map_cons]
    · rfl
    · intro i hi' c hc
      rw [addLeaf_pool, hi, List.mem_append, List.mem_singleton] at hi'
      rcases hi' with hi' | rfl
      · exact hp i hi' c (by simp [hc])
      · exact hr.1 c hc

theorem foldl_addLeaf_node_other (bs : List Byte) (s : State) (i : NodeId)
    (h : ∀ b ∈ bs, i ≠ leafId b) : nodeAt (bs.foldl addLeaf s).node i = nodeAt s.node i := by
  induction bs generalizing s with
  | nil => rfl
  | cons b rest ih =>
    rw [List.foldl_cons, ih _ fun c hc => h c (by simp [hc]), addLeaf_node,
      nodeAt_setNode_other _ _ _ _ (h b (by simp))]

theorem foldl_addLeaf_node (bs : List Byte) (s : State) (b : Byte) (hb : b ∈ bs)
    (hn : bs.Nodup) :
    nodeAt (bs.foldl addLeaf s).node (leafId b) = leafNode b (entry s.freq b) := by
  induction bs generalizing s with
  | nil => simp at hb
  | cons c rest ih =>
    rw [List.nodup_cons] at hn
    rw [List.foldl_cons]
    rcases List.mem_cons.mp hb with rfl | hb
    · rw [foldl_addLeaf_node_other, addLeaf_node, nodeAt_setNode_same]
      intro d hd e
      exact hn.1 (leafId_inj e ▸ hd)
    · rw [ih _ hb hn.2, addLeaf_freq]

theorem addLeaves_pool {s : State} (h : s.pool = []) :
    (addLeaves s).pool = (presentBytes s.freq).map leafId := by
  rw [addLeaves, foldl_addLeaf_pool _ _ (by simp [h]) (presentBytes_rising _), h, List.nil_append]

theorem addLeaves_built (s : State) : BuiltFrom s (addLeaves s) := by
  unfold BuiltFrom addLeaves
  rw [foldl_addLeaf_from]

theorem addLeaves_nextId (s : State) : (addLeaves s).nextId = s.nextId := by
  rw [addLeaves, foldl_addLeaf_from]

theorem addLeaves_node {s : State} {b : Byte} (h : entry s.freq b ≠ 0) :
    nodeAt (addLeaves s).node (leafId b) = leafNode b (entry s.freq b) :=
  foldl_addLeaf_node _ _ _ ((mem_presentBytes _ _).mpr h) (presentBytes_nodup _)

/-! ### A node table holding a tree -/

/-- All ids of the tree at an id lie below `n`. -/
def Under (t : Vector Node 511) (n : Nat) : NodeId → Tree → Prop
  | i, .leaf _ _ => i.val < n
  | i, .internal l r _ _ =>
    i.val < n ∧ Under t n (nodeAt t i).left l ∧ Under t n (nodeAt t i).right r

theorem Under.lt {t : Vector Node 511} {n : Nat} {i : NodeId} {tr : Tree} (h : Under t n i tr) :
    i.val < n := by
  cases tr with
  | leaf b f => exact h
  | internal l r f m => exact h.1

theorem Under.set {t : Vector Node 511} {n m : Nat} {i j : NodeId} {tr : Tree} {nd : Node}
    (h : Under t n i tr) (hj : n ≤ j.val) (hm : n ≤ m) : Under (setNode t j nd) m i tr := by
  induction tr generalizing i with
  | leaf b f => exact lt_of_lt_of_le h hm
  | internal l r f k ihl ihr =>
    obtain ⟨h1, h2, h3⟩ := h
    have hij : i ≠ j := fun e => by subst e; omega
    refine ⟨by omega, ?_, ?_⟩ <;> rw [nodeAt_setNode_other _ _ _ _ hij]
    · exact ihl h2
    · exact ihr h3

theorem represents_set {t : Vector Node 511} {n : Nat} {i j : NodeId} {tr : Tree} {nd : Node}
    (hr : Represents t i tr) (h : Under t n i tr) (hj : n ≤ j.val) :
    Represents (setNode t j nd) i tr := by
  induction tr generalizing i with
  | leaf b f =>
    have hij : i ≠ j := fun e => by have := h.lt; subst e; omega
    simpa only [Represents, nodeAt_setNode_other _ _ _ _ hij] using hr
  | internal l r f k ihl ihr =>
    obtain ⟨h1, h2, h3⟩ := h
    have hij : i ≠ j := fun e => by subst e; omega
    obtain ⟨a, b, c, d, e⟩ := hr
    simp only [Represents, nodeAt_setNode_other _ _ _ _ hij]
    exact ⟨a, b, c, ihl d h2, ihr e h3⟩

theorem represents_weight {t : Vector Node 511} {i : NodeId} {tr : Tree}
    (h : Represents t i tr) : (nodeAt t i).freq.toNat = tr.weight := by
  cases tr with
  | leaf b f => exact h.2.2.1
  | internal l r f m => exact h.2.1

theorem represents_least {t : Vector Node 511} {i : NodeId} {tr : Tree}
    (h : Represents t i tr) : (nodeAt t i).minb = tr.least := by
  cases tr with
  | leaf b f => exact h.2.2.2
  | internal l r f m => exact h.2.2.1

/-- The node order on ids is the node order on the trees they stand for (rule R143). -/
theorem idLt_eq_treeLt {t : Vector Node 511} {i j : NodeId} {x y : Tree}
    (hi : Represents t i x) (hj : Represents t j y) : idLt t i j = treeLt x y := by
  have e : decide ((nodeAt t i).freq = (nodeAt t j).freq) = decide (x.weight = y.weight) := by
    rw [← represents_weight hi, ← represents_weight hj]
    exact decide_eq_decide.mpr ⟨fun h => by rw [h], fun h => BitVec.eq_of_toNat_eq h⟩
  simp only [idLt, nodeLt, treeLt, e, (represents_weight hi), (represents_weight hj), (represents_least hi), (represents_least hj)]

/-! ### The merges -/

/-- The pool holds a collection of trees, all below `NEXT_ID`. -/
def Holds (s : State) (ts : List Tree) : Prop :=
  List.Forall₂ (fun i tr => Represents s.node i tr ∧ Under s.node s.nextId.toNat i tr) s.pool ts

theorem Holds.length {s : State} {ts : List Tree} (h : Holds s ts) : s.pool.length = ts.length :=
  List.Forall₂.length_eq h

theorem forall₂_mem_left {α β : Type} {R : α → β → Prop} {l : List α} {l' : List β}
    (h : List.Forall₂ R l l') {a : α} (ha : a ∈ l) : ∃ b, R a b := by
  induction h with
  | nil => simp at ha
  | cons hab _ ih =>
    rcases List.mem_cons.mp ha with rfl | ha
    · exact ⟨_, hab⟩
    · exact ih ha

theorem nine_succ {v : BitVec 9} (h : v.toNat < 511) : (v + 1).toNat = v.toNat + 1 := by
  have e : (1 : BitVec 9).toNat = 1 := rfl
  rw [BitVec.toNat_add, e]
  exact Nat.mod_eq_of_lt (by omega)

/-- The state after the two selected nodes were merged into `NODE[NEXT_ID]`. -/
def merged (x y : NodeId) (h : NodeId) (s : State) : State :=
  { s with
    node := setNode s.node h (mergedNode s.node x y)
    pool := poolInsert h s.pool
    nextId := s.nextId + 1 }

/-- Everything a merge can do. -/
theorem merge_cases (x y : NodeId) (s : State) :
    ((nodeAt s.node x).freq.toNat + (nodeAt s.node y).freq.toNat > Config.maxWord64 ∧
      merge x y s = .leave (.raised .eOverflow s)) ∨
    ((nodeAt s.node x).freq.toNat + (nodeAt s.node y).freq.toNat ≤ Config.maxWord64 ∧
      ((∃ h : s.nextId.toNat < 511, merge x y s = .again (merged x y ⟨_, h⟩ s)) ∨
       (511 ≤ s.nextId.toNat ∧ merge x y s = .leave (.stuck .nodeCapacity)))) := by
  by_cases hs : (nodeAt s.node x).freq.toNat + (nodeAt s.node y).freq.toNat > Config.maxWord64
  · exact .inl ⟨hs, by simp only [merge, hs, ↓reduceIte]⟩
  · refine .inr ⟨by omega, ?_⟩
    by_cases h : s.nextId.toNat < 511
    · refine .inl ⟨h, ?_⟩
      have h' : s.nextId.toNat < Config.nnode := h
      simp only [merge, hs, h', ↓reduceIte, ↓reduceDIte]
      rfl
    · refine .inr ⟨by omega, ?_⟩
      have h' : ¬ s.nextId.toNat < Config.nnode := h
      simp only [merge, hs, h', ↓reduceIte, ↓reduceDIte]

/-- The merged node holds the merged tree (rule R145). -/
theorem Holds.merged {s : State} {ts : List Tree} {x y : NodeId} {tx ty : Tree}
    (hh : Holds s ts) (hx : Represents s.node x tx ∧ Under s.node s.nextId.toNat x tx)
    (hy : Represents s.node y ty ∧ Under s.node s.nextId.toNat y ty)
    (hs : tx.weight + ty.weight ≤ Config.maxWord64) (hn : s.nextId.toNat < 511) :
    Holds (merged x y ⟨_, hn⟩ s)
      (ts ++ [.internal tx ty (tx.weight + ty.weight) (minByte tx.least ty.least)]) := by
  have hmax : Config.maxWord64 = 2 ^ 64 - 1 := rfl
  have hnext : (s.nextId + 1).toNat = s.nextId.toNat + 1 := nine_succ hn
  have hpool : poolInsert (⟨_, hn⟩ : NodeId) s.pool = s.pool ++ [⟨_, hn⟩] := by
    refine poolInsert_of_lt _ _ fun j hj => ?_
    obtain ⟨tr, -, htr⟩ := forall₂_mem_left hh hj
    exact htr.lt
  unfold Holds Machine.merged
  simp only [hpool, hnext]
  refine List.rel_append ?_ ?_
  · refine List.Forall₂.imp (fun i tr h => ?_) hh
    exact ⟨represents_set h.1 h.2 (le_refl _), h.2.set (le_refl _) (Nat.le_succ _)⟩
  · refine .cons ⟨?_, ?_⟩ .nil
    · simp only [Represents, nodeAt_setNode_same, mergedNode]
      refine ⟨trivial, ?_, ?_, represents_set hx.1 hx.2 (le_refl _), represents_set hy.1 hy.2 (le_refl _)⟩
      · rw [BitVec.toNat_add, (represents_weight hx.1), (represents_weight hy.1)]
        exact Nat.mod_eq_of_lt (by omega)
      · rw [(represents_least hx.1), (represents_least hy.1)]
    · simp only [Under, nodeAt_setNode_same, mergedNode]
      exact ⟨Nat.lt_succ_self _, hx.2.set (le_refl _) (Nat.le_succ _),
        hy.2.set (le_refl _) (Nat.le_succ _)⟩

/-- The loop of BUILD against the merges of trees as values. -/
theorem mergeLoop {n : Nat} {s : State} {ts : List Tree} (hh : Holds s ts) (hn : ts.length < n)
    (hcap : s.nextId.toNat + ts.length ≤ 512) :
    match mergeTrees n ts with
    | .error e => e = .eOverflow ∧ ∃ t, iterate mergeBody n s = .raised e t ∧ BuiltFrom s t
    | .ok none => ts = [] ∧ iterate mergeBody n s = .done { s with root := none }
    | .ok (some tr) =>
      ∃ r t, iterate mergeBody n s = .done t ∧ t.root = some r ∧ t.pool = [r] ∧
        Represents t.node r tr ∧ t.nextId.toNat = s.nextId.toNat + ts.length - 1 ∧
        BuiltFrom s t := by
  induction n generalizing s ts with
  | zero => omega
  | succ n ih =>
    have hsel := takeLeast_forall₂ (lt := idLt s.node) (lt' := treeLt)
      (fun a b a' b' h h' => idLt_eq_treeLt h.1 h'.1) hh
    rcases hsel with ⟨h1, h2⟩ | ⟨x, o, tx, tos, h1, h2, hx, ho⟩
    · have hb : mergeBody s = .leave (.done { s with root := none }) := by
        simp only [mergeBody, h1]
      simp only [mergeTrees, h2]
      exact ⟨(takeLeast_eq_none _ _).mp h2, iterate_leave hb⟩
    · have hsel2 := takeLeast_forall₂ (lt := idLt s.node) (lt' := treeLt)
        (fun a b a' b' h h' => idLt_eq_treeLt h.1 h'.1) ho
      have hlen := takeLeast_length _ h2
      rcases hsel2 with ⟨h3, h4⟩ | ⟨y, p, ty, tp, h3, h4, hy, hp⟩
      · have hb : mergeBody s = .leave (.done { s with root := some x }) := by
          simp only [mergeBody, h1, h3]
        simp only [mergeTrees, h2, h4]
        have htos := (takeLeast_eq_none _ _).mp h4
        have ho' := (takeLeast_eq_none _ _).mp h3
        subst htos ho'
        have hpool : s.pool = [x] := List.perm_singleton.mp (takeLeast_perm _ h1)
        exact ⟨x, _, iterate_leave hb, rfl, hpool, hx.1, by simp [hlen], rfl⟩
      · have hlen2 := takeLeast_length _ h4
        have hb : mergeBody s = merge x y { s with pool := p } := by
          simp only [mergeBody, h1, h3]
        have hp' : Holds { s with pool := p } tp := hp
        simp only [mergeTrees, h2, h4]
        rcases merge_cases x y { s with pool := p } with ⟨hs, hm⟩ | ⟨hs, hm⟩
        · simp only [(represents_weight hx.1), (represents_weight hy.1)] at hs
          simp only [hs, ↓reduceIte]
          exact ⟨trivial, _, iterate_leave (hb.trans hm), rfl⟩
        · simp only [(represents_weight hx.1), (represents_weight hy.1)] at hs
          have hs' : ¬ tx.weight + ty.weight > Config.maxWord64 := by omega
          simp only [hs', ↓reduceIte]
          rcases hm with ⟨hk, hm⟩ | ⟨hk, -⟩
          · have hk' : s.nextId.toNat < 511 := hk
            have hh' := Holds.merged hp' hx hy hs hk
            have hnx : (merged x y ⟨_, hk⟩ { s with pool := p }).nextId.toNat =
                s.nextId.toNat + 1 := nine_succ hk
            have hi := ih hh' (by simp; omega) (by rw [hnx]; simp; omega)
            rw [iterate_again (hb.trans hm)]
            have hbf : BuiltFrom s (merged x y ⟨_, hk⟩ { s with pool := p }) := rfl
            revert hi
            split
            · rintro ⟨he, t, ht, hbt⟩
              exact ⟨he, t, ht, hbf.trans hbt⟩
            · rintro ⟨h, -⟩
              simp at h
            · rintro ⟨r, t, ht, hr, hpl, hrep, hni, hbt⟩
              refine ⟨r, t, ht, hr, hpl, hrep, ?_, hbf.trans hbt⟩
              rw [hni, hnx]
              simp
              omega
          · have hk' : 511 ≤ s.nextId.toNat := hk
            omega

/-- The leaves of BUILD are the leaves as values. -/
theorem addLeaves_holds {s : State} (hp : s.pool = []) (hn : s.nextId = 256) :
    Holds (addLeaves s) (leaves s.freq) := by
  unfold Holds leaves
  rw [addLeaves_pool hp, addLeaves_nextId, hn, List.forall₂_map_left_iff,
    List.forall₂_map_right_iff, List.forall₂_same]
  intro b hb
  have hb' := (mem_presentBytes _ _).mp hb
  simp only [Represents, Under, addLeaves_node hb', leafNode]
  exact ⟨⟨trivial, trivial, trivial, trivial⟩, b.isLt⟩

theorem leaves_length (freq : Vector Word64 256) :
    (leaves freq).length = (presentBytes freq).length := by simp [leaves]

/-- BUILD against `build` (rule R141, 10_state.md rule R36). -/
theorem buildPhase_eq {s : State} (hp : s.pool = []) (hn : s.nextId = 256) :
    match build s.freq with
    | .error e => e = .eOverflow ∧ ∃ t, buildPhase s = .raised e t ∧ BuiltFrom s t
    | .ok none => presentBytes s.freq = [] ∧ buildPhase s = .done { s with root := none }
    | .ok (some tr) =>
      ∃ r t, buildPhase s = .done t ∧ t.root = some r ∧ t.pool = [r] ∧ Represents t.node r tr ∧
        t.nextId.toNat = 256 + (presentBytes s.freq).length - 1 ∧ BuiltFrom s t := by
  have hh := addLeaves_holds hp hn
  have hlen := presentBytes_length_le s.freq
  have hnx : (addLeaves s).nextId.toNat = 256 := by rw [addLeaves_nextId, hn]; rfl
  have hpl : (addLeaves s).pool.length = (leaves s.freq).length := hh.length
  have h := mergeLoop (n := (leaves s.freq).length + 1) hh (Nat.lt_succ_self _) (by rw [hnx, leaves_length]; omega)
  have hbf := addLeaves_built s
  unfold buildPhase build
  rw [hpl]
  revert h
  split
  · rintro ⟨he, t, ht, hb⟩
    exact ⟨he, t, ht, hbf.trans hb⟩
  · rintro ⟨h1, h2⟩
    have hnil : presentBytes s.freq = [] := by
      have := leaves_length s.freq
      rw [h1] at this
      exact List.length_eq_zero_iff.mp this.symm
    refine ⟨hnil, ?_⟩
    rw [h2, addLeaves, hnil, List.foldl_nil]
  · rintro ⟨r, t, ht, hr, hpl, hrep, hni, hb⟩
    exact ⟨r, t, ht, hr, hpl, hrep, by rw [hni, hnx, leaves_length], hbf.trans hb⟩

/-! ### What the tree is (rule R149) -/

theorem mergeTrees_bytes {n : Nat} {ts : List Tree} {tr : Tree}
    (h : mergeTrees n ts = .ok (some tr)) : tr.bytes.Perm (ts.flatMap Tree.bytes) := by
  induction n generalizing ts with
  | zero => simp [mergeTrees] at h
  | succ n ih =>
    simp only [mergeTrees] at h
    split at h
    · simp at h
    · rename_i x others h1
      have hp1 := (takeLeast_perm _ h1).flatMap_right Tree.bytes
      split at h
      · rename_i h2
        obtain rfl := (takeLeast_eq_none _ _).mp h2
        simp only [Except.ok.injEq, Option.some.injEq] at h
        subst h
        simpa using hp1.symm
      · rename_i y rest h2
        have hp2 := (takeLeast_perm _ h2).flatMap_right Tree.bytes
        split at h
        · simp at h
        · refine (ih h).trans (.trans ?_ hp1.symm)
          simp only [List.flatMap_append, List.flatMap_cons, List.flatMap_nil, List.append_nil,
            Tree.bytes]
          refine List.perm_append_comm.trans ?_
          rw [List.append_assoc]
          exact List.Perm.append_left _ hp2.symm

theorem leaves_bytes (freq : Vector Word64 256) :
    (leaves freq).flatMap Tree.bytes = presentBytes freq := by
  simp [leaves, List.flatMap_map, Tree.bytes]

theorem Tree.depth_lt (tr : Tree) : tr.depth + 1 ≤ tr.bytes.length := by
  induction tr with
  | leaf b f => simp [Tree.depth, Tree.bytes]
  | internal l r f m ihl ihr =>
    simp only [Tree.depth, Tree.bytes, List.length_append]
    omega

theorem build_bytes {freq : Vector Word64 256} {tr : Tree} (h : build freq = .ok (some tr)) :
    tr.bytes.Perm (presentBytes freq) := by
  have := mergeTrees_bytes h
  rwa [leaves_bytes] at this

theorem build_nodup {freq : Vector Word64 256} {tr : Tree} (h : build freq = .ok (some tr)) :
    tr.bytes.Nodup := (build_bytes h).nodup_iff.mpr (presentBytes_nodup freq)

theorem build_depth {freq : Vector Word64 256} {tr : Tree} (h : build freq = .ok (some tr)) :
    tr.depth + 1 ≤ (presentBytes freq).length := by
  rw [← (build_bytes h).length_eq]
  exact Tree.depth_lt tr

/-! ### When the sum fits (rule R148) -/

/-- The sum of the weights of a collection of trees. -/
def weights (ts : List Tree) : Nat := (ts.map Tree.weight).sum

theorem weights_perm {ts us : List Tree} (h : ts.Perm us) : weights ts = weights us :=
  (h.map _).sum_eq

theorem mergeTrees_total {n : Nat} {ts : List Tree} (hn : ts.length < n)
    (hw : ∀ t ∈ ts, t.weight < 2 ^ 64) :
    (weights ts < 2 ^ 64 →
      (ts = [] ∧ mergeTrees n ts = .ok none) ∨
        ∃ tr, mergeTrees n ts = .ok (some tr) ∧ tr.weight = weights ts) ∧
    (2 ^ 64 ≤ weights ts → mergeTrees n ts = .error .eOverflow) := by
  have hmax : Config.maxWord64 = 2 ^ 64 - 1 := rfl
  induction n generalizing ts with
  | zero => omega
  | succ n ih =>
    simp only [mergeTrees]
    split
    · rename_i h1
      obtain rfl := (takeLeast_eq_none _ _).mp h1
      simp [weights]
    · rename_i x others h1
      have hp1 := takeLeast_perm _ h1
      have hw1 := weights_perm hp1
      have hl1 := takeLeast_length _ h1
      split
      · rename_i h2
        obtain rfl := (takeLeast_eq_none _ _).mp h2
        have hx := hw x (hp1.mem_iff.mpr (by simp))
        have e : weights ts = x.weight := by simpa [weights] using hw1
        exact ⟨fun _ => .inr ⟨x, rfl, e.symm⟩, fun h => by omega⟩
      · rename_i y rest h2
        have hp2 := takeLeast_perm _ h2
        have hw2 := weights_perm hp2
        have hl2 := takeLeast_length _ h2
        have e : weights ts = x.weight + y.weight + weights rest := by
          rw [hw1]
          simp only [weights, List.map_cons, List.sum_cons] at hw2 ⊢
          omega
        split
        · exact ⟨fun h => by omega, fun _ => rfl⟩
        · rename_i hs
          have e' : weights (rest ++ [.internal x y (x.weight + y.weight)
              (minByte x.least y.least)]) = weights ts := by
            rw [e]
            simp [weights, Tree.weight]
            omega
          have hi := ih (ts := rest ++ [.internal x y (x.weight + y.weight)
              (minByte x.least y.least)]) (by simp; omega) (by
            intro t ht
            rcases List.mem_append.mp ht with ht | ht
            · exact hw t (hp1.mem_iff.mpr (by simp [hp2.mem_iff, ht]))
            · obtain rfl := List.mem_singleton.mp ht
              show x.weight + y.weight < 2 ^ 64
              omega)
          rw [e'] at hi
          refine ⟨fun h => .inr ?_, hi.2⟩
          rcases hi.1 h with ⟨h1, -⟩ | h1
          · simp at h1
          · exact h1

theorem weights_leaves (freq : Vector Word64 256) : weights (leaves freq) = total freq := by
  rw [total, sum_present, weights, leaves, List.map_map]
  rfl

theorem build_total (freq : Vector Word64 256) :
    (total freq < 2 ^ 64 →
      (presentBytes freq = [] ∧ build freq = .ok none) ∨
        ∃ tr, build freq = .ok (some tr) ∧ tr.weight = total freq) ∧
    (2 ^ 64 ≤ total freq → build freq = .error .eOverflow) := by
  have h := mergeTrees_total (ts := leaves freq) (Nat.lt_succ_self _) (by
    intro t ht
    simp only [leaves, List.mem_map] at ht
    obtain ⟨b, -, rfl⟩ := ht
    exact (entry freq b).isLt)
  rw [weights_leaves] at h
  refine ⟨fun hs => ?_, h.2⟩
  rcases h.1 hs with ⟨h1, h2⟩ | h1
  · refine .inl ⟨?_, h2⟩
    have := leaves_length freq
    rw [h1] at this
    exact List.length_eq_zero_iff.mp this.symm
  · exact .inr h1

/-! ### The minimum byte of a tree (rule R145) -/

/-- The `minb` of every node of a tree is the smallest byte of its leaves. -/
def LeastOk : Tree → Prop
  | .leaf _ _ => True
  | .internal l r _ m => m = minByte l.least r.least ∧ LeastOk l ∧ LeastOk r

theorem LeastOk.spec {tr : Tree} (h : LeastOk tr) :
    tr.least ∈ tr.bytes ∧ ∀ b ∈ tr.bytes, tr.least.toNat ≤ b.toNat := by
  induction tr with
  | leaf b f => simp [Tree.least, Tree.bytes]
  | internal l r f m ihl ihr =>
    obtain ⟨hm, hl, hr⟩ := h
    obtain ⟨l1, l2⟩ := ihl hl
    obtain ⟨r1, r2⟩ := ihr hr
    subst hm
    have e : (Tree.internal l r f (minByte l.least r.least)).least = minByte l.least r.least := rfl
    rw [e]
    simp only [Tree.bytes, minByte, List.mem_append]
    split
    · refine ⟨.inl l1, fun b hb => ?_⟩
      rcases hb with hb | hb
      · exact l2 b hb
      · have := r2 b hb; omega
    · refine ⟨.inr r1, fun b hb => ?_⟩
      rcases hb with hb | hb
      · have := l2 b hb; omega
      · exact r2 b hb

theorem mergeTrees_leastOk {n : Nat} {ts : List Tree} {tr : Tree} (hts : ∀ t ∈ ts, LeastOk t)
    (h : mergeTrees n ts = .ok (some tr)) : LeastOk tr := by
  induction n generalizing ts with
  | zero => simp [mergeTrees] at h
  | succ n ih =>
    simp only [mergeTrees] at h
    split at h
    · simp at h
    · rename_i x others h1
      have hp1 := takeLeast_perm _ h1
      have hx := hts x (hp1.mem_iff.mpr (by simp))
      split at h
      · simp only [Except.ok.injEq, Option.some.injEq] at h
        exact h ▸ hx
      · rename_i y rest h2
        have hp2 := takeLeast_perm _ h2
        have hy := hts y (hp1.mem_iff.mpr (by simp [hp2.mem_iff]))
        split at h
        · simp at h
        · refine ih ?_ h
          intro t ht
          rcases List.mem_append.mp ht with ht | ht
          · exact hts t (hp1.mem_iff.mpr (by simp [hp2.mem_iff, ht]))
          · obtain rfl := List.mem_singleton.mp ht
            exact ⟨rfl, hx, hy⟩

theorem build_leastOk {freq : Vector Word64 256} {tr : Tree} (h : build freq = .ok (some tr)) :
    LeastOk tr := by
  refine mergeTrees_leastOk ?_ h
  intro t ht
  simp only [leaves, List.mem_map] at ht
  obtain ⟨b, -, rfl⟩ := ht
  trivial

/-! ### BUILD in any state -/

/-- `t` is `s` after merges: `NODE` differs only at the ids `NEXT_ID` went through, and `POOL` stays
strictly rising. -/
def MergedFrom (s t : State) : Prop :=
  BuiltFrom s t ∧ (s.pool.Pairwise (· < ·) → t.pool.Pairwise (· < ·)) ∧
    s.nextId.toNat ≤ t.nextId.toNat ∧
    ∀ i : NodeId, i.val < s.nextId.toNat ∨ t.nextId.toNat ≤ i.val →
      nodeAt t.node i = nodeAt s.node i

theorem MergedFrom.refl (s : State) : MergedFrom s s := ⟨.refl s, id, le_refl _, fun _ _ => rfl⟩

theorem MergedFrom.trans {s t u : State} (h : MergedFrom s t) (h' : MergedFrom t u) :
    MergedFrom s u := by
  obtain ⟨h1, h2, h3, h4⟩ := h
  obtain ⟨g1, g2, g3, g4⟩ := h'
  refine ⟨h1.trans g1, g2 ∘ h2, h3.trans g3, fun i hi => ?_⟩
  rw [g4 i (by omega), h4 i (by omega)]

theorem MergedFrom.of_pool (s : State) {p : List NodeId} (h : p.Sublist s.pool) :
    MergedFrom s { s with pool := p } :=
  ⟨rfl, fun hp => hp.sublist h, le_refl _, fun _ _ => rfl⟩

/-- Everything an iteration of BUILD can do. -/
theorem mergeBody_cases (s : State) :
    (∃ t, mergeBody s = .leave (.done t) ∧ MergedFrom s t) ∨
    (∃ t, mergeBody s = .leave (.raised .eOverflow t) ∧ MergedFrom s t) ∨
    mergeBody s = .leave (.stuck .nodeCapacity) ∨
    (∃ t, mergeBody s = .again t ∧ MergedFrom s t ∧ t.pool.length < s.pool.length) := by
  rcases h1 : takeLeast (idLt s.node) s.pool with _ | ⟨x, o⟩
  · exact .inl ⟨{ s with root := none }, by simp only [mergeBody, h1],
      rfl, id, le_refl _, fun _ _ => rfl⟩
  · rcases h2 : takeLeast (idLt s.node) o with _ | ⟨y, p⟩
    · exact .inl ⟨{ s with root := some x }, by simp only [mergeBody, h1, h2],
        rfl, id, le_refl _, fun _ _ => rfl⟩
    · have hb : mergeBody s = merge x y { s with pool := p } := by
        simp only [mergeBody, h1, h2]
      have hsub := (takeLeast_sublist _ h2).trans (takeLeast_sublist _ h1)
      have hl1 := takeLeast_length _ h1
      have hl2 := takeLeast_length _ h2
      have hpool := MergedFrom.of_pool s hsub
      rcases merge_cases x y { s with pool := p } with ⟨_, hm⟩ | ⟨_, ⟨hk, hm⟩ | ⟨_, hm⟩⟩
      · exact .inr (.inl ⟨_, hb.trans hm, hpool⟩)
      · have hk' : s.nextId.toNat < 511 := hk
        have hn := nine_succ hk'
        have hlen := poolInsert_length_le (⟨_, hk⟩ : NodeId) p
        refine .inr (.inr (.inr ⟨_, hb.trans hm, hpool.trans ⟨rfl, ?_, ?_, ?_⟩, ?_⟩))
        · exact fun h => poolInsert_rising _ _ h
        · show s.nextId.toNat ≤ (s.nextId + 1).toNat
          omega
        · intro i hi
          have hi' : i.val < s.nextId.toNat ∨ (s.nextId + 1).toNat ≤ i.val := hi
          refine nodeAt_setNode_other _ _ _ _ fun e => ?_
          have : i.val = s.nextId.toNat := by rw [e]
          omega
        · show (poolInsert (⟨_, hk⟩ : NodeId) p).length < _
          omega
      · exact .inr (.inr (.inl (hb.trans hm)))

theorem mergeLoop_sat (n : Nat) (s : State) :
    (iterate mergeBody n s).Sat (MergedFrom s) (fun c t => c = .eOverflow ∧ MergedFrom s t) := by
  refine iterate_sat (I := MergedFrom s) ?_ ?_ _ _ (.refl s)
  · intro u v hu hv
    rcases mergeBody_cases u with ⟨t, h, _⟩ | ⟨t, h, _⟩ | h | ⟨t, h, ht, _⟩ <;>
      rw [h] at hv <;> simp at hv
    subst hv
    exact hu.trans ht
  · intro u e hu he
    rcases mergeBody_cases u with ⟨t, h, ht⟩ | ⟨t, h, ht⟩ | h | ⟨t, h, ht, _⟩ <;>
      rw [h] at he <;> simp at he <;> subst he
    · exact hu.trans ht
    · exact ⟨rfl, hu.trans ht⟩
    · trivial

theorem foldl_addLeaf_rising (bs : List Byte) (s : State) (h : s.pool.Pairwise (· < ·)) :
    (bs.foldl addLeaf s).pool.Pairwise (· < ·) := by
  induction bs generalizing s with
  | nil => exact h
  | cons b rest ih => exact ih _ (poolInsert_rising _ _ h)

/-- What BUILD keeps, in any state. -/
def BuildKeeps (s t : State) : Prop :=
  BuiltFrom s t ∧ (s.pool.Pairwise (· < ·) → t.pool.Pairwise (· < ·)) ∧
    s.nextId.toNat ≤ t.nextId.toNat ∧
    ∀ i : NodeId, (∀ b, i = leafId b → entry s.freq b = 0) →
      i.val < s.nextId.toNat ∨ t.nextId.toNat ≤ i.val → nodeAt t.node i = nodeAt s.node i

theorem MergedFrom.keeps {s t : State} (h : MergedFrom (addLeaves s) t) : BuildKeeps s t := by
  obtain ⟨h1, h2, h3, h4⟩ := h
  rw [addLeaves_nextId] at h3 h4
  refine ⟨(addLeaves_built s).trans h1, fun hp => h2 (foldl_addLeaf_rising _ _ hp), h3,
    fun i hb hi => ?_⟩
  rw [h4 i hi]
  refine foldl_addLeaf_node_other _ _ _ fun b hm e => ?_
  exact (mem_presentBytes _ _).mp hm (hb b e)

theorem buildPhase_sat (s : State) :
    (buildPhase s).Sat (BuildKeeps s) (fun c t => c = .eOverflow ∧ BuildKeeps s t) :=
  (mergeLoop_sat _ _).mono (fun _ h => h.keeps) (fun _ _ h => ⟨h.1, h.2.keeps⟩)

theorem buildPhase_not_bound (s : State) : buildPhase s ≠ .stuck .loopBound := by
  obtain ⟨u, e, -, hu, he⟩ := iterate_leaves (body := mergeBody) (I := fun _ => True)
    (fun s => s.pool.length) (by
      intro u v _ hv
      rcases mergeBody_cases u with ⟨t, h, _⟩ | ⟨t, h, _⟩ | h | ⟨t, h, _, hl⟩ <;>
        rw [h] at hv <;> simp at hv
      subst hv
      exact ⟨trivial, hl⟩) ((addLeaves s).pool.length + 1) (addLeaves s) trivial (by omega)
  rw [buildPhase, he]
  rcases mergeBody_cases u with ⟨t, h, _⟩ | ⟨t, h, _⟩ | h | ⟨t, h, _⟩ <;>
    rw [h] at hu <;> simp at hu <;> subst hu <;> simp

end Sys2Proof.Machine
end

