-- ==== Sys2Proof/Laws/Bytes.lean ====
section
/-! SUPPORT. The byte order of the key's fields: `be` is the inverse of `BE16` and `BE64` (00_scope.md
rule R11). -/

namespace Sys2Proof

@[simp] theorem be16_length (v : BitVec 16) : (be16 v).length = 2 := rfl

@[simp] theorem be64_length (v : Word64) : (be64 v).length = 8 := rfl

theorem be_append (xs ys : List Byte) : be (xs ++ ys) = be xs * 256 ^ ys.length + be ys := by
  induction xs with
  | nil => simp [be]
  | cons b rest ih =>
    simp only [List.cons_append, be, List.length_append, ih, pow_add]
    ring

theorem be_lt (xs : List Byte) : be xs < 256 ^ xs.length := by
  induction xs with
  | nil => simp [be]
  | cons b rest ih =>
    have hb : b.toNat + 1 ≤ 256 := b.isLt
    have := Nat.mul_le_mul_right (256 ^ rest.length) hb
    simp only [be, List.length_cons, pow_succ]
    nlinarith

/-- The slice of a bit vector as a number. -/
theorem slice_toNat {n : Nat} (v : BitVec n) (k : Nat) :
    (v.extractLsb' k 8).toNat = v.toNat / 2 ^ k % 256 := by
  simp [BitVec.extractLsb'_toNat, Nat.shiftRight_eq_div_pow]

theorem be_be16 (v : BitVec 16) : be (be16 v) = v.toNat := by
  have := v.isLt
  simp only [be16, be, slice_toNat, List.length_cons, List.length_nil]
  norm_num
  omega

theorem be_be64 (v : Word64) : be (be64 v) = v.toNat := by
  have := v.isLt
  simp only [be64, be, slice_toNat, List.length_cons, List.length_nil]
  norm_num
  omega

/-- Two byte sequences of one length with the same big-endian value are the same. -/
theorem be_inj {xs ys : List Byte} (hl : xs.length = ys.length) (h : be xs = be ys) : xs = ys := by
  induction xs generalizing ys with
  | nil => exact (List.length_eq_zero_iff.mp hl.symm).symm
  | cons a as ih =>
    cases ys with
    | nil => simp at hl
    | cons b bs =>
      have hl' : as.length = bs.length := by simpa using hl
      have ha := be_lt as
      have hb := be_lt bs
      simp only [be, hl'] at h ha hb
      have hp : 0 < 256 ^ bs.length := by positivity
      have hab : a.toNat = b.toNat := by
        have e1 : (a.toNat * 256 ^ bs.length + be as) / 256 ^ bs.length = a.toNat := by
          rw [Nat.mul_comm, Nat.mul_add_div hp, Nat.div_eq_of_lt ha, Nat.add_zero]
        have e2 : (b.toNat * 256 ^ bs.length + be bs) / 256 ^ bs.length = b.toNat := by
          rw [Nat.mul_comm, Nat.mul_add_div hp, Nat.div_eq_of_lt hb, Nat.add_zero]
        rw [← e1, ← e2, h]
      have : be as = be bs := by rw [hab] at h; omega
      rw [BitVec.eq_of_toNat_eq hab, ih hl' this]

/-- Two bytes are the big-endian form of their value. -/
theorem be16_of_be {xs : List Byte} (h : xs.length = 2) : be16 (BitVec.ofNat 16 (be xs)) = xs := by
  refine be_inj (by simp [h]) ?_
  have := be_lt xs
  rw [be_be16, BitVec.toNat_ofNat, Nat.mod_eq_of_lt (by simpa [h] using this)]

/-- Eight bytes are the big-endian form of their value. -/
theorem be64_of_be {xs : List Byte} (h : xs.length = 8) : be64 (BitVec.ofNat 64 (be xs)) = xs := by
  refine be_inj (by simp [h]) ?_
  have := be_lt xs
  rw [be_be64, BitVec.toNat_ofNat, Nat.mod_eq_of_lt (by simpa [h] using this)]

/-! ### The fields of the key read back -/

theorem headerLengthOf_be16 (v : BitVec 16) (rest : List Byte) :
    headerLengthOf (be16 v ++ rest) = v := by
  rw [headerLengthOf, List.take_append_of_le_length (by simp), List.take_of_length_le (by simp),
    be_be16]
  simp

theorem encodedBitLenOf_be64 (v : BitVec 16) (n : Word64) (rest : List Byte) :
    encodedBitLenOf (be16 v ++ (be64 n ++ rest)) = n := by
  rw [encodedBitLenOf, List.drop_append_of_le_length (by simp), List.drop_of_length_le (by simp),
    List.nil_append, List.take_append_of_le_length (by simp), List.take_of_length_le (by simp),
    be_be64]
  simp

@[simp] theorem byteValueOf_cons (b : Byte) (rest : List Byte) : byteValueOf (b :: rest) = b := rfl

theorem frequencyOf_be64 (b : Byte) (n : Word64) (rest : List Byte) :
    frequencyOf (b :: (be64 n ++ rest)) = n := by
  rw [frequencyOf, List.drop_succ_cons, List.drop_zero, List.take_append_of_le_length (by simp),
    List.take_of_length_le (by simp), be_be64]
  simp

/-- The first bytes of a sequence decide what a key field of it is. -/
theorem headerLengthOf_take (d : List Byte) (n : Nat) (h : 2 ≤ n) :
    headerLengthOf (d.take n) = headerLengthOf d := by
  simp [headerLengthOf, List.take_take, Nat.min_eq_left h]

theorem encodedBitLenOf_take (d : List Byte) (n : Nat) (h : 10 ≤ n) :
    encodedBitLenOf (d.take n) = encodedBitLenOf d := by
  simp only [encodedBitLenOf, List.drop_take, List.take_take]
  rw [Nat.min_eq_left (by omega)]

theorem byteValueOf_take (d : List Byte) (n : Nat) (h : 1 ≤ n) :
    byteValueOf (d.take n) = byteValueOf d := by
  cases d <;> cases n <;> simp_all [byteValueOf]

theorem frequencyOf_take (d : List Byte) (n : Nat) (h : 9 ≤ n) :
    frequencyOf (d.take n) = frequencyOf d := by
  simp only [frequencyOf, List.drop_take, List.take_take]
  rw [Nat.min_eq_left (by omega)]

end Sys2Proof
end

