-- ==== Sys2Proof/Laws/Streams.lean ====
section
/-! SUPPORT. The stream primitives: what an `InNext`, an `InRewind`, an `OutCommit` and a run of `Need()`
can do (20_memory.md rule R61 to rule R63, 44_key_serializer.md rule R192). -/

namespace Sys2Proof.Machine

/-! ### Answers of the host -/

theorem word_succ {v : Word64} (h : v.toNat + 1 < 2 ^ 64) : (v + 1).toNat = v.toNat + 1 := by
  rw [BitVec.toNat_add]
  exact Nat.mod_eq_of_lt h

@[simp] theorem answered_zero (s : State) : answered 0 s = s := by simp [answered]

@[simp] theorem answered_answered (m n : Nat) (s : State) :
    answered m (answered n s) = answered (n + m) s := by
  simp [answered, List.drop_drop]

theorem takeAnswer_ok {s : State} (h : s.host.answers.head? ≠ some .err) :
    takeAnswer s = (.ok, answered 1 s) := by
  rcases s with ⟨_, _, _, _, _, _, _, _, _, _, _, _, _, _, _, _, _, _, _, _, _, _, _, _, host⟩
  rcases host with ⟨_, _, answers, _, _, _⟩
  rcases answers with _ | ⟨_ | _, _⟩ <;> simp_all [takeAnswer, answered]

theorem takeAnswer_err {s : State} (h : s.host.answers.head? = some .err) :
    takeAnswer s = (.err, answered 1 s) := by
  rcases s with ⟨_, _, _, _, _, _, _, _, _, _, _, _, _, _, _, _, _, _, _, _, _, _, _, _, host⟩
  rcases host with ⟨_, _, answers, _, _, _⟩
  rcases answers with _ | ⟨_ | _, _⟩ <;> simp_all [takeAnswer, answered]

theorem NoErr.answered {s : State} (h : NoErr s) (n : Nat) : NoErr (answered n s) :=
  fun a ha => h a (List.mem_of_mem_drop ha)

theorem NoErr.head? {s : State} (h : NoErr s) : s.host.answers.head? ≠ some .err := by
  intro hc
  have := h _ (List.mem_of_mem_head? hc)
  simp at this

/-! ### `InNext` -/

@[simp] theorem stream_answered (p : Pass) (n : Nat) (s : State) :
    stream p (answered n s) = stream p s := by cases p <;> rfl

/-- The state after a byte of the current pass was delivered. -/
def delivered (s : State) : State := { answered 1 s with inPos := s.inPos + 1 }

theorem inNext_err {s : State} (p : Pass) (h : s.host.answers.head? = some .err) :
    inNext p s = (.err, answered 1 s) := by
  simp only [inNext, takeAnswer_err h]

theorem inNext_eos {s : State} (p : Pass) (h : s.host.answers.head? ≠ some .err)
    (hl : (stream p s).length ≤ s.inPos.toNat) : inNext p s = (.eos, answered 1 s) := by
  simp only [inNext, takeAnswer_ok h, stream_answered, answered_inPos, List.getElem?_eq_none hl]

theorem inNext_byte {s : State} (p : Pass) {b : Byte} (h : s.host.answers.head? ≠ some .err)
    (hb : (stream p s)[s.inPos.toNat]? = some b) (hc : s.inPos.toNat < Config.inCap) :
    inNext p s = (.byte b, delivered s) := by
  simp only [inNext, takeAnswer_ok h, stream_answered, answered_inPos, hb, hc, ↓reduceIte]
  rfl

/-- Everything an `InNext` can do. -/
theorem inNext_cases (p : Pass) (s : State) :
    (s.host.answers.head? = some .err ∧ inNext p s = (.err, answered 1 s)) ∨
    (s.host.answers.head? ≠ some .err ∧ (stream p s).length ≤ s.inPos.toNat ∧
      inNext p s = (.eos, answered 1 s)) ∨
    (∃ b, s.host.answers.head? ≠ some .err ∧ (stream p s)[s.inPos.toNat]? = some b ∧
      s.inPos.toNat < Config.inCap ∧ inNext p s = (.byte b, delivered s)) ∨
    (s.host.answers.head? ≠ some .err ∧ Config.inCap ≤ s.inPos.toNat ∧
      s.inPos.toNat < (stream p s).length ∧ inNext p s = (.beyond, answered 1 s)) := by
  by_cases h : s.host.answers.head? = some .err
  · exact .inl ⟨h, inNext_err p h⟩
  · right
    by_cases hl : (stream p s).length ≤ s.inPos.toNat
    · exact .inl ⟨h, hl, inNext_eos p h hl⟩
    · right
      have hb : (stream p s)[s.inPos.toNat]? = some ((stream p s)[s.inPos.toNat]'(by omega)) :=
        List.getElem?_eq_getElem _
      by_cases hc : s.inPos.toNat < Config.inCap
      · exact .inl ⟨_, h, hb, hc, inNext_byte p h hb hc⟩
      · refine .inr ⟨h, by omega, by omega, ?_⟩
        simp only [inNext, takeAnswer_ok h, stream_answered, answered_inPos, hb, hc, ↓reduceIte]

@[simp] theorem delivered_inPos (s : State) : (delivered s).inPos = s.inPos + 1 := rfl

@[simp] theorem stream_delivered (p : Pass) (s : State) : stream p (delivered s) = stream p s := by
  cases p <;> rfl

theorem delivered_pos {s : State} (hc : s.inPos.toNat < Config.inCap) :
    (delivered s).inPos.toNat = s.inPos.toNat + 1 := by
  have : (1 : BitVec 64).toNat = 1 := rfl
  have h2 : Config.inCap = 2 ^ 64 - 1 := rfl
  rw [delivered_inPos, BitVec.toNat_add, this, Nat.mod_eq_of_lt (by omega)]

theorem NoErr.delivered {s : State} (h : NoErr s) : NoErr (delivered s) := h.answered 1

/-- A delivered byte is the first of the remaining ones. -/
theorem remaining_cons {p : Pass} {s : State} {b : Byte} (hc : s.inPos.toNat < Config.inCap)
    (hb : (stream p s)[s.inPos.toNat]? = some b) :
    remaining p s = b :: remaining p (delivered s) := by
  obtain ⟨hl, rfl⟩ := List.getElem?_eq_some_iff.mp hb
  simp only [remaining, stream_delivered, delivered_pos hc]
  exact List.drop_eq_getElem_cons hl

theorem remaining_nil {p : Pass} {s : State} :
    remaining p s = [] ↔ (stream p s).length ≤ s.inPos.toNat := by
  simp [remaining, List.drop_eq_nil_iff]

theorem remaining_length (p : Pass) (s : State) : (remaining p s).length = unread p s := by
  simp [remaining, unread]

@[simp] theorem remaining_answered (p : Pass) (n : Nat) (s : State) :
    remaining p (answered n s) = remaining p s := by simp [remaining]

/-- With a byte remaining, no `Err` and the input within `IN_CAP`, the byte is delivered. -/
theorem inNext_of_remaining {p : Pass} {s : State} {b : Byte} {rest : List Byte}
    (h : s.host.answers.head? ≠ some .err) (hl : (stream p s).length < 2 ^ 64)
    (hr : remaining p s = b :: rest) :
    inNext p s = (.byte b, delivered s) ∧ remaining p (delivered s) = rest ∧
      s.inPos.toNat < Config.inCap ∧ (delivered s).inPos.toNat = s.inPos.toNat + 1 ∧
      s.inPos.toNat < (stream p s).length := by
  have hlt : s.inPos.toNat < (stream p s).length := by
    by_contra hc
    have := (remaining_nil (p := p) (s := s)).mpr (by omega)
    simp [this] at hr
  have hc : s.inPos.toNat < Config.inCap := by
    have : Config.inCap = 2 ^ 64 - 1 := rfl
    omega
  have hb : (stream p s)[s.inPos.toNat]? = some ((stream p s)[s.inPos.toNat]) :=
    List.getElem?_eq_getElem hlt
  have hcons := remaining_cons hc hb
  rw [hr] at hcons
  obtain ⟨h1, h2⟩ := List.cons.inj hcons
  refine ⟨?_, h2.symm, hc, delivered_pos hc, hlt⟩
  rw [h1]
  exact inNext_byte p h hb hc

theorem inNext_of_nil {p : Pass} {s : State} (h : s.host.answers.head? ≠ some .err)
    (hr : remaining p s = []) : inNext p s = (.eos, answered 1 s) :=
  inNext_eos p h (remaining_nil.mp hr)

/-! ### `InRewind` and `OutCommit` -/

theorem inRewind_ok {s : State} (h : s.host.answers.head? ≠ some .err) :
    inRewind s = .done { answered 1 s with inPass := .two, inPos := 0 } := by
  simp only [inRewind, takeAnswer_ok h]

theorem inRewind_err {s : State} (h : s.host.answers.head? = some .err) :
    inRewind s = .raised .eIoIn (answered 1 s) := by
  simp only [inRewind, takeAnswer_err h]

theorem outCommit_ok {s : State} (h : s.host.answers.head? ≠ some .err) :
    outCommit s = .done { answered 1 s with out := s.obuf } := by
  simp only [outCommit, takeAnswer_ok h]
  rfl

theorem outCommit_err {s : State} (h : s.host.answers.head? = some .err) :
    outCommit s = .raised .eIoOut (answered 1 s) := by
  simp only [outCommit, takeAnswer_err h]

/-! ### What a read keeps -/

/-- `t` is `s` but for the read position and the answers given. -/
def ReadFrom (s t : State) : Prop :=
  t = { s with inPos := t.inPos, host := t.host } ∧ HostKept s t

theorem HostKept.refl (s : State) : HostKept s s := ⟨rfl, List.suffix_refl _⟩

theorem HostKept.trans {s t u : State} (h : HostKept s t) (h' : HostKept t u) : HostKept s u := by
  obtain ⟨h1, h2⟩ := h
  obtain ⟨h3, h4⟩ := h'
  refine ⟨?_, h4.trans h2⟩
  rw [h3, h1]

theorem HostKept.answered (n : Nat) (s : State) : HostKept s (answered n s) :=
  ⟨rfl, List.drop_suffix n _⟩

theorem ReadFrom.refl (s : State) : ReadFrom s s := ⟨rfl, .refl s⟩

theorem ReadFrom.trans {s t u : State} (h : ReadFrom s t) (h' : ReadFrom t u) : ReadFrom s u := by
  obtain ⟨h1, h2⟩ := h
  obtain ⟨h3, h4⟩ := h'
  refine ⟨?_, h2.trans h4⟩
  rw [h3, h1]

theorem ReadFrom.answered (n : Nat) (s : State) : ReadFrom s (answered n s) :=
  ⟨rfl, .answered n s⟩

theorem ReadFrom.delivered (s : State) : ReadFrom s (delivered s) := ⟨rfl, .answered 1 s⟩

theorem ReadFrom.inNext (p : Pass) (s : State) : ReadFrom s (inNext p s).2 := by
  rcases inNext_cases p s with ⟨_, h⟩ | ⟨_, _, h⟩ | ⟨b, _, _, _, h⟩ | ⟨_, _, _, h⟩ <;> rw [h]
  · exact .answered 1 s
  · exact .answered 1 s
  · exact .delivered s
  · exact .answered 1 s

/-- The input of a pass is longer than `IN_POS` can count (00_scope.md rule R9). -/
def TooLong (p : Pass) (s : State) : Prop := 2 ^ 64 ≤ (stream p s).length

theorem tooLong_of {p : Pass} {s : State} (h1 : Config.inCap ≤ s.inPos.toNat)
    (h2 : s.inPos.toNat < (stream p s).length) : TooLong p s := by
  have : Config.inCap = 2 ^ 64 - 1 := rfl
  unfold TooLong
  omega

theorem HostKept.tooLong {p : Pass} {s t : State} (h : HostKept s t) (ht : TooLong p t) :
    TooLong p s := by
  unfold TooLong stream at *
  rw [h.1] at ht
  exact ht

/-! ### `Need()` -/

/-- A run of `Need()` reads only, and raises `E_IO_IN` or `E_FMT_SHORT`. -/
theorem needBytes_cases (n : Nat) (s : State) :
    (∃ bs t, needBytes n s = .bytes bs t ∧ bs.length = n ∧ ReadFrom s t) ∨
    (∃ c t, needBytes n s = .ended (.raised c t) ∧ (c = .eIoIn ∨ c = .eFmtShort) ∧ ReadFrom s t) ∨
    (needBytes n s = .ended (.refused .inputBeyondCapacity) ∧ TooLong .one s) := by
  induction n generalizing s with
  | zero => exact .inl ⟨[], s, rfl, rfl, .refl s⟩
  | succ n ih =>
    rcases inNext_cases .one s with ⟨_, h⟩ | ⟨_, _, h⟩ | ⟨b, _, _, _, h⟩ | ⟨_, h1, h2, h⟩
    · exact .inr (.inl ⟨_, _, by simp only [needBytes, h], .inl rfl, .answered 1 s⟩)
    · exact .inr (.inl ⟨_, _, by simp only [needBytes, h], .inr rfl, .answered 1 s⟩)
    · have hr := ReadFrom.delivered s
      rcases ih (delivered s) with ⟨bs, t, g, hl, ht⟩ | ⟨c, t, g, hc, ht⟩ | ⟨g, ht⟩
      · exact .inl ⟨b :: bs, t, by simp only [needBytes, h, g], by simp [hl], hr.trans ht⟩
      · exact .inr (.inl ⟨c, t, by simp only [needBytes, h, g], hc, hr.trans ht⟩)
      · exact .inr (.inr ⟨by simp only [needBytes, h, g], hr.2.tooLong ht⟩)
    · exact .inr (.inr ⟨by simp only [needBytes, h], tooLong_of h1 h2⟩)

/-- The state after `n` bytes of pass 1 were delivered. -/
def readOn (n : Nat) (s : State) : State :=
  { answered n s with inPos := BitVec.ofNat 64 (s.inPos.toNat + n) }

@[simp] theorem readOn_zero (s : State) : readOn 0 s = s := by
  simp [readOn]

theorem readOn_delivered {s : State} (n : Nat) (hc : s.inPos.toNat < Config.inCap) :
    readOn n (delivered s) = readOn (n + 1) s := by
  simp only [readOn, delivered_pos hc]
  simp only [delivered, answered, List.drop_drop, Nat.add_comm 1 n, Nat.add_assoc]

theorem readOn_pos {s : State} {n : Nat} (h : s.inPos.toNat + n < 2 ^ 64) :
    (readOn n s).inPos.toNat = s.inPos.toNat + n := by
  simpa [readOn] using h

@[simp] theorem stream_readOn (p : Pass) (n : Nat) (s : State) :
    stream p (readOn n s) = stream p s := by cases p <;> rfl

theorem NoErr.readOn {s : State} (h : NoErr s) (n : Nat) : NoErr (readOn n s) := h.answered n

theorem remaining_readOn {p : Pass} {s : State} {n : Nat} (h : s.inPos.toNat + n < 2 ^ 64) :
    remaining p (readOn n s) = (remaining p s).drop n := by
  simp [remaining, readOn_pos h, List.drop_drop]

/-- The next `n` answers of the host are not `Err`. -/
def OkFor (n : Nat) (s : State) : Prop := ∀ a ∈ s.host.answers.take n, a = HostAnswer.ok

theorem NoErr.okFor {s : State} (h : NoErr s) (n : Nat) : OkFor n s :=
  fun a ha => h a (List.mem_of_mem_take ha)

theorem OkFor.head? {n : Nat} {s : State} (h : OkFor (n + 1) s) :
    s.host.answers.head? ≠ some .err := by
  unfold OkFor at h
  cases e : s.host.answers with
  | nil => simp
  | cons a rest =>
    rw [e] at h
    have := h a (by simp)
    simp [this]

theorem OkFor.next {n : Nat} {s t : State} (h : OkFor (n + 1) s)
    (ht : t.host.answers = s.host.answers.drop 1) : OkFor n t := by
  intro a ha
  rw [ht] at ha
  refine h a ?_
  cases e : s.host.answers with
  | nil => simp [e] at ha
  | cons b rest =>
    rw [e] at ha
    simp at ha
    simp [ha]

/-- With no `Err` and enough bytes, `n` times `Need()` delivers the next `n` bytes. -/
theorem needBytes_okFor (n : Nat) (s : State) (h : OkFor n s)
    (hp : s.inPos.toNat + n < 2 ^ 64) (hl : n ≤ (remaining .one s).length) :
    needBytes n s = .bytes ((remaining .one s).take n) (readOn n s) := by
  induction n generalizing s with
  | zero => simp [needBytes]
  | succ n ih =>
    have hcap : Config.inCap = 2 ^ 64 - 1 := rfl
    have hc : s.inPos.toNat < Config.inCap := by omega
    have hlen : s.inPos.toNat < (stream .one s).length := by
      rw [remaining_length, unread] at hl; omega
    have hb : (stream .one s)[s.inPos.toNat]? = some ((stream .one s)[s.inPos.toNat]) :=
      List.getElem?_eq_getElem hlen
    have hr := remaining_cons hc hb
    rw [hr] at hl ⊢
    have hi := ih (delivered s) (h.next rfl) (by rw [delivered_pos hc]; omega) (by simpa using hl)
    simp [needBytes, inNext_byte .one h.head? hb hc, hi, readOn_delivered n hc]

theorem needBytes_ok (n : Nat) (s : State) (h : NoErr s)
    (hp : s.inPos.toNat + n < 2 ^ 64) (hl : n ≤ (remaining .one s).length) :
    needBytes n s = .bytes ((remaining .one s).take n) (readOn n s) :=
  needBytes_okFor n s (h.okFor n) hp hl

/-- With no `Err` and too few bytes, `n` times `Need()` raises `E_FMT_SHORT`. -/
theorem needBytes_short (n : Nat) (s : State) (h : NoErr s)
    (hp : s.inPos.toNat + n < 2 ^ 64) (hl : (remaining .one s).length < n) :
    ∃ t, needBytes n s = .ended (.raised .eFmtShort t) ∧ ReadFrom s t := by
  induction n generalizing s with
  | zero => omega
  | succ n ih =>
    have hcap : Config.inCap = 2 ^ 64 - 1 := rfl
    have hc : s.inPos.toNat < Config.inCap := by omega
    by_cases hlen : (stream .one s).length ≤ s.inPos.toNat
    · exact ⟨answered 1 s, by simp [needBytes, inNext_eos .one h.head? hlen], .answered 1 s⟩
    · have hb : (stream .one s)[s.inPos.toNat]? = some ((stream .one s)[s.inPos.toNat]'(by omega)) :=
        List.getElem?_eq_getElem _
      have hr := remaining_cons hc hb
      rw [hr] at hl
      obtain ⟨t, ht, hrt⟩ :=
        ih (delivered s) h.delivered (by rw [delivered_pos hc]; omega) (by simpa using hl)
      exact ⟨t, by simp [needBytes, inNext_byte .one h.head? hb hc, ht],
        (ReadFrom.delivered s).trans hrt⟩

/-- When the host answers `Err` after `k` bytes, `n` times `Need()` raises `E_IO_IN`. -/
theorem needBytes_err (n k : Nat) (s : State) (more : List HostAnswer) (hk : k < n)
    (ha : s.host.answers = List.replicate k .ok ++ .err :: more)
    (hp : s.inPos.toNat + n < 2 ^ 64) (hl : k ≤ (remaining .one s).length) :
    ∃ t, needBytes n s = .ended (.raised .eIoIn t) ∧ ReadFrom s t := by
  induction n generalizing s k with
  | zero => omega
  | succ n ih =>
    have hcap : Config.inCap = 2 ^ 64 - 1 := rfl
    have hc : s.inPos.toNat < Config.inCap := by omega
    cases k with
    | zero =>
      have he : s.host.answers.head? = some .err := by simp [ha]
      exact ⟨answered 1 s, by simp [needBytes, inNext_err .one he], .answered 1 s⟩
    | succ k =>
      have he : s.host.answers.head? ≠ some .err := by simp [ha, List.replicate_succ]
      have hlen : s.inPos.toNat < (stream .one s).length := by
        rw [remaining_length, unread] at hl; omega
      have hb : (stream .one s)[s.inPos.toNat]? = some ((stream .one s)[s.inPos.toNat]) :=
        List.getElem?_eq_getElem hlen
      have hr := remaining_cons hc hb
      rw [hr] at hl
      obtain ⟨t, ht, hrt⟩ :=
        ih k (delivered s) (by omega) (by simp [delivered, ha, List.replicate_succ])
          (by rw [delivered_pos hc]; omega) (by simpa using hl)
      exact ⟨t, by simp [needBytes, inNext_byte .one he hb hc, ht],
        (ReadFrom.delivered s).trans hrt⟩

end Sys2Proof.Machine
end

