-- ==== Sys2Proof/Laws/Pack.lean ====
section
/-! SUPPORT. PACK: the bits its packer holds, and what its loop does on an input (43_bit_packer.md rule R171
to rule R176). -/

namespace Sys2Proof.Machine

open Codec

/-! ### The packer -/

/-- The packer's partial byte is in range (10_state.md rule R27). -/
def PackOk (s : State) : Prop := s.nb.toNat ≤ 7 ∧ s.acc.toNat < 2 ^ s.nb.toNat

/-- The bits the packer holds: those of the completed bytes, then those of the partial byte. -/
def held (s : State) : List Bool := payloadBits s.pay ++ bits s.acc.toNat s.nb.toNat

/-- `t` is `s` but for `PAY`, `BITLEN`, `ACC` and `NB`. -/
def PushedFrom (s t : State) : Prop :=
  t = { s with pay := t.pay, bitlen := t.bitlen, acc := t.acc, nb := t.nb }

theorem PushedFrom.refl (s : State) : PushedFrom s s := rfl

theorem PushedFrom.trans {s t u : State} (h : PushedFrom s t) (h' : PushedFrom t u) :
    PushedFrom s u := by
  unfold PushedFrom at *
  rw [h', h]

theorem shiftIn_toNat (acc : Byte) (b : Bool) :
    (shiftIn acc b).toNat = (2 * acc.toNat + b.toNat) % 256 := by
  have := acc.isLt
  cases b
  · simp [shiftIn, BitVec.toNat_shiftLeft, Nat.shiftLeft_eq]; omega
  · show ((acc <<< 1) ||| (BitVec.setWidth 8 1#1)).toNat = (2 * acc.toNat + 1) % 256
    have e : (acc <<< 1) ||| (BitVec.setWidth 8 1#1) = (acc <<< 1) + 1#8 := by
      revert acc; decide
    rw [e, BitVec.toNat_add, BitVec.toNat_shiftLeft, Nat.shiftLeft_eq]
    simp
    omega

theorem nb_succ {v : BitVec 4} (h : v.toNat ≤ 7) : (v + 1).toNat = v.toNat + 1 := by
  have e : (1 : BitVec 4).toNat = 1 := rfl
  rw [BitVec.toNat_add, e, Nat.mod_eq_of_lt (by omega)]

/-- Everything a `PushBit` can do. -/
theorem pushBit_cases (b : Bool) (s : State) :
    (2 ^ 64 ≤ s.bitlen.toNat + 1 ∧ pushBit b s = .raised .eOverflow s) ∨
    (s.bitlen.toNat + 1 < 2 ^ 64 ∧ ∃ t, pushBit b s = .done t ∧ PushedFrom s t ∧
      t.bitlen.toNat = s.bitlen.toNat + 1 ∧
      (PackOk s → PackOk t ∧ held t = held s ++ [b])) := by
  have hmax : Config.maxWord64 = 2 ^ 64 - 1 := rfl
  have hlt := s.bitlen.isLt
  by_cases hb : s.bitlen.toNat = Config.maxWord64
  · exact .inl ⟨by omega, by simp only [pushBit, hb, ↓reduceIte]⟩
  · refine .inr ⟨by omega, ?_⟩
    have hs := word_succ (v := s.bitlen) (by omega)
    by_cases hn : s.nb + 1 = 8
    · refine ⟨{ s with bitlen := s.bitlen + 1, pay := s.pay ++ [shiftIn s.acc b], acc := 0, nb := 0 },
        by simp only [pushBit, hb, hn, ↓reduceIte], rfl, hs, ?_⟩
      rintro ⟨h1, h2⟩
      have hn' : s.nb.toNat = 7 := by
        have := nb_succ h1
        rw [hn] at this
        have e : (8 : BitVec 4).toNat = 8 := rfl
        omega
      rw [hn'] at h2
      refine ⟨⟨Nat.zero_le 7, Nat.one_pos⟩, ?_⟩
      have e : (shiftIn s.acc b).toNat = 2 * s.acc.toNat + b.toNat := by
        rw [shiftIn_toNat, Nat.mod_eq_of_lt]
        have := b.toNat_le
        omega
      simp only [held, hn', payloadBits_append, payloadBits_cons, payloadBits_nil, e,
        bits_snoc _ 7 b, List.append_assoc, List.append_nil]
      simp [bits]
    · refine ⟨{ s with bitlen := s.bitlen + 1, acc := shiftIn s.acc b, nb := s.nb + 1 },
        by simp only [pushBit, hb, hn, ↓reduceIte], rfl, hs, ?_⟩
      rintro ⟨h1, h2⟩
      have hn' : s.nb.toNat ≠ 7 := by
        intro h
        refine hn (BitVec.eq_of_toNat_eq ?_)
        rw [nb_succ h1, h]
        rfl
      have hp : 2 ^ (s.nb.toNat + 1) ≤ 2 ^ 7 := Nat.pow_le_pow_right (by omega) (by omega)
      have hp2 : 2 ^ (s.nb.toNat + 1) = 2 * 2 ^ s.nb.toNat := by rw [Nat.pow_succ, Nat.mul_comm]
      have hbn := b.toNat_le
      have e : (shiftIn s.acc b).toNat = 2 * s.acc.toNat + b.toNat := by
        rw [shiftIn_toNat, Nat.mod_eq_of_lt]
        omega
      refine ⟨⟨?_, ?_⟩, ?_⟩
      · show (s.nb + 1).toNat ≤ 7
        rw [nb_succ h1]; omega
      · show (shiftIn s.acc b).toNat < 2 ^ (s.nb + 1).toNat
        rw [nb_succ h1, e, hp2]; omega
      · simp only [held, nb_succ h1, e, bits_snoc, List.append_assoc]

/-- The bits of a code are pushed where they fit in `BITLEN`. -/
theorem pushCode_ok {v : BitVec 255} {l : Nat} {s : State} (h : s.bitlen.toNat + l < 2 ^ 64) :
    ∃ t, pushCode v l s = .done t ∧ PushedFrom s t ∧ t.bitlen.toNat = s.bitlen.toNat + l ∧
      (PackOk s → PackOk t ∧ held t = held s ++ bits v.toNat l) := by
  induction l generalizing s with
  | zero => exact ⟨s, rfl, .refl s, rfl, fun hp => ⟨hp, by simp [bits]⟩⟩
  | succ l ih =>
    rcases pushBit_cases (v.getLsbD l) s with ⟨h1, -⟩ | ⟨h1, t, h2, h3, h4, h5⟩
    · omega
    · obtain ⟨u, g1, g2, g3, g4⟩ := ih (s := t) (by omega)
      refine ⟨u, by rw [pushCode, h2, bind_done, g1], h3.trans g2, by omega, fun hp => ?_⟩
      obtain ⟨p1, p2⟩ := h5 hp
      obtain ⟨q1, q2⟩ := g4 p1
      refine ⟨q1, ?_⟩
      rw [q2, p2, bits_cons, List.append_assoc]
      rfl

/-- A code that does not fit raises `E_OVERFLOW`. -/
theorem pushCode_overflow {v : BitVec 255} {l : Nat} {s : State}
    (h : 2 ^ 64 ≤ s.bitlen.toNat + l) :
    ∃ t, pushCode v l s = .raised .eOverflow t ∧ PushedFrom s t ∧ (PackOk s → PackOk t) := by
  induction l generalizing s with
  | zero => have := s.bitlen.isLt; omega
  | succ l ih =>
    rcases pushBit_cases (v.getLsbD l) s with ⟨h1, h2⟩ | ⟨h1, t, h2, h3, h4, h5⟩
    · exact ⟨s, by rw [pushCode, h2, bind_raised], .refl s, id⟩
    · obtain ⟨u, g1, g2, g3⟩ := ih (s := t) (by omega)
      exact ⟨u, by rw [pushCode, h2, bind_done, g1], h3.trans g2, fun hp => g3 (h5 hp).1⟩

theorem flush_from (s : State) : PushedFrom s (flush s) := by
  unfold flush
  split
  · rfl
  · rfl

theorem flush_bitlen (s : State) : (flush s).bitlen = s.bitlen := by
  unfold flush
  split <;> rfl

/-- `Flush()` fills the last byte with zeros (rule R174). -/
theorem flush_spec {s : State} (h : PackOk s) :
    (flush s).acc.toNat = 0 ∧ (flush s).nb = 0 ∧
      payloadBits (flush s).pay = held s ++ List.replicate ((8 - s.nb.toNat) % 8) false := by
  obtain ⟨h1, h2⟩ := h
  by_cases hn : s.nb = 0
  · have hn' : s.nb.toNat = 0 := by rw [hn]; rfl
    rw [hn'] at h2
    simp only [flush, hn, ↓reduceIte, held]
    exact ⟨by omega, trivial, by simp [bits]⟩
  · have hn' : s.nb.toNat ≠ 0 := fun e => hn (BitVec.eq_of_toNat_eq e)
    have hp : 2 ^ s.nb.toNat * 2 ^ (8 - s.nb.toNat) = 256 := by
      rw [← Nat.pow_add, show s.nb.toNat + (8 - s.nb.toNat) = 8 by omega]
    have hlt : s.acc.toNat * 2 ^ (8 - s.nb.toNat) < 256 := by
      rw [← hp]
      exact Nat.mul_lt_mul_of_pos_right h2 (by positivity)
    have e : (s.acc <<< (8 - s.nb.toNat)).toNat = s.acc.toNat * 2 ^ (8 - s.nb.toNat) := by
      rw [BitVec.toNat_shiftLeft, Nat.shiftLeft_eq, Nat.mod_eq_of_lt (by omega)]
    simp only [flush, hn, ↓reduceIte, held]
    refine ⟨rfl, trivial, ?_⟩
    have e8 : bits (s.acc.toNat * 2 ^ (8 - s.nb.toNat)) 8 =
        bits s.acc.toNat s.nb.toNat ++ List.replicate (8 - s.nb.toNat) false := by
      have := bits_shift s.acc.toNat s.nb.toNat (8 - s.nb.toNat)
      rwa [show s.nb.toNat + (8 - s.nb.toNat) = 8 by omega] at this
    rw [payloadBits_append, payloadBits_cons, payloadBits_nil, List.append_nil, e, e8,
      Nat.mod_eq_of_lt (by omega), List.append_assoc]

/-! ### One iteration -/

/-- `t` is `s` but for what PACK writes. -/
def PackedFrom (s t : State) : Prop :=
  t = { s with
    pay := t.pay, bitlen := t.bitlen, acc := t.acc, nb := t.nb, inPos := t.inPos, host := t.host } ∧
    HostKept s t ∧ (PackOk s → PackOk t)

theorem PackedFrom.refl (s : State) : PackedFrom s s := ⟨rfl, .refl s, id⟩

theorem PackedFrom.trans {s t u : State} (h : PackedFrom s t) (h' : PackedFrom t u) :
    PackedFrom s u := by
  obtain ⟨h1, h2, h3⟩ := h
  obtain ⟨h4, h5, h6⟩ := h'
  refine ⟨?_, h2.trans h5, h6 ∘ h3⟩
  rw [h4, h1]

theorem ReadFrom.packed {s t : State} (h : ReadFrom s t) : PackedFrom s t := by
  obtain ⟨h1, h2⟩ := h
  refine ⟨?_, h2, fun hp => ?_⟩
  · rw [h1]
  · rw [h1]; exact hp

theorem PushedFrom.packed {s t : State} (h : PushedFrom s t) (hp : PackOk s → PackOk t) :
    PackedFrom s t := by
  unfold PushedFrom at h
  refine ⟨?_, ?_, hp⟩
  · rw [h]
  · rw [h]; exact .refl s

theorem flush_packed (s : State) : PackedFrom s (flush s) := by
  refine (flush_from s).packed fun h => ?_
  obtain ⟨h1, h2, -⟩ := flush_spec h
  exact ⟨by rw [h2]; decide, by rw [h1]; positivity⟩

theorem packBody_err {s : State} (h : s.host.answers.head? = some .err) :
    packBody s = .leave (.raised .eIoIn (answered 1 s)) := by
  simp only [packBody, inNext_err .two h]

theorem packBody_nil {s : State} (h : s.host.answers.head? ≠ some .err)
    (hr : remaining .two s = []) : packBody s = .leave (.done (flush (answered 1 s))) := by
  simp only [packBody, inNext_of_nil h hr]

theorem packBody_miss {s : State} {b : Byte} {rest : List Byte}
    (h : s.host.answers.head? ≠ some .err) (hl : s.host.in2.length < 2 ^ 64)
    (hr : remaining .two s = b :: rest) (hb : (entry s.code b).len = 0) :
    packBody s = .leave (.raised .eLookup (delivered s)) := by
  have hf : (delivered s).code = s.code := rfl
  simp only [packBody, (inNext_of_remaining (p := .two) h hl hr).1, hf, hb, ↓reduceIte]

theorem packBody_byte {s t : State} {b : Byte} {rest : List Byte}
    (h : s.host.answers.head? ≠ some .err) (hl : s.host.in2.length < 2 ^ 64)
    (hr : remaining .two s = b :: rest) (hb : (entry s.code b).len ≠ 0)
    (ht : pushCode (entry s.code b).val (entry s.code b).len.toNat (delivered s) = .done t) :
    packBody s = .again t := by
  have hf : (delivered s).code = s.code := rfl
  simp only [packBody, (inNext_of_remaining (p := .two) h hl hr).1, hf, hb, ↓reduceIte, ht]

theorem packBody_full {s t : State} {b : Byte} {rest : List Byte}
    (h : s.host.answers.head? ≠ some .err) (hl : s.host.in2.length < 2 ^ 64)
    (hr : remaining .two s = b :: rest) (hb : (entry s.code b).len ≠ 0)
    (ht : pushCode (entry s.code b).val (entry s.code b).len.toNat (delivered s) =
      .raised .eOverflow t) :
    packBody s = .leave (.raised .eOverflow t) := by
  have hf : (delivered s).code = s.code := rfl
  simp only [packBody, (inNext_of_remaining (p := .two) h hl hr).1, hf, hb, ↓reduceIte, ht]

/-! ### The loop -/

/-- What PACK makes of a byte sequence with the entries of a table and `n` bits before: `encodeBits` over
the table as CORE holds it. -/
def pushedBits (code : Vector Code 256) : List Byte → Nat → Except ErrCode (List Bool)
  | [], _ => .ok []
  | b :: rest, n =>
    if (entry code b).len = 0 then .error .eLookup
    else if n + (entry code b).len.toNat > Config.maxWord64 then .error .eOverflow
    else
      match pushedBits code rest (n + (entry code b).len.toNat) with
      | .error e => .error e
      | .ok more => .ok (codeBits (entry code b) ++ more)

theorem remaining_pushed {p : Pass} {s t : State} (h : PushedFrom s t) :
    remaining p t = remaining p s := by
  rw [h]
  cases p <;> rfl

/-- PACK on an input without a failure, from any state of the packer. -/
theorem packLoop {s : State} {l : List Byte} {n : Nat} (hr : remaining .two s = l)
    (hn : l.length < n) (h : NoErr s) (hl : s.host.in2.length < 2 ^ 64) :
    match pushedBits s.code l s.bitlen.toNat with
    | .error e => ∃ t, iterate packBody n s = .raised e t
    | .ok bs => ∃ t u, iterate packBody n s = .done (flush t) ∧
        (PackOk s → PackOk t ∧ held t = held s ++ bs) ∧ t.bitlen.toNat = s.bitlen.toNat + bs.length ∧
        t.inPos.toNat = s.inPos.toNat + l.length ∧
        PushedFrom u t ∧ u = { answered (l.length + 1) s with inPos := t.inPos } := by
  have hmax : Config.maxWord64 = 2 ^ 64 - 1 := rfl
  induction l generalizing s n with
  | nil =>
    obtain ⟨n, rfl⟩ : ∃ m, n = m + 1 := ⟨n - 1, by simp at hn; omega⟩
    exact ⟨answered 1 s, answered 1 s, iterate_leave (packBody_nil h.head? hr),
      fun hp => ⟨hp, (List.append_nil _).symm⟩, rfl, rfl, rfl, rfl⟩
  | cons b rest ih =>
    obtain ⟨n, rfl⟩ : ∃ m, n = m + 1 := ⟨n - 1, by simp at hn; omega⟩
    have hd := inNext_of_remaining (p := .two) h.head? hl hr
    simp only [pushedBits]
    by_cases hb : (entry s.code b).len = 0
    · simp only [hb, ↓reduceIte]
      exact ⟨_, iterate_leave (packBody_miss h.head? hl hr hb)⟩
    · by_cases ho : s.bitlen.toNat + (entry s.code b).len.toNat > Config.maxWord64
      · simp only [hb, ho, ↓reduceIte]
        obtain ⟨t, ht, -⟩ := pushCode_overflow (v := (entry s.code b).val)
          (l := (entry s.code b).len.toNat) (s := delivered s)
          (by show _ ≤ s.bitlen.toNat + _; omega)
        exact ⟨t, iterate_leave (packBody_full h.head? hl hr hb ht)⟩
      · obtain ⟨t, ht, hf, hbl, hph⟩ := pushCode_ok (v := (entry s.code b).val)
          (l := (entry s.code b).len.toNat) (s := delivered s)
          (by show s.bitlen.toNat + _ < _; omega)
        have hbl' : t.bitlen.toNat = s.bitlen.toNat + (entry s.code b).len.toNat := hbl
        have hcode : t.code = s.code := by rw [hf]; rfl
        have hhost : t.host = (answered 1 s).host := by rw [hf]; rfl
        have hpos : t.inPos.toNat = s.inPos.toNat + 1 := by
          rw [hf]; exact hd.2.2.2.1
        have hi := ih (s := t) (n := n) (by rw [remaining_pushed hf]; exact hd.2.1)
          (by simp at hn; omega) (fun a ha => by rw [hhost] at ha; exact h.answered 1 a ha)
          (by rw [hhost]; exact hl)
        rw [iterate_again (packBody_byte h.head? hl hr hb ht)]
        rw [hcode, hbl'] at hi
        simp only [hb, ho, ↓reduceIte]
        revert hi
        cases pushedBits s.code rest (s.bitlen.toNat + (entry s.code b).len.toNat) with
        | error e => exact id
        | ok more =>
          rintro ⟨t', u', g1, g2, g4, g5, g6, g7⟩
          refine ⟨t', { answered ((b :: rest).length + 1) s with inPos := t'.inPos }, g1,
            fun hp => ?_, ?_, ?_, ?_, rfl⟩
          · obtain ⟨hp1, hp2⟩ := hph hp
            obtain ⟨hq1, hq2⟩ := g2 hp1
            exact ⟨hq1, by rw [hq2, hp2, List.append_assoc]; rfl⟩
          · rw [g4, List.length_append, codeBits, bits_length]; omega
          · rw [g5, hpos, List.length_cons]; omega
          · subst g7
            unfold PushedFrom at g6 hf ⊢
            rw [g6, hf]
            simp only [delivered, answered, List.drop_drop, List.length_cons]
            rw [show 1 + (rest.length + 1) = rest.length + 1 + 1 by omega]

/-- An `Err` after `k` bytes that could be packed ends PACK with `E_IO_IN`. -/
theorem packLoop_err {s : State} {l : List Byte} {n k : Nat} {more : List HostAnswer}
    (hr : remaining .two s = l) (hn : l.length < n) (hk : k ≤ l.length)
    (ha : s.host.answers = List.replicate k .ok ++ .err :: more)
    (hl : s.host.in2.length < 2 ^ 64) (hc : ∀ b ∈ l.take k, (entry s.code b).len ≠ 0)
    (hb : s.bitlen.toNat + ((l.take k).flatMap fun c => codeBits (entry s.code c)).length < 2 ^ 64) :
    ∃ t, iterate packBody n s = .raised .eIoIn t := by
  induction k generalizing s n l with
  | zero =>
    obtain ⟨n, rfl⟩ : ∃ m, n = m + 1 := ⟨n - 1, by omega⟩
    exact ⟨_, iterate_leave (packBody_err (by simp [ha]))⟩
  | succ k ih =>
    obtain ⟨n, rfl⟩ : ∃ m, n = m + 1 := ⟨n - 1, by omega⟩
    have he : s.host.answers.head? ≠ some .err := by simp [ha, List.replicate_succ]
    obtain _ | ⟨b, rest⟩ := l
    · simp at hk
    have hd := inNext_of_remaining (p := .two) he hl hr
    simp only [List.take_succ_cons, List.flatMap_cons, List.length_append, codeBits,
      bits_length] at hb
    have hb0 : (entry s.code b).len ≠ 0 := hc b (by simp)
    obtain ⟨t, ht, hf, hbl, -⟩ := pushCode_ok (v := (entry s.code b).val)
      (l := (entry s.code b).len.toNat) (s := delivered s)
      (by show s.bitlen.toNat + _ < _; omega)
    have hbl' : t.bitlen.toNat = s.bitlen.toNat + (entry s.code b).len.toNat := hbl
    have hcode : t.code = s.code := by rw [hf]; rfl
    have hhost : t.host = (answered 1 s).host := by rw [hf]; rfl
    rw [iterate_again (packBody_byte he hl hr hb0 ht)]
    refine ih (s := t) (l := rest) (by rw [remaining_pushed hf]; exact hd.2.1)
      (by simp at hn; omega) (by simpa using hk)
      (by rw [hhost]; simp [ha, List.replicate_succ]) (by rw [hhost]; exact hl) ?_ ?_
    · intro c hcm
      rw [hcode]
      exact hc c (by simp [hcm])
    · rw [hcode, hbl']
      simp only [codeBits]
      omega

/-! ### What PACK keeps -/

/-- Everything an iteration of PACK can do. -/
theorem packBody_cases (s : State) :
    (∃ t, packBody s = .leave (.done t) ∧ PackedFrom s t) ∨
    (∃ c t, packBody s = .leave (.raised c t) ∧ (c = .eIoIn ∨ c = .eLookup ∨ c = .eOverflow) ∧
      PackedFrom s t) ∨
    (packBody s = .leave (.refused .inputBeyondCapacity) ∧ TooLong .two s) ∨
    (∃ t, packBody s = .again t ∧ PackedFrom s t ∧ unread .two t < unread .two s) := by
  rcases inNext_cases .two s with ⟨_, h⟩ | ⟨_, _, h⟩ | ⟨b, _, hb, hc, h⟩ | ⟨_, h1, h2, h⟩
  · exact .inr (.inl ⟨_, _, by simp only [packBody, h], .inl rfl, (ReadFrom.answered 1 s).packed⟩)
  · exact .inl ⟨_, by simp only [packBody, h], (ReadFrom.answered 1 s).packed.trans (flush_packed _)⟩
  · have hlt := (List.getElem?_eq_some_iff.mp hb).1
    by_cases hz : (entry (delivered s).code b).len = 0
    · exact .inr (.inl ⟨_, _, by simp only [packBody, h, hz, ↓reduceIte], .inr (.inl rfl),
        (ReadFrom.delivered s).packed⟩)
    · by_cases ho : (delivered s).bitlen.toNat + (entry (delivered s).code b).len.toNat < 2 ^ 64
      · obtain ⟨t, ht, hf, -, hp⟩ :=
          pushCode_ok (v := (entry (delivered s).code b).val) (s := delivered s) ho
        refine .inr (.inr (.inr ⟨t, by simp only [packBody, h, hz, ↓reduceIte, ht],
          (ReadFrom.delivered s).packed.trans (hf.packed fun h => (hp h).1), ?_⟩))
        have hps : t.inPos.toNat = s.inPos.toNat + 1 := by rw [hf]; exact delivered_pos hc
        have hst : stream .two t = stream .two s := by rw [hf]; rfl
        simp only [unread, hps, hst]
        omega
      · obtain ⟨t, ht, hf, hp⟩ :=
          pushCode_overflow (v := (entry (delivered s).code b).val) (s := delivered s)
            (l := (entry (delivered s).code b).len.toNat) (by omega)
        exact .inr (.inl ⟨_, _, by simp only [packBody, h, hz, ↓reduceIte, ht], .inr (.inr rfl),
          (ReadFrom.delivered s).packed.trans (hf.packed hp)⟩)
  · exact .inr (.inr (.inl ⟨by simp only [packBody, h], tooLong_of h1 h2⟩))

theorem packPhase_sat (s : State) :
    (packPhase s).Sat (PackedFrom s)
      (fun c t => (c = .eIoIn ∨ c = .eLookup ∨ c = .eOverflow) ∧ PackedFrom s t) := by
  refine iterate_sat (I := PackedFrom s) ?_ ?_ _ s (.refl s)
  · intro u v hu hv
    rcases packBody_cases u with ⟨t, h, _⟩ | ⟨c, t, h, _⟩ | ⟨h, _⟩ | ⟨t, h, ht, _⟩ <;>
      rw [h] at hv <;> simp at hv
    subst hv
    exact hu.trans ht
  · intro u e hu he
    rcases packBody_cases u with ⟨t, h, ht⟩ | ⟨c, t, h, hc, ht⟩ | ⟨h, _⟩ | ⟨t, h, ht, _⟩ <;>
      rw [h] at he <;> simp at he <;> subst he
    · exact hu.trans ht
    · exact ⟨hc, hu.trans ht⟩
    · trivial

/-- PACK always ends by itself. -/
theorem packPhase_own (s : State) : (packPhase s).Own (TooLong .two s) := by
  obtain ⟨u, e, hus, hu, he⟩ := iterate_leaves (body := packBody) (I := PackedFrom s)
    (unread .two) (by
      intro u v hus hv
      rcases packBody_cases u with ⟨t, h, _⟩ | ⟨c, t, h, _⟩ | ⟨h, _⟩ | ⟨t, h, ht, hm⟩ <;>
        rw [h] at hv <;> simp at hv
      subst hv
      exact ⟨hus.trans ht, hm⟩) (unread .two s + 1) s (.refl s) (by omega)
  rw [packPhase, he]
  rcases packBody_cases u with ⟨t, h, _⟩ | ⟨c, t, h, _⟩ | ⟨h, hl⟩ | ⟨t, h, _⟩ <;>
    rw [h] at hu <;> simp at hu <;> subst hu
  · trivial
  · trivial
  · exact ⟨rfl, hus.2.1.tooLong hl⟩

end Sys2Proof.Machine
end

