-- ==== Sys2Proof/Laws/Unpack.lean ====
section
/-! SUPPORT. UNPACK: its walk of the tree against `unpack`, and what it keeps (45_bit_unpacker.md rule R211
to rule R220). -/

namespace Sys2Proof.Machine

open Codec

/-! ### One code, as a function -/

/-- One code of `decodeWalk`: the byte reached, the declared bits and the physical bits left. -/
def walkOne : Tree → Nat → List Bool → Except ErrCode (Byte × Nat × List Bool)
  | _, 0, _ => .error .eFmtBitlen
  | _, _ + 1, [] => .error .eFmtTrunc
  | at_, left + 1, b :: more =>
    match descend b at_ with
    | .leaf byte _ => .ok (byte, left, more)
    | .internal l r f m => walkOne (.internal l r f m) left more

/-- `decodeWalk` is one code after the other, until no declared bit is left. -/
theorem decodeWalk_eq (root at_ : Tree) (left : Nat) (bs : List Bool) :
    decodeWalk root at_ left bs =
      match walkOne at_ left bs with
      | .error e => .error e
      | .ok (byte, left', more) =>
        if left' = 0 then .ok [byte]
        else
          match decodeWalk root root left' more with
          | .error e => .error e
          | .ok out => .ok (byte :: out) := by
  induction left generalizing at_ bs with
  | zero => simp [decodeWalk, walkOne]
  | succ left ih =>
    cases bs with
    | nil => simp [decodeWalk, walkOne]
    | cons b more =>
      rw [decodeWalk, walkOne]
      cases descend b at_ with
      | leaf byte f => rfl
      | internal l r f m => exact ih _ more

theorem walkOne_left {at_ : Tree} {left : Nat} {bs : List Bool} {r : Byte × Nat × List Bool}
    (h : walkOne at_ left bs = .ok r) :
    r.2.1 < left ∧ r.2.2 = bs.drop (left - r.2.1) ∧ left - r.2.1 ≤ bs.length := by
  induction left generalizing at_ bs with
  | zero => simp [walkOne] at h
  | succ left ih =>
    cases bs with
    | nil => simp [walkOne] at h
    | cons b more =>
      rw [walkOne] at h
      cases hd : descend b at_ with
      | leaf byte f =>
        rw [hd] at h
        simp only [Except.ok.injEq] at h
        subst h
        simp
      | internal l r' f m =>
        rw [hd] at h
        obtain ⟨h1, h2, h3⟩ := ih h
        refine ⟨by omega, ?_, by simp only [List.length_cons]; omega⟩
        rw [h2, show left + 1 - r.2.1 = left - r.2.1 + 1 by omega, List.drop_succ_cons]

/-! ### Where UNPACK stands -/

/-- `t` is where UNPACK, begun in `s`, stands after `c` bits. -/
def UnpackAt (s : State) (c : Nat) (t : State) : Prop :=
  t = { answered ((c + 7) / 8) s with
    cursor := t.cursor, walk := t.walk, inPos := t.inPos, obuf := t.obuf } ∧
  t.cursor.toNat = c ∧ t.inPos.toNat = s.hdrlen.toNat + (c + 7) / 8

theorem UnpackAt.host {s t : State} {c : Nat} (h : UnpackAt s c t) :
    t.host = (answered ((c + 7) / 8) s).host := by rw [h.1]

theorem UnpackAt.node {s t : State} {c : Nat} (h : UnpackAt s c t) : t.node = s.node := by
  rw [h.1]; rfl

theorem UnpackAt.bitlen {s t : State} {c : Nat} (h : UnpackAt s c t) : t.bitlen = s.bitlen := by
  rw [h.1]; rfl

theorem UnpackAt.payload {s t : State} {c : Nat} (h : UnpackAt s c t) : payload t = payload s := by
  rw [h.1]; rfl

theorem UnpackAt.noErr {s t : State} {c : Nat} (h : UnpackAt s c t) (hs : NoErr s) : NoErr t := by
  intro a ha
  rw [h.host] at ha
  exact hs.answered _ a ha

theorem UnpackAt.walk {s t : State} {c : Nat} (h : UnpackAt s c t) (i : NodeId) :
    UnpackAt s c { t with walk := i } := by
  obtain ⟨h1, h2, h3⟩ := h
  refine ⟨?_, h2, h3⟩
  rw [h1]

theorem UnpackAt.emit {s t : State} {c : Nat} (h : UnpackAt s c t) (bs : List Byte) :
    UnpackAt s c (emitSeq bs t) := by
  obtain ⟨h1, h2, h3⟩ := h
  refine ⟨?_, h2, h3⟩
  unfold emitSeq
  rw [h1]

theorem UnpackAt.start {s : State} (h0 : s.cursor = 0) (hp : s.inPos.toNat = s.hdrlen.toNat) :
    UnpackAt s 0 s := ⟨by simp, by rw [h0]; rfl, by simpa using hp⟩

/-- The host serves `k` payload bytes, and then the call for one more ends UNPACK with `x`: the stream is at
its end, or the answer is `Err`. -/
def Serves (s : State) (k : Nat) (x : ErrCode) : Prop :=
  (NoErr s ∧ k = (payload s).length ∧ x = .eFmtTrunc) ∨
  (∃ more, s.host.answers = List.replicate k .ok ++ .err :: more ∧ k ≤ (payload s).length ∧
    x = .eIoIn)

theorem Serves.le {s : State} {k : Nat} {x : ErrCode} (h : Serves s k x) :
    k ≤ (payload s).length := by
  rcases h with ⟨_, h, _⟩ | ⟨_, _, h, _⟩ <;> omega

theorem Serves.length {s : State} {k : Nat} {x : ErrCode} (h : Serves s k x) :
    (payloadBits ((payload s).take k)).length = 8 * k := by
  rw [payloadBits_length, List.length_take, Nat.min_eq_left h.le]

/-- The host's answer where `i` calls were served. -/
theorem Serves.head {s : State} {k i : Nat} {x : ErrCode} (h : Serves s k x) (hi : i < k) :
    (answered i s).host.answers.head? ≠ some .err := by
  rcases h with ⟨h, -, -⟩ | ⟨more, h, -, -⟩
  · exact (h.answered i).head?
  · show (s.host.answers.drop i).head? ≠ _
    obtain ⟨j, rfl⟩ : ∃ j, k = i + 1 + j := ⟨k - i - 1, by omega⟩
    rw [h, List.drop_append_of_le_length (by simp; omega), List.drop_replicate,
      show i + 1 + j - i = j + 1 by omega, List.replicate_succ]
    simp

/-- What the bits of the served bytes have in common with those of the payload. -/
theorem payloadBits_take {p : List Byte} {k c : Nat} (h : c < 8 * k) :
    (payloadBits (p.take k))[c]? = (payloadBits p)[c]? := by
  rw [← payBit_eq, ← payBit_eq, payBit, payBit, List.getElem?_take, if_pos (by omega)]

/-- What the call for a payload byte past the served ones does. -/
theorem Serves.last {s t : State} {k : Nat} {x : ErrCode} (h : Serves s k x)
    (ht : t.host = (answered k s).host) (hp : t.inPos.toNat = s.hdrlen.toNat + k)
    (h8 : t.cursor.toNat % 8 = 0) : ∃ u, fetchPayload t = .raised x u := by
  rcases h with ⟨h, hk, rfl⟩ | ⟨more, h, hk, rfl⟩
  · have hn : NoErr t := fun a ha => h.answered k a (by rwa [ht] at ha)
    have hst : stream .one t = s.host.in1 := by
      show t.host.in1 = _
      rw [ht]; rfl
    have hl : (payload s).length = s.host.in1.length - s.hdrlen.toNat := by simp [payload]
    have he := inNext_eos .one hn.head? (show (stream .one t).length ≤ _ by rw [hst, hp]; omega)
    exact ⟨answered 1 t, by simp only [fetchPayload, h8, ↓reduceIte, he]⟩
  · have he : t.host.answers.head? = some .err := by
      rw [ht]
      show (s.host.answers.drop k).head? = _
      rw [h, List.drop_append_of_le_length (by simp), List.drop_replicate, Nat.sub_self]
      rfl
    exact ⟨answered 1 t, by simp only [fetchPayload, h8, ↓reduceIte, inNext_err .one he]⟩

/-- What `ConsumeBit` does where UNPACK stands. -/
theorem consumeBit_at {s t : State} {c k : Nat} {x : ErrCode} (h : UnpackAt s c t)
    (hs : Serves s k x) (_hl : s.host.in1.length < 2 ^ 64) (hck : c ≤ 8 * k) :
    (s.bitlen.toNat ≤ c → consumeBit t = .ended (.raised .eFmtBitlen t)) ∧
    (c < s.bitlen.toNat → (payloadBits ((payload s).take k))[c]? = none →
      ∃ u, consumeBit t = .ended (.raised x u)) ∧
    (∀ b, c < s.bitlen.toNat → (payloadBits ((payload s).take k))[c]? = some b →
      ∃ u, consumeBit t = .bit b u ∧ UnpackAt s (c + 1) u ∧ u.walk = t.walk ∧ u.obuf = t.obuf) := by
  obtain ⟨h1, h2, h3⟩ := id h
  have hbl := h.bitlen
  refine ⟨fun hc => ?_, fun hc hn => ?_, fun b hc hb => ?_⟩
  · simp only [consumeBit, hbl, h2, hc, ↓reduceIte]
  all_goals have hnc : ¬ s.bitlen.toNat ≤ c := by omega
  · rw [List.getElem?_eq_none_iff, hs.length] at hn
    obtain rfl : c = 8 * k := by omega
    obtain ⟨u, hu⟩ := hs.last (by rw [h.host, show (8 * k + 7) / 8 = k by omega])
      (by rw [h3]; omega) (by rw [h2]; omega)
    exact ⟨u, by simp only [consumeBit, hbl, h2, hnc, ↓reduceIte, hu]⟩
  · have hck' : c < 8 * k := by
      have := (List.getElem?_eq_some_iff.mp hb).1
      rwa [hs.length] at this
    rw [payloadBits_take hck'] at hb
    have hplen : (payload s).length = s.host.in1.length - s.hdrlen.toNat := by simp [payload]
    have hkl := hs.le
    have hst : stream .one t = s.host.in1 := by
      show t.host.in1 = _
      rw [h.host]; rfl
    have hpb : payBit (payload t) c = some b := by rw [h.payload, payBit_eq, hb]
    have hcs : (t.cursor + 1).toNat = c + 1 := by
      have := s.bitlen.isLt
      rw [word_succ (by omega), h2]
    by_cases h8 : c % 8 = 0
    · have hcap : Config.inCap = 2 ^ 64 - 1 := rfl
      have hc' : t.inPos.toNat < Config.inCap := by rw [h3]; omega
      have hbyte : (stream .one t)[t.inPos.toNat]? = some ((stream .one t)[t.inPos.toNat]'(by
          rw [hst, h3]; omega)) := List.getElem?_eq_getElem _
      have hhead : t.host.answers.head? ≠ some .err := by
        rw [h.host]
        exact hs.head (by omega)
      have he := inNext_byte .one hhead hbyte hc'
      have hpd : payBit (payload (delivered t)) (delivered t).cursor.toNat = some b := by
        have : (delivered t).cursor = t.cursor := rfl
        rw [this, h2]
        exact hpb
      refine ⟨{ delivered t with cursor := t.cursor + 1 }, ?_, ⟨?_, hcs, ?_⟩, rfl, rfl⟩
      · simp only [consumeBit, hbl, h2, hnc, ↓reduceIte, fetchPayload, h8, he, hpd]
        rfl
      · rw [h1]
        simp only [delivered, answered, List.drop_drop]
        rw [show (c + 1 + 7) / 8 = (c + 7) / 8 + 1 by omega]
      · show (delivered t).inPos.toNat = _
        rw [delivered_pos hc', h3]
        omega
    · refine ⟨{ t with cursor := t.cursor + 1 }, ?_, ⟨?_, hcs, ?_⟩, rfl, rfl⟩
      · simp only [consumeBit, hbl, h2, hnc, ↓reduceIte, fetchPayload, h8, hpb]
      · rw [h1, show (c + 1 + 7) / 8 = (c + 7) / 8 by omega]
      · show t.inPos.toNat = _
        rw [h3]
        omega

/-- A fault of the walk over the served bits, as the machine raises it. -/
def faultServed (x e : ErrCode) : ErrCode := if e = .eFmtTrunc then x else e

@[simp] theorem faultServed_trunc (x : ErrCode) : faultServed x .eFmtTrunc = x := rfl

@[simp] theorem faultServed_bitlen (x : ErrCode) : faultServed x .eFmtBitlen = .eFmtBitlen := rfl

/-! ### One code -/

/-- The walk of one code from an internal node. -/
theorem walkLoop {s t : State} {c k n left : Nat} {x : ErrCode} {l r : Tree} {f : Nat}
    {m : Byte}
    (h : UnpackAt s c t) (hs : Serves s k x) (hl : s.host.in1.length < 2 ^ 64) (hck : c ≤ 8 * k)
    (hr : Shaped s.node t.walk (.internal l r f m)) (hc : s.bitlen.toNat = c + left)
    (hn : left < n) :
    match walkOne (.internal l r f m) left ((payloadBits ((payload s).take k)).drop c) with
    | .error e => ∃ u, iterate walkBody n t = .raised (faultServed x e) u
    | .ok (byte, left', _) => ∃ u, iterate walkBody n t = .done u ∧
        UnpackAt s (s.bitlen.toNat - left') u ∧ u.obuf = t.obuf ∧
        (nodeAt s.node u.walk).leaf = true ∧ (nodeAt s.node u.walk).byte = byte := by
  induction left generalizing c n t l r f m with
  | zero =>
    obtain ⟨n, rfl⟩ : ∃ k, n = k + 1 := ⟨n - 1, by omega⟩
    have hleaf : (nodeAt t.node t.walk).leaf = false := by rw [h.node]; exact hr.1
    have hb := (consumeBit_at h hs hl hck).1 (by omega)
    refine ⟨t, iterate_leave ?_⟩
    simp only [walkBody, hleaf, Bool.false_eq_true, ↓reduceIte, hb, faultServed_bitlen]
  | succ left ih =>
    obtain ⟨n, rfl⟩ : ∃ k, n = k + 1 := ⟨n - 1, by omega⟩
    obtain ⟨hr1, hr2, hr3⟩ := hr
    have hleaf : (nodeAt t.node t.walk).leaf = false := by rw [h.node]; exact hr1
    have hcb := consumeBit_at h hs hl hck
    cases hbit : (payloadBits ((payload s).take k))[c]? with
    | none =>
      obtain ⟨u, hu⟩ := hcb.2.1 (by omega) hbit
      have hd : (payloadBits ((payload s).take k)).drop c = [] :=
        List.drop_eq_nil_of_le (List.getElem?_eq_none_iff.mp hbit)
      rw [hd, walkOne]
      refine ⟨u, iterate_leave ?_⟩
      simp only [walkBody, hleaf, Bool.false_eq_true, ↓reduceIte, hu, faultServed_trunc]
    | some b =>
      obtain ⟨u, hu, hu1, hu2, hu3⟩ := hcb.2.2 b (by omega) hbit
      obtain ⟨hlt, hbe⟩ := List.getElem?_eq_some_iff.mp hbit
      have hlt8 := hlt
      rw [hs.length] at hlt8
      have hd : (payloadBits ((payload s).take k)).drop c =
          b :: (payloadBits ((payload s).take k)).drop (c + 1) := by
        rw [List.drop_eq_getElem_cons hlt, hbe]
      have hbody : walkBody t = .again { u with walk := childOn b (nodeAt s.node t.walk) } := by
        simp only [walkBody, hleaf, Bool.false_eq_true, ↓reduceIte, hu, hu2, hu1.node]
      have hu' := hu1.walk (childOn b (nodeAt s.node t.walk))
      have hchild : Shaped s.node (childOn b (nodeAt s.node t.walk))
          (descend b (.internal l r f m)) := by
        cases b
        · exact hr2
        · exact hr3
      rw [hd, walkOne, iterate_again hbody]
      cases hdes : descend b (.internal l r f m) with
      | leaf byte g =>
        rw [hdes] at hchild
        obtain ⟨k, rfl⟩ : ∃ k, n = k + 1 := ⟨n - 1, by omega⟩
        refine ⟨{ u with walk := childOn b (nodeAt s.node t.walk) }, iterate_leave ?_, ?_, hu3,
          hchild.1, hchild.2⟩
        · have : (nodeAt u.node (childOn b (nodeAt s.node t.walk))).leaf = true := by
            rw [hu1.node]; exact hchild.1
          simp only [walkBody, this, ↓reduceIte]
        · rw [show s.bitlen.toNat - left = c + 1 by omega]
          exact hu'
      | internal l' r' f' m' =>
        rw [hdes] at hchild
        have hi := ih (n := n) hu' (by omega) hchild (by omega) (by omega)
        revert hi
        dsimp only
        cases walkOne (.internal l' r' f' m') left ((payloadBits ((payload s).take k)).drop (c + 1)) with
        | error e => exact id
        | ok r =>
          rintro ⟨v, hv1, hv2, hv3, hv4⟩
          exact ⟨v, hv1, hv2, hv3.trans hu3, hv4⟩

/-- One code from the root. -/
theorem walkCode_at {s t : State} {c k left : Nat} {x : ErrCode} {root : NodeId} {tr : Tree}
    (h : UnpackAt s c t)
    (hs : Serves s k x) (hl : s.host.in1.length < 2 ^ 64) (hck : c ≤ 8 * k) (hr : Shaped s.node root tr)
    (hc : s.bitlen.toNat = c + left) :
    match walkOne tr left ((payloadBits ((payload s).take k)).drop c) with
    | .error e => ∃ u, walkCode root t = .raised (faultServed x e) u
    | .ok (byte, left', _) => ∃ u, walkCode root t = .done u ∧
        UnpackAt s (s.bitlen.toNat - left') u ∧ u.obuf = t.obuf ∧
        (nodeAt s.node u.walk).byte = byte := by
  have hw := h.walk root
  cases tr with
  | internal l r f m =>
    have hleaf : (nodeAt t.node root).leaf = false := by rw [h.node]; exact hr.1
    have hcode : walkCode root t = iterate walkBody (bitsLeft t + 1) { t with walk := root } := by
      rw [walkCode, if_neg (by simp [hleaf])]
    have hbits : bitsLeft t = left := by rw [bitsLeft, h.bitlen, h.2.1]; omega
    have hi := walkLoop (n := bitsLeft t + 1) hw hs hl hck hr hc (by omega)
    rw [hcode]
    revert hi
    cases walkOne (.internal l r f m) left ((payloadBits ((payload s).take k)).drop c) with
    | error e => exact id
    | ok z =>
      rintro ⟨u, h1, h2, h3, -, h4⟩
      exact ⟨u, h1, h2, h3, h4⟩
  | leaf b f =>
    have hleaf : (nodeAt t.node root).leaf = true := by rw [h.node]; exact hr.1
    have hcode : walkCode root t =
        match consumeBit { t with walk := root } with
        | .bit _ s1 => .done s1
        | .ended e => e := by
      unfold walkCode
      exact if_pos hleaf
    have hcb := consumeBit_at hw hs hl hck
    rw [hcode]
    cases left with
    | zero =>
      rw [hcb.1 (by omega)]
      exact ⟨_, rfl⟩
    | succ left =>
      cases hbit : (payloadBits ((payload s).take k))[c]? with
      | none =>
        obtain ⟨u, hu⟩ := hcb.2.1 (by omega) hbit
        have hd : (payloadBits ((payload s).take k)).drop c = [] :=
          List.drop_eq_nil_of_le (List.getElem?_eq_none_iff.mp hbit)
        rw [hd, hu]
        exact ⟨u, rfl⟩
      | some z =>
        obtain ⟨u, hu, hu1, hu2, hu3⟩ := hcb.2.2 z (by omega) hbit
        obtain ⟨hlt, hbe⟩ := List.getElem?_eq_some_iff.mp hbit
        have hd : (payloadBits ((payload s).take k)).drop c =
            z :: (payloadBits ((payload s).take k)).drop (c + 1) := by
          rw [List.drop_eq_getElem_cons hlt, hbe]
        rw [hd, hu]
        refine ⟨u, rfl, ?_, hu3, ?_⟩
        · rw [show s.bitlen.toNat - left = c + 1 by omega]
          exact hu1
        · rw [hu2]
          exact hr.2

/-! ### The loop -/

theorem symbolLoop {s t : State} {c k n left : Nat} {x : ErrCode} {root : NodeId} {tr : Tree}
    (h : UnpackAt s c t)
    (hs : Serves s k x) (hl : s.host.in1.length < 2 ^ 64) (hck : c ≤ 8 * k) (hr : Shaped s.node root tr)
    (hc : s.bitlen.toNat = c + left) (hn : left < n) :
    match decodeWalk tr tr left ((payloadBits ((payload s).take k)).drop c) with
    | .error e => ∃ u, iterate (symbolBody root) n t = .raised (faultServed x e) u
    | .ok out => ∃ u, iterate (symbolBody root) n t = .done u ∧ UnpackAt s s.bitlen.toNat u ∧
        u.obuf = t.obuf ++ out := by
  induction n generalizing c left t with
  | zero => omega
  | succ n ih =>
    rw [decodeWalk_eq]
    have hw := walkCode_at h hs hl hck hr hc
    revert hw
    cases hone : walkOne tr left ((payloadBits ((payload s).take k)).drop c) with
    | error e =>
      rintro ⟨u, hu⟩
      exact ⟨u, iterate_leave (by simp only [symbolBody, hu])⟩
    | ok z =>
      obtain ⟨byte, left', more⟩ := z
      obtain ⟨hlt, hmore, hused⟩ := walkOne_left hone
      simp only [List.length_drop, hs.length] at hlt hmore hused
      rintro ⟨u, hu, hu1, hu2, hu3⟩
      have hemit : emitWalked u = emitSeq [byte] u := by rw [emitWalked, hu1.node, hu3]
      have hcur : u.cursor.toNat = s.bitlen.toNat - left' := hu1.2.1
      have he := hu1.emit [byte]
      by_cases hz : left' = 0
      · simp only [hz, ↓reduceIte]
        have hge : u.cursor.toNat ≥ u.bitlen.toNat := by rw [hcur, hu1.bitlen]; omega
        refine ⟨emitSeq [byte] u, iterate_leave ?_, ?_, ?_⟩
        · simp only [symbolBody, hu, hge, ↓reduceIte, hemit]
        · rw [hz, Nat.sub_zero] at he
          exact he
        · show u.obuf ++ [byte] = _
          rw [hu2]
      · simp only [hz, ↓reduceIte]
        have hge : ¬ u.cursor.toNat ≥ u.bitlen.toNat := by rw [hcur, hu1.bitlen]; omega
        have hi := ih he (by omega) (show s.bitlen.toNat = s.bitlen.toNat - left' + left' by omega) (by omega)
        rw [iterate_again (s' := emitSeq [byte] u)
          (by simp only [symbolBody, hu, hge, ↓reduceIte, hemit])]
        have hdm : more = (payloadBits ((payload s).take k)).drop (s.bitlen.toNat - left') := by
          rw [hmore, List.drop_drop]
          congr 1
          omega
        rw [hdm]
        revert hi
        cases decodeWalk tr tr left' ((payloadBits ((payload s).take k)).drop (s.bitlen.toNat - left')) with
        | error e => exact id
        | ok out =>
          rintro ⟨v, hv1, hv2, hv3⟩
          refine ⟨v, hv1, hv2, ?_⟩
          rw [hv3]
          show u.obuf ++ [byte] ++ out = _
          rw [hu2, List.append_assoc]
          rfl

/-- UNPACK against `unpack` on the bytes the host serves (rule R211, rule R212). -/
theorem unpackPhase_served {s : State} {r : NodeId} {tr : Tree} {k : Nat} {x : ErrCode}
    (hs : Serves s k x) (hl : s.host.in1.length < 2 ^ 64) (hroot : s.root = some r)
    (hr : Shaped s.node r tr) (h0 : s.cursor = 0) (hp : s.inPos.toNat = s.hdrlen.toNat) :
    match unpack (some tr) s.bitlen.toNat ((payload s).take k) with
    | .error e => ∃ t, unpackPhase s = .raised (faultServed x e) t
    | .ok out => ∃ t, unpackPhase s = .done t ∧ UnpackAt s s.bitlen.toNat t ∧
        t.obuf = s.obuf ++ out := by
  have hc : s.bitlen.toNat = 0 + s.bitlen.toNat := (Nat.zero_add _).symm
  have hb : bitsLeft s = s.bitlen.toNat := by
    have : s.cursor.toNat = 0 := by rw [h0]; rfl
    rw [bitsLeft, this, Nat.sub_zero]
  have := symbolLoop (n := bitsLeft s + 1) (.start h0 hp) hs hl (Nat.zero_le _) hr hc (by omega)
  rw [List.drop_zero] at this
  have e : unpackPhase s = iterate (symbolBody r) (bitsLeft s + 1) s := by
    rw [unpackPhase, hroot]
  rw [e]
  exact this

/-- UNPACK against `unpack` (rule R211). -/
theorem unpackPhase_eq {s : State} {r : NodeId} {tr : Tree} (hs : NoErr s)
    (hl : s.host.in1.length < 2 ^ 64) (hroot : s.root = some r) (hr : Shaped s.node r tr)
    (h0 : s.cursor = 0) (hp : s.inPos.toNat = s.hdrlen.toNat) :
    match unpack (some tr) s.bitlen.toNat (payload s) with
    | .error e => ∃ t, unpackPhase s = .raised e t
    | .ok out => ∃ t, unpackPhase s = .done t ∧ UnpackAt s s.bitlen.toNat t ∧
        t.obuf = s.obuf ++ out := by
  have h := unpackPhase_served (.inl ⟨hs, rfl, rfl⟩) hl hroot hr h0 hp
  rw [List.take_length] at h
  revert h
  cases unpack (some tr) s.bitlen.toNat (payload s) with
  | ok out => exact id
  | error e =>
    have he : faultServed .eFmtTrunc e = e := by
      unfold faultServed
      split
      · rename_i h
        exact h.symm
      · rfl
    simp only [he]
    exact id

/-- UNPACK where the host answers `Err` to a payload byte it needs (rule R212). -/
theorem unpackPhase_err {s : State} {r : NodeId} {tr : Tree} {k : Nat} {more : List HostAnswer}
    (ha : s.host.answers = List.replicate k .ok ++ .err :: more) (hk : k ≤ (payload s).length)
    (hl : s.host.in1.length < 2 ^ 64) (hroot : s.root = some r) (hr : Shaped s.node r tr)
    (h0 : s.cursor = 0) (hp : s.inPos.toNat = s.hdrlen.toNat)
    (he : unpack (some tr) s.bitlen.toNat ((payload s).take k) = .error .eFmtTrunc) :
    ∃ t, unpackPhase s = .raised .eIoIn t := by
  have h := unpackPhase_served (.inr ⟨more, ha, hk, rfl⟩) hl hroot hr h0 hp
  rw [he] at h
  exact h

/-! ### What UNPACK keeps -/

/-- `t` is `s` but for what UNPACK writes, and the staged output has only grown. -/
def UnpackedFrom (s t : State) : Prop :=
  t = { s with
    cursor := t.cursor, walk := t.walk, inPos := t.inPos, host := t.host, obuf := t.obuf } ∧
    HostKept s t ∧ s.obuf <+: t.obuf

theorem UnpackedFrom.refl (s : State) : UnpackedFrom s s := ⟨rfl, .refl s, List.prefix_refl _⟩

theorem UnpackedFrom.trans {s t u : State} (h : UnpackedFrom s t) (h' : UnpackedFrom t u) :
    UnpackedFrom s u := by
  obtain ⟨h1, h2, h3⟩ := h
  obtain ⟨h4, h5, h6⟩ := h'
  refine ⟨?_, h2.trans h5, h3.trans h6⟩
  rw [h4, h1]

theorem ReadFrom.unpacked {s t : State} (h : ReadFrom s t) : UnpackedFrom s t := by
  obtain ⟨h1, h2⟩ := h
  refine ⟨?_, h2, ?_⟩
  · rw [h1]
  · rw [h1]

theorem UnpackedFrom.setWalk (s : State) (i : NodeId) : UnpackedFrom s { s with walk := i } :=
  ⟨rfl, .refl s, List.prefix_refl _⟩

theorem UnpackedFrom.emitWalked (s : State) : UnpackedFrom s (emitWalked s) :=
  ⟨rfl, .refl s, List.prefix_append _ _⟩

/-- Everything a `ConsumeBit` can do. -/
theorem consumeBit_cases (s : State) :
    (∃ b t, consumeBit s = .bit b t ∧ UnpackedFrom s t ∧ bitsLeft t < bitsLeft s ∧
      t.walk = s.walk) ∨
    (∃ c t, consumeBit s = .ended (.raised c t) ∧
      (c = .eIoIn ∨ c = .eFmtBitlen ∨ c = .eFmtTrunc) ∧ UnpackedFrom s t) ∨
    (consumeBit s = .ended (.refused .inputBeyondCapacity) ∧ TooLong .one s) := by
  by_cases hge : s.cursor.toNat ≥ s.bitlen.toNat
  · exact .inr (.inl ⟨_, s, by simp only [consumeBit, hge, ↓reduceIte], .inr (.inl rfl), .refl s⟩)
  · have hbl := s.bitlen.isLt
    have key : ∀ t : State, fetchPayload s = .done t → ReadFrom s t →
        (∃ b t, consumeBit s = .bit b t ∧ UnpackedFrom s t ∧ bitsLeft t < bitsLeft s ∧
          t.walk = s.walk) ∨
        (∃ c t, consumeBit s = .ended (.raised c t) ∧
          (c = .eIoIn ∨ c = .eFmtBitlen ∨ c = .eFmtTrunc) ∧ UnpackedFrom s t) ∨
        (consumeBit s = .ended (.refused .inputBeyondCapacity) ∧ TooLong .one s) := by
      intro t ht hr
      have hc : t.cursor = s.cursor := by rw [hr.1]
      have hb : t.bitlen = s.bitlen := by rw [hr.1]
      have hw : t.walk = s.walk := by rw [hr.1]
      cases hp : payBit (payload t) t.cursor.toNat with
      | none =>
        exact .inr (.inl ⟨_, t, by simp only [consumeBit, hge, ↓reduceIte, ht, hp],
          .inr (.inr rfl), hr.unpacked⟩)
      | some b =>
        refine .inl ⟨b, { t with cursor := t.cursor + 1 },
          by simp only [consumeBit, hge, ↓reduceIte, ht, hp],
          hr.unpacked.trans ⟨rfl, .refl t, List.prefix_refl _⟩, ?_, hw⟩
        have e : (t.cursor + 1).toNat = s.cursor.toNat + 1 := by
          rw [hc]
          exact word_succ (by omega)
        simp only [bitsLeft, hb, e]
        omega
    by_cases h8 : s.cursor.toNat % 8 = 0
    · rcases inNext_cases .one s with ⟨_, h⟩ | ⟨_, _, h⟩ | ⟨b, _, _, _, h⟩ | ⟨_, h1, h2, h⟩
      · exact .inr (.inl ⟨_, _, by simp only [consumeBit, hge, ↓reduceIte, fetchPayload, h8, h],
          .inl rfl, (ReadFrom.answered 1 s).unpacked⟩)
      · exact .inr (.inl ⟨_, _, by simp only [consumeBit, hge, ↓reduceIte, fetchPayload, h8, h],
          .inr (.inr rfl), (ReadFrom.answered 1 s).unpacked⟩)
      · exact key (delivered s) (by simp only [fetchPayload, h8, ↓reduceIte, h]) (.delivered s)
      · exact .inr (.inr ⟨by simp only [consumeBit, hge, ↓reduceIte, fetchPayload, h8, h],
          tooLong_of h1 h2⟩)
    · exact key s (by simp only [fetchPayload, h8, ↓reduceIte]) (.refl s)

/-- Everything an iteration of the inner loop can do. -/
theorem walkBody_cases (s : State) :
    walkBody s = .leave (.done s) ∨
    (∃ c t, walkBody s = .leave (.raised c t) ∧
      (c = .eIoIn ∨ c = .eFmtBitlen ∨ c = .eFmtTrunc) ∧ UnpackedFrom s t) ∨
    (walkBody s = .leave (.refused .inputBeyondCapacity) ∧ TooLong .one s) ∨
    (∃ t, walkBody s = .again t ∧ UnpackedFrom s t ∧ bitsLeft t < bitsLeft s) := by
  by_cases hleaf : (nodeAt s.node s.walk).leaf = true
  · exact .inl (by simp only [walkBody, hleaf, ↓reduceIte])
  · rcases consumeBit_cases s with ⟨b, t, h, hu, hb, _⟩ | ⟨c, t, h, hc, hu⟩ | ⟨h, hl⟩
    · exact .inr (.inr (.inr ⟨{ t with walk := childOn b (nodeAt t.node t.walk) },
        by simp only [walkBody, hleaf, Bool.false_eq_true, ↓reduceIte, h],
        hu.trans (.setWalk t _), hb⟩))
    · exact .inr (.inl ⟨c, t, by simp only [walkBody, hleaf, Bool.false_eq_true, ↓reduceIte, h], hc, hu⟩)
    · exact .inr (.inr (.inl
        ⟨by simp only [walkBody, hleaf, Bool.false_eq_true, ↓reduceIte, h], hl⟩))

/-- Everything the walk of one code can do; a code that ends has consumed a bit. -/
theorem walkCode_cases (root : NodeId) (s : State) :
    (∃ t, walkCode root s = .done t ∧ UnpackedFrom s t ∧ bitsLeft t < bitsLeft s) ∨
    (∃ c t, walkCode root s = .raised c t ∧
      (c = .eIoIn ∨ c = .eFmtBitlen ∨ c = .eFmtTrunc) ∧ UnpackedFrom s t) ∨
    (walkCode root s = .refused .inputBeyondCapacity ∧ TooLong .one s) := by
  have hb0 : bitsLeft { s with walk := root } = bitsLeft s := rfl
  by_cases hleaf : (nodeAt s.node root).leaf = true
  · rcases consumeBit_cases { s with walk := root } with ⟨b, t, h, hu, hb, _⟩ | ⟨c, t, h, hc, hu⟩ | ⟨h, hl⟩
    · exact .inl ⟨t, by simp only [walkCode, hleaf, ↓reduceIte, h], (UnpackedFrom.setWalk s root).trans hu, hb⟩
    · exact .inr (.inl ⟨c, t, by simp only [walkCode, hleaf, ↓reduceIte, h], hc,
        (UnpackedFrom.setWalk s root).trans hu⟩)
    · exact .inr (.inr ⟨by simp only [walkCode, hleaf, ↓reduceIte, h],
        (UnpackedFrom.setWalk s root).2.1.tooLong hl⟩)
  · have hcode : walkCode root s = iterate walkBody (bitsLeft s + 1) { s with walk := root } := by
      rw [walkCode, if_neg hleaf]
    rw [hcode]
    obtain ⟨u, e, ⟨hu1, hu2⟩, hbody, he⟩ := iterate_leaves (body := walkBody)
      (I := fun t => UnpackedFrom s t ∧
        ((bitsLeft t < bitsLeft s) ∨ t = { s with walk := root }))
      bitsLeft (by
        rintro a b ⟨ha1, ha2⟩ hab
        rcases walkBody_cases a with h | ⟨c, t, h, _⟩ | ⟨h, _⟩ | ⟨t, h, ht, hm⟩ <;>
          rw [h] at hab <;> simp at hab
        subst hab
        refine ⟨⟨ha1.trans ht, .inl ?_⟩, hm⟩
        rcases ha2 with h2 | h2
        · omega
        · have : bitsLeft a = bitsLeft s := by rw [h2]; rfl
          omega) (bitsLeft s + 1) { s with walk := root } ⟨.setWalk s root, .inr rfl⟩ (by omega)
    rw [he]
    rcases walkBody_cases u with h | ⟨c, t, h, hc, ht⟩ | ⟨h, hl⟩ | ⟨t, h, _⟩ <;>
      rw [h] at hbody <;> simp at hbody <;> subst hbody
    · refine .inl ⟨u, rfl, hu1, ?_⟩
      rcases hu2 with h2 | h2
      · exact h2
      · subst h2
        have hlf : walkBody { s with walk := root } ≠ .leave (.done { s with walk := root }) := by
          rcases consumeBit_cases { s with walk := root } with ⟨b, t, hc, _⟩ | ⟨c, t, hc, _⟩ | ⟨hc, _⟩ <;>
            simp only [walkBody, hleaf, Bool.false_eq_true, ↓reduceIte, hc] <;> simp
        exact absurd h hlf
    · exact .inr (.inl ⟨c, t, rfl, hc, hu1.trans ht⟩)
    · exact .inr (.inr ⟨rfl, hu1.2.1.tooLong hl⟩)

/-- Everything an iteration of UNPACK can do. -/
theorem symbolBody_cases (root : NodeId) (s : State) :
    (∃ t, symbolBody root s = .leave (.done t) ∧ UnpackedFrom s t) ∨
    (∃ c t, symbolBody root s = .leave (.raised c t) ∧
      (c = .eIoIn ∨ c = .eFmtBitlen ∨ c = .eFmtTrunc) ∧ UnpackedFrom s t) ∨
    (symbolBody root s = .leave (.refused .inputBeyondCapacity) ∧ TooLong .one s) ∨
    (∃ t, symbolBody root s = .again t ∧ UnpackedFrom s t ∧ bitsLeft t < bitsLeft s) := by
  rcases walkCode_cases root s with ⟨t, h, hu, hb⟩ | ⟨c, t, h, hc, hu⟩ | ⟨h, hl⟩
  · by_cases hge : t.cursor.toNat ≥ t.bitlen.toNat
    · exact .inl ⟨_, by simp only [symbolBody, h, hge, ↓reduceIte], hu.trans (.emitWalked t)⟩
    · exact .inr (.inr (.inr ⟨_, by simp only [symbolBody, h, hge, ↓reduceIte],
        hu.trans (.emitWalked t), hb⟩))
  · exact .inr (.inl ⟨c, t, by simp only [symbolBody, h], hc, hu⟩)
  · exact .inr (.inr (.inl ⟨by simp only [symbolBody, h], hl⟩))

theorem unpackPhase_sat (s : State) :
    (unpackPhase s).Sat (UnpackedFrom s)
      (fun c t => (c = .eIoIn ∨ c = .eFmtBitlen ∨ c = .eFmtTrunc) ∧ UnpackedFrom s t) := by
  unfold unpackPhase
  split
  · split
    · exact .refl s
    · exact ⟨.inr (.inl rfl), .refl s⟩
  · rename_i r _
    refine iterate_sat (I := UnpackedFrom s) ?_ ?_ _ s (.refl s)
    · intro u v hu hv
      rcases symbolBody_cases r u with ⟨t, h, _⟩ | ⟨c, t, h, _⟩ | ⟨h, _⟩ | ⟨t, h, ht, _⟩ <;>
        rw [h] at hv <;> simp at hv
      subst hv
      exact hu.trans ht
    · intro u e hu he
      rcases symbolBody_cases r u with ⟨t, h, ht⟩ | ⟨c, t, h, hc, ht⟩ | ⟨h, _⟩ | ⟨t, h, _⟩ <;>
        rw [h] at he <;> simp at he <;> subst he
      · exact hu.trans ht
      · exact ⟨hc, hu.trans ht⟩
      · trivial

/-- UNPACK always ends by itself. -/
theorem unpackPhase_own (s : State) : (unpackPhase s).Own (TooLong .one s) := by
  unfold unpackPhase
  split
  · split <;> trivial
  · rename_i r _
    obtain ⟨u, e, hus, hu, he⟩ := iterate_leaves (body := symbolBody r) (I := UnpackedFrom s)
      bitsLeft (by
        intro u v hus hv
        rcases symbolBody_cases r u with ⟨t, h, _⟩ | ⟨c, t, h, _⟩ | ⟨h, _⟩ | ⟨t, h, ht, hm⟩ <;>
          rw [h] at hv <;> simp at hv
        subst hv
        exact ⟨hus.trans ht, hm⟩) (bitsLeft s + 1) s (.refl s) (by omega)
    rw [he]
    rcases symbolBody_cases r u with ⟨t, h, _⟩ | ⟨c, t, h, _⟩ | ⟨h, hl⟩ | ⟨t, h, _⟩ <;>
      rw [h] at hu <;> simp at hu <;> subst hu
    · trivial
    · trivial
    · exact ⟨rfl, hus.2.1.tooLong hl⟩

end Sys2Proof.Machine
end

