-- ==== Sys2Proof/Laws/Codec.lean ====
section
/-! SUPPORT. The commands' functions on byte sequences: what the machine's PACK and `encodeBits` have in
common, and that decoding the bits of an input gives the input (46_commands.md rule R234, rule R235). -/

namespace Sys2Proof.Machine

open Codec

/-! ### `count` -/

theorem entry_ofFn (f : Fin 256 → Word64) (b : Byte) :
    entry (Vector.ofFn f) b = f ⟨b.toNat, b.isLt⟩ := by
  simp [entry]

/-- On an input below `2^64` bytes `count` gives its counts. -/
theorem countTable_ok {l : List Byte} (h : l.length < 2 ^ 64) :
    ∃ f, countTable l = .ok f ∧ ∀ b, (entry f b).toNat = l.count b := by
  have hc : ∀ b, l.count b < 2 ^ 64 := fun b => lt_of_le_of_lt List.count_le_length h
  have hmax : Config.maxWord64 = 2 ^ 64 - 1 := rfl
  have hany : (allBytes.any fun b => decide (l.count b > Config.maxWord64)) = false := by
    rw [List.any_eq_false]
    intro b _
    have := hc b
    simp
    omega
  refine ⟨_, by rw [countTable, hany]; rfl, fun b => ?_⟩
  rw [entry_ofFn]
  have e : BitVec.ofNat 8 b.toNat = b := by simp
  simp only [e]
  rw [BitVec.toNat_ofNat, Nat.mod_eq_of_lt (hc b)]

theorem total_of_counts {f : Vector Word64 256} {l : List Byte}
    (h : ∀ b, (entry f b).toNat = l.count b) : total f = l.length := by
  rw [total, List.map_congr_left (fun b _ => h b), sum_counts]

/-- The table and the tree of an input: the present bytes are those of the input, and each has a code. -/
theorem build_of_input {d : List Byte} (h : d.length < 2 ^ 64) :
    ∃ f, countTable d = .ok f ∧ (∀ b, entry f b ≠ 0 ↔ b ∈ d) ∧
      ((d = [] ∧ build f = .ok none) ∨
        (d ≠ [] ∧ ∃ tr, build f = .ok (some tr) ∧
          ∀ b ∈ d, ∃ c, (Codec.assign (some tr)).lookup b = some c)) := by
  obtain ⟨f, hf, hfc⟩ := countTable_ok h
  have hpr : ∀ b, entry f b ≠ 0 ↔ b ∈ d := by
    intro b
    rw [← List.count_pos_iff, ← hfc b, Nat.pos_iff_ne_zero]
    exact not_congr ⟨fun h => by rw [h]; rfl, fun h => BitVec.eq_of_toNat_eq (by simpa using h)⟩
  refine ⟨f, hf, hpr, ?_⟩
  have htot : total f < 2 ^ 64 := by rw [total_of_counts hfc]; exact h
  rcases (build_total f).1 htot with ⟨hpb, hbn⟩ | ⟨tr, hbs, -⟩
  · refine .inl ⟨?_, hbn⟩
    rw [presentBytes_eq_nil] at hpb
    rw [List.eq_nil_iff_forall_not_mem]
    exact fun b hb => (hpr b).mpr hb (hpb b)
  · refine .inr ⟨?_, tr, hbs, fun b hb => ?_⟩
    · rintro rfl
      have := (build_bytes hbs).mem_iff.mp (build_leastOk hbs).spec.1
      rw [mem_presentBytes, hpr] at this
      simp at this
    · rw [lookup_isSome, assign_keys, (build_bytes hbs).mem_iff, mem_presentBytes, hpr]
      exact hb

/-! ### `pack` -/

/-- PACK's bits over the table ASSIGN writes are those of `encodeBits`. -/
theorem pushedBits_assign {tr : Tree} (hd : tr.depth ≤ 255) (hn : tr.bytes.Nodup)
    {code : Vector Code 256} (hz : ∀ b, entry code b = Code.none) (l : List Byte) (n : Nat) :
    pushedBits (setCodes (Codec.assign (some tr)) code) l n =
      encodeBits (Codec.assign (some tr)) l n := by
  induction l generalizing n with
  | nil => rfl
  | cons b l ih =>
    rw [pushedBits, encodeBits, entry_setCodes _ (by rw [assign_keys]; exact hn)]
    cases hlk : (Codec.assign (some tr)).lookup b with
    | none => simp [hz b, Code.none]
    | some c =>
      obtain ⟨v, k⟩ := c
      obtain ⟨h1, h2, h3⟩ := assign_range (lookup_mem hlk)
      simp only at h1 h2 h3
      have hk : (BitVec.ofNat 8 k).toNat = k := by
        rw [BitVec.toNat_ofNat, Nat.mod_eq_of_lt (by omega)]
      have hp : 2 ^ k ≤ 2 ^ 255 := Nat.pow_le_pow_right (by omega) (by omega)
      have hv : (BitVec.ofNat 255 v).toNat = v := by
        rw [BitVec.toNat_ofNat, Nat.mod_eq_of_lt (by omega)]
      have hne : BitVec.ofNat 8 k ≠ 0 := fun e => by
        rw [e] at hk
        simp at hk
        omega
      simp only [hne, ↓reduceIte, hk, codeBits, hv, ih]
      all_goals rfl

theorem pushedBits_none {code : Vector Code 256} (hz : ∀ b, entry code b = Code.none)
    (l : List Byte) (n : Nat) : pushedBits code l n = encodeBits [] l n := by
  cases l with
  | nil => rfl
  | cons b l => simp [pushedBits, encodeBits, hz b, Code.none]

theorem byteOfBits_bits (f : Nat → Bool) : bits (byteOfBits f).toNat 8 = (List.range 8).map f := by
  simp only [byteOfBits, List.range_succ, List.range_zero, List.nil_append, List.foldl_cons,
    List.foldl_nil, List.map_cons, List.map_nil, List.cons_append]
  generalize f 0 = a0; generalize f 1 = a1; generalize f 2 = a2; generalize f 3 = a3
  generalize f 4 = a4; generalize f 5 = a5; generalize f 6 = a6; generalize f 7 = a7
  revert a0 a1 a2 a3 a4 a5 a6 a7
  decide

@[simp] theorem packBytes_length (bs : List Bool) :
    (packBytes bs).length = (bs.length + 7) / 8 := by simp [packBytes]

/-- The bits of the packed bytes: the sequence, and zeros up to a whole byte (43_bit_packer.md rule
R171). -/
theorem payloadBits_packBytes (bs : List Bool) :
    payloadBits (packBytes bs) =
      bs ++ List.replicate (8 * ((bs.length + 7) / 8) - bs.length) false := by
  apply List.ext_getElem?
  intro k
  have hget : (payloadBits (packBytes bs))[k]? =
      if k < 8 * ((bs.length + 7) / 8) then some (bs.getD k false) else none := by
    rw [← payBit_eq, payBit]
    by_cases hk : k < 8 * ((bs.length + 7) / 8)
    · rw [if_pos hk]
      have hk8 : k / 8 < (packBytes bs).length := by rw [packBytes_length]; omega
      have hm : k % 8 < 8 := Nat.mod_lt _ (by omega)
      have h := congrArg (fun l : List Bool => l[k % 8]?)
        (byteOfBits_bits fun i => bs.getD (8 * (k / 8) + i) false)
      simp only [bits] at h
      rw [List.getElem?_eq_getElem (by simpa using hm),
        List.getElem?_eq_getElem (by simpa using hm)] at h
      simp only [List.getElem_map, List.getElem_reverse, List.getElem_range, List.length_range,
        Option.some.injEq] at h
      rw [show 8 * (k / 8) + k % 8 = k by omega] at h
      rw [List.getElem?_eq_getElem hk8]
      simp only [packBytes, List.getElem_map, List.getElem_range]
      rw [BitVec.getLsbD, show 7 - k % 8 = 8 - 1 - k % 8 by omega, h]
    · rw [if_neg hk, List.getElem?_eq_none (by rw [packBytes_length]; omega)]
  rw [hget]
  by_cases h1 : k < bs.length
  · rw [if_pos (by omega), List.getElem?_append_left h1, List.getD_eq_getElem?_getD,
      List.getElem?_eq_getElem h1]
    rfl
  · rw [List.getElem?_append_right (by omega), List.getElem?_replicate]
    by_cases h2 : k < 8 * ((bs.length + 7) / 8)
    · rw [if_pos h2, if_pos (by omega), List.getD_eq_default _ _ (by omega)]
    · rw [if_neg h2, if_neg (by omega)]

/-- An input whose bytes all have a code, and whose bits fit, has its bits. -/
theorem encodeBits_ok {cs : CodeTable} {l : List Byte} {n : Nat}
    (hm : ∀ b ∈ l, ∃ c, cs.lookup b = some c)
    (hn : n + (l.map fun b => ((cs.lookup b).map Prod.snd).getD 0).sum < 2 ^ 64) :
    ∃ bs, encodeBits cs l n = .ok bs ∧
      bs.length = (l.map fun b => ((cs.lookup b).map Prod.snd).getD 0).sum := by
  have hmax : Config.maxWord64 = 2 ^ 64 - 1 := rfl
  induction l generalizing n with
  | nil => exact ⟨[], rfl, rfl⟩
  | cons b l ih =>
    obtain ⟨⟨v, k⟩, hc⟩ := hm b (by simp)
    simp only [List.map_cons, List.sum_cons, hc, Option.map_some, Option.getD_some] at hn ⊢
    obtain ⟨bs, h1, h2⟩ := ih (n := n + k) (fun c hc => hm c (by simp [hc])) (by omega)
    refine ⟨bits v k ++ bs, ?_, ?_⟩
    · rw [encodeBits, hc]
      simp only
      rw [if_neg (by omega), h1]
    · rw [List.length_append, bits_length, h2]

/-- Bits that exist are those of a code after the other. -/
theorem encodeBits_cons {cs : CodeTable} {b : Byte} {l : List Byte} {n : Nat} {bs : List Bool}
    (h : encodeBits cs (b :: l) n = .ok bs) :
    ∃ v k rest, cs.lookup b = some (v, k) ∧ encodeBits cs l (n + k) = .ok rest ∧
      bs = bits v k ++ rest := by
  rw [encodeBits] at h
  cases hlk : cs.lookup b with
  | none => simp [hlk] at h
  | some c =>
    obtain ⟨v, k⟩ := c
    rw [hlk] at h
    simp only at h
    split at h
    · simp at h
    · cases he : encodeBits cs l (n + k) with
      | error e => simp [he] at h
      | ok rest =>
        rw [he] at h
        simp only [Except.ok.injEq] at h
        exact ⟨v, k, rest, rfl, he, h.symm⟩

/-! ### `unpack` of what `pack` gave -/

/-- A path of bits leads from a node to the leaf of a byte. -/
def Leads (tr : Tree) (path : List Bool) (byte : Byte) : Prop :=
  match tr with
  | .leaf b _ => path = [] ∧ byte = b
  | .internal _ _ _ _ => ∀ left more,
      walkOne tr (path.length + left) (path ++ more) = .ok (byte, left, more)

/-- The code of a leaf is the path that leads to it (42_code_assigner.md rule R161). -/
theorem codes_path {tr : Tree} {v l : Nat} {c : Byte × Nat × Nat} (h : c ∈ codes tr v l) :
    ∃ path, bits c.2.1 c.2.2 = bits v l ++ path ∧ Leads tr path c.1 := by
  induction tr generalizing v l with
  | leaf b f =>
    obtain rfl := List.mem_singleton.mp h
    exact ⟨[], by simp, rfl, rfl⟩
  | internal left right f m ihl ihr =>
    have key : ∀ (b : Bool) (t : Tree), descend b (.internal left right f m) = t →
        (∃ path, bits c.2.1 c.2.2 = bits (2 * v + b.toNat) (l + 1) ++ path ∧ Leads t path c.1) →
        ∃ path, bits c.2.1 c.2.2 = bits v l ++ path ∧
          Leads (.internal left right f m) path c.1 := by
      rintro b t hd ⟨path, hp, hw⟩
      refine ⟨b :: path, by rw [hp, bits_snoc, List.append_assoc]; rfl, fun k more => ?_⟩
      rw [List.length_cons, show path.length + 1 + k = (path.length + k) + 1 by omega,
        List.cons_append, walkOne, hd]
      cases t with
      | leaf b' f' =>
        obtain ⟨rfl, rfl⟩ := hw
        simp
      | internal l' r' f' m' => exact hw k more
    simp only [codes, List.mem_append] at h
    rcases h with h | h
    · exact key false left rfl (ihl h)
    · exact key true right rfl (ihr h)

/-- The walk over a code's bits ends on its byte. -/
theorem walkOne_assign {tr : Tree} {b : Byte} {v l : Nat}
    (h : (b, v, l) ∈ Codec.assign (some tr)) (left : Nat) (more : List Bool) :
    walkOne tr (l + left) (bits v l ++ more) = .ok (b, left, more) := by
  cases tr with
  | leaf b' f =>
    have := List.mem_singleton.mp h
    cases this
    rw [show 1 + left = left + 1 by omega]
    rfl
  | internal lt rt f m =>
    obtain ⟨path, hp, hw⟩ := codes_path h
    have hp' : bits v l = path := by simpa [bits] using hp
    have hl : path.length = l := by rw [← hp', bits_length]
    rw [hp', ← hl]
    exact hw left more

/-- Decoding the bits of an input that is not empty gives the input, whatever bits follow. -/
theorem decode_encode {tr : Tree} {l : List Byte} {n : Nat} {bs : List Bool}
    (h : encodeBits (Codec.assign (some tr)) l n = .ok bs) (hl : l ≠ []) (more : List Bool) :
    decodeWalk tr tr bs.length (bs ++ more) = .ok l := by
  induction l generalizing n bs with
  | nil => contradiction
  | cons b l ih =>
    obtain ⟨v, k, rest, hlk, he, rfl⟩ := encodeBits_cons h
    rw [decodeWalk_eq, List.length_append, bits_length, List.append_assoc,
      walkOne_assign (lookup_mem hlk)]
    simp only
    cases l with
    | nil =>
      have hr : rest = [] := by simpa [encodeBits] using he.symm
      simp [hr]
    | cons c l' =>
      have h0 : rest.length ≠ 0 := by
        obtain ⟨w, j, rest', hlk', -, rfl⟩ := encodeBits_cons he
        have h1 := (assign_range (lookup_mem hlk')).1
        simp only at h1
        rw [List.length_append, bits_length]
        omega
      rw [if_neg h0, ih he (by simp)]

end Sys2Proof.Machine
end

