-- ==== Sys2Proof/Laws/Count.lean ====
section
/-! SUPPORT. COUNT: what its loop does on an input, and what it keeps (40_frequency_counter.md rule R131 to
rule R133). -/

namespace Sys2Proof.Machine

/-! ### Counting as a function -/

/-- A table with one added for each byte of a sequence. -/
def addCounts (freq : Vector Word64 256) (l : List Byte) : Vector Word64 256 :=
  l.foldl (fun f b => setEntry f b (entry f b + 1)) freq

@[simp] theorem addCounts_nil (freq : Vector Word64 256) : addCounts freq [] = freq := rfl

@[simp] theorem addCounts_cons (freq : Vector Word64 256) (b : Byte) (l : List Byte) :
    addCounts freq (b :: l) = addCounts (setEntry freq b (entry freq b + 1)) l := rfl

/-- The entries after one occurrence was counted. -/
theorem count_step {freq : Vector Word64 256} {b : Byte} (h : (entry freq b).toNat + 1 < 2 ^ 64)
    (c : Byte) :
    (entry (setEntry freq b (entry freq b + 1)) c).toNat =
      (entry freq c).toNat + if b = c then 1 else 0 := by
  rw [entry_setEntry]
  by_cases hc : c = b
  · subst hc; simp only [if_true]; exact word_succ h
  · rw [if_neg hc, if_neg (Ne.symm hc), Nat.add_zero]

theorem entry_addCounts {freq : Vector Word64 256} {l : List Byte}
    (h : ∀ b, (entry freq b).toNat + l.count b < 2 ^ 64) (c : Byte) :
    (entry (addCounts freq l) c).toNat = (entry freq c).toNat + l.count c := by
  induction l generalizing freq with
  | nil => simp
  | cons b rest ih =>
    have hb : (entry freq b).toNat + 1 < 2 ^ 64 := by
      have := h b; rw [List.count_cons_self] at this; omega
    rw [addCounts_cons, ih, count_step hb, List.count_cons]
    · simp only [beq_iff_eq]; omega
    · intro d
      have := h d
      rw [count_step hb]
      rw [List.count_cons] at this
      simp only [beq_iff_eq] at this
      omega

/-! ### One iteration -/

theorem countBody_err {s : State} (h : s.host.answers.head? = some .err) :
    countBody s = .leave (.raised .eIoIn (answered 1 s)) := by
  simp only [countBody, inNext_err .one h]

theorem countBody_nil {s : State} (h : s.host.answers.head? ≠ some .err)
    (hr : remaining .one s = []) : countBody s = .leave (.done (answered 1 s)) := by
  simp only [countBody, inNext_of_nil h hr]

/-- The state after one occurrence was counted. -/
def counted (b : Byte) (s : State) : State :=
  { delivered s with freq := setEntry s.freq b (entry s.freq b + 1) }

theorem countBody_byte {s : State} {b : Byte} {rest : List Byte}
    (h : s.host.answers.head? ≠ some .err) (hl : s.host.in1.length < 2 ^ 64)
    (hr : remaining .one s = b :: rest) (hb : (entry s.freq b).toNat + 1 < 2 ^ 64) :
    countBody s = .again (counted b s) := by
  have hne : ¬ (entry s.freq b).toNat = Config.maxWord64 := by
    have : Config.maxWord64 = 2 ^ 64 - 1 := rfl
    omega
  have hf : (delivered s).freq = s.freq := rfl
  simp only [countBody, (inNext_of_remaining (p := .one) h hl hr).1, hf, hne, ↓reduceIte]
  rfl

theorem countBody_full {s : State} {b : Byte} {rest : List Byte}
    (h : s.host.answers.head? ≠ some .err) (hl : s.host.in1.length < 2 ^ 64)
    (hr : remaining .one s = b :: rest) (hb : 2 ^ 64 ≤ (entry s.freq b).toNat + 1) :
    countBody s = .leave (.raised .eOverflow (delivered s)) := by
  have hne : (entry s.freq b).toNat = Config.maxWord64 := by
    have : Config.maxWord64 = 2 ^ 64 - 1 := rfl
    have := (entry s.freq b).isLt
    omega
  have hf : (delivered s).freq = s.freq := rfl
  simp only [countBody, (inNext_of_remaining (p := .one) h hl hr).1, hf, hne, ↓reduceIte]

theorem remaining_counted {s : State} {b : Byte} {rest : List Byte}
    (h : s.host.answers.head? ≠ some .err) (hl : s.host.in1.length < 2 ^ 64)
    (hr : remaining .one s = b :: rest) : remaining .one (counted b s) = rest :=
  (inNext_of_remaining (p := .one) h hl hr).2.1

/-! ### The loop -/

/-- The state COUNT ends in after all of `l`, the rest of pass 1, was delivered. -/
def countedAll (l : List Byte) (s : State) : State :=
  { answered (l.length + 1) s with
    freq := addCounts s.freq l
    inPos := BitVec.ofNat 64 (s.inPos.toNat + l.length) }

theorem countedAll_nil (s : State) : countedAll [] s = answered 1 s := by
  simp [countedAll, answered]

theorem countedAll_cons {s : State} {b : Byte} {l : List Byte}
    (hp : (delivered s).inPos.toNat = s.inPos.toNat + 1) :
    countedAll l (counted b s) = countedAll (b :: l) s := by
  have hp' : (counted b s).inPos.toNat = s.inPos.toNat + 1 := hp
  have hf : (counted b s).freq = setEntry s.freq b (entry s.freq b + 1) := rfl
  simp only [countedAll, hp', hf, addCounts_cons, List.length_cons]
  have e1 : 1 + (l.length + 1) = l.length + 1 + 1 := by omega
  have e2 : s.inPos.toNat + 1 + l.length = s.inPos.toNat + (l.length + 1) := by omega
  simp only [counted, delivered, answered, List.drop_drop, e1, e2]

/-- COUNT on an input without a failure, where every count fits. -/
theorem countLoop_ok {s : State} {l : List Byte} {n : Nat} (hr : remaining .one s = l)
    (hn : l.length < n) (h : NoErr s) (hl : s.host.in1.length < 2 ^ 64)
    (hfit : ∀ b, (entry s.freq b).toNat + l.count b < 2 ^ 64) :
    iterate countBody n s = .done (countedAll l s) := by
  induction l generalizing s n with
  | nil =>
    obtain ⟨n, rfl⟩ : ∃ m, n = m + 1 := ⟨n - 1, by simp at hn; omega⟩
    rw [iterate_leave (countBody_nil h.head? hr), countedAll_nil]
  | cons b rest ih =>
    obtain ⟨n, rfl⟩ : ∃ m, n = m + 1 := ⟨n - 1, by simp at hn; omega⟩
    have hb : (entry s.freq b).toNat + 1 < 2 ^ 64 := by
      have := hfit b; rw [List.count_cons_self] at this; omega
    have hd := inNext_of_remaining (p := .one) h.head? hl hr
    rw [iterate_again (countBody_byte h.head? hl hr hb),
      ih (remaining_counted h.head? hl hr) (by simp at hn; omega) (h.answered 1) hl,
      countedAll_cons hd.2.2.2.1]
    intro d
    have := hfit d
    show (entry (setEntry s.freq b (entry s.freq b + 1)) d).toNat + _ < _
    rw [count_step hb]
    rw [List.count_cons] at this
    simp only [beq_iff_eq] at this
    omega

theorem countPhase_ok {s : State} (h : NoErr s) (hl : s.host.in1.length < 2 ^ 64)
    (hfit : ∀ b, (entry s.freq b).toNat + (remaining .one s).count b < 2 ^ 64) :
    countPhase s = .done (countedAll (remaining .one s) s) :=
  countLoop_ok rfl (by rw [remaining_length]; omega) h hl hfit

/-- A count that would pass the limit ends COUNT with `E_OVERFLOW`. -/
theorem countLoop_overflow {s : State} {l : List Byte} {n : Nat} (hr : remaining .one s = l)
    (hn : l.length < n) (h : NoErr s) (hl : s.host.in1.length < 2 ^ 64) {c : Byte}
    (hc : 2 ^ 64 ≤ (entry s.freq c).toNat + l.count c) :
    ∃ t, iterate countBody n s = .raised .eOverflow t := by
  induction l generalizing s n with
  | nil => have := (entry s.freq c).isLt; simp at hc; omega
  | cons b rest ih =>
    obtain ⟨n, rfl⟩ : ∃ m, n = m + 1 := ⟨n - 1, by simp at hn; omega⟩
    by_cases hb : (entry s.freq b).toNat + 1 < 2 ^ 64
    · rw [iterate_again (countBody_byte h.head? hl hr hb)]
      refine ih (remaining_counted h.head? hl hr) (by simp at hn; omega) (h.answered 1) hl ?_
      show _ ≤ (entry (setEntry s.freq b (entry s.freq b + 1)) c).toNat + _
      rw [count_step hb]
      rw [List.count_cons] at hc
      simp only [beq_iff_eq] at hc
      omega
    · exact ⟨_, iterate_leave (countBody_full h.head? hl hr (by omega))⟩

/-- An `Err` after `k` bytes ends COUNT with `E_IO_IN`; only their counts must fit. -/
theorem countLoop_err {s : State} {l : List Byte} {n k : Nat} {more : List HostAnswer}
    (hr : remaining .one s = l) (hn : l.length < n) (hk : k ≤ l.length)
    (ha : s.host.answers = List.replicate k .ok ++ .err :: more)
    (hl : s.host.in1.length < 2 ^ 64)
    (hfit : ∀ b, (entry s.freq b).toNat + (l.take k).count b < 2 ^ 64) :
    ∃ t, iterate countBody n s = .raised .eIoIn t := by
  induction k generalizing s n l with
  | zero =>
    obtain ⟨n, rfl⟩ : ∃ m, n = m + 1 := ⟨n - 1, by omega⟩
    exact ⟨_, iterate_leave (countBody_err (by simp [ha]))⟩
  | succ k ih =>
    obtain ⟨n, rfl⟩ : ∃ m, n = m + 1 := ⟨n - 1, by omega⟩
    have he : s.host.answers.head? ≠ some .err := by simp [ha, List.replicate_succ]
    obtain _ | ⟨b, rest⟩ := l
    · simp at hk
    have hb : (entry s.freq b).toNat + 1 < 2 ^ 64 := by
      have := hfit b; rw [List.take_succ_cons, List.count_cons_self] at this; omega
    rw [iterate_again (countBody_byte he hl hr hb)]
    refine ih (remaining_counted he hl hr) (by simp at hn; omega) (by simpa using hk)
      (by simp [counted, delivered, ha, List.replicate_succ]) hl ?_
    intro d
    have := hfit d
    show (entry (setEntry s.freq b (entry s.freq b + 1)) d).toNat + _ < _
    rw [count_step hb]
    rw [List.take_succ_cons, List.count_cons] at this
    simp only [beq_iff_eq] at this
    omega

/-! ### What COUNT keeps -/

/-- `t` is `s` but for `FREQ`, whose counts have only grown, `IN_POS` and the answers given. -/
def CountedFrom (s t : State) : Prop :=
  t = { s with freq := t.freq, inPos := t.inPos, host := t.host } ∧ HostKept s t ∧
    ∀ b, (entry s.freq b).toNat ≤ (entry t.freq b).toNat

theorem CountedFrom.refl (s : State) : CountedFrom s s := ⟨rfl, .refl s, fun _ => le_refl _⟩

theorem CountedFrom.trans {s t u : State} (h : CountedFrom s t) (h' : CountedFrom t u) :
    CountedFrom s u := by
  obtain ⟨h1, h2, h5⟩ := h
  obtain ⟨h3, h4, h6⟩ := h'
  refine ⟨?_, h2.trans h4, fun b => (h5 b).trans (h6 b)⟩
  rw [h3, h1]

theorem ReadFrom.counted {s t : State} (h : ReadFrom s t) : CountedFrom s t := by
  obtain ⟨h1, h2⟩ := h
  refine ⟨?_, h2, fun b => ?_⟩ <;> rw [h1]

/-- Everything an iteration of COUNT can do. -/
theorem countBody_cases (s : State) :
    (∃ t, countBody s = .leave (.done t) ∧ ReadFrom s t) ∨
    (∃ c t, countBody s = .leave (.raised c t) ∧ (c = .eIoIn ∨ c = .eOverflow) ∧ ReadFrom s t) ∨
    (countBody s = .leave (.refused .inputBeyondCapacity) ∧ TooLong .one s) ∨
    (∃ t, countBody s = .again t ∧ CountedFrom s t ∧ unread .one t < unread .one s) := by
  rcases inNext_cases .one s with ⟨_, h⟩ | ⟨_, _, h⟩ | ⟨b, _, hb, hc, h⟩ | ⟨_, h1, h2, h⟩
  · exact .inr (.inl ⟨_, _, by simp only [countBody, h], .inl rfl, .answered 1 s⟩)
  · exact .inl ⟨_, by simp only [countBody, h], .answered 1 s⟩
  · have hlt := (List.getElem?_eq_some_iff.mp hb).1
    by_cases hf : (entry (delivered s).freq b).toNat = Config.maxWord64
    · exact .inr (.inl ⟨_, _, by simp only [countBody, h, hf, ↓reduceIte], .inr rfl, .delivered s⟩)
    · refine .inr (.inr (.inr ⟨counted b s, ?_, ⟨rfl, .answered 1 s, fun c => ?_⟩, ?_⟩))
      · simp only [countBody, h, hf, ↓reduceIte]; rfl
      · have hfit : (entry s.freq b).toNat + 1 < 2 ^ 64 := by
          have : ¬ (entry s.freq b).toNat = 2 ^ 64 - 1 := hf
          have := (entry s.freq b).isLt
          omega
        show _ ≤ (entry (setEntry s.freq b (entry s.freq b + 1)) c).toNat
        rw [count_step hfit]
        omega
      · have hp : (counted b s).inPos.toNat = s.inPos.toNat + 1 := delivered_pos hc
        have hs : stream .one (counted b s) = stream .one s := rfl
        simp only [unread, hp, hs]
        omega
  · exact .inr (.inr (.inl ⟨by simp only [countBody, h], tooLong_of h1 h2⟩))

theorem countPhase_sat (s : State) :
    (countPhase s).Sat (CountedFrom s)
      (fun c t => (c = .eIoIn ∨ c = .eOverflow) ∧ CountedFrom s t) := by
  refine iterate_sat (I := CountedFrom s) ?_ ?_ _ s (.refl s)
  · intro u v hu hv
    rcases countBody_cases u with ⟨t, h, _⟩ | ⟨c, t, h, _⟩ | ⟨h, _⟩ | ⟨t, h, ht, _⟩ <;>
      rw [h] at hv <;> simp at hv
    subst hv
    exact hu.trans ht
  · intro u e hu he
    rcases countBody_cases u with ⟨t, h, ht⟩ | ⟨c, t, h, hc, ht⟩ | ⟨h, _⟩ | ⟨t, h, ht, _⟩ <;>
      rw [h] at he <;> simp at he <;> subst he
    · exact hu.trans ht.counted
    · exact ⟨hc, hu.trans ht.counted⟩
    · trivial

/-- COUNT always ends by itself. -/
theorem countPhase_own (s : State) : (countPhase s).Own (TooLong .one s) := by
  obtain ⟨u, e, hus, hu, he⟩ := iterate_leaves (body := countBody) (I := CountedFrom s)
    (unread .one) (by
      intro u v hus hv
      rcases countBody_cases u with ⟨t, h, _⟩ | ⟨c, t, h, _⟩ | ⟨h, _⟩ | ⟨t, h, ht, hm⟩ <;>
        rw [h] at hv <;> simp at hv
      subst hv
      exact ⟨hus.trans ht, hm⟩) (unread .one s + 1) s (.refl s) (by omega)
  rw [countPhase, he]
  rcases countBody_cases u with ⟨t, h, _⟩ | ⟨c, t, h, _⟩ | ⟨h, hl⟩ | ⟨t, h, _⟩ <;>
    rw [h] at hu <;> simp at hu <;> subst hu
  · trivial
  · trivial
  · exact ⟨rfl, hus.2.1.tooLong hl⟩

end Sys2Proof.Machine
end

