-- ==== Sys2Proof/Laws/Key.lean ====
section
/-! SUPPORT. KEYWR and KEYRD: the key's length, and KEYRD against `parse` (44_key_serializer.md rule R185 to
rule R201). -/

namespace Sys2Proof.Machine

open Codec

/-! ### The key -/

@[simp] theorem recordBytes_length (freq : Vector Word64 256) (b : Byte) :
    (recordBytes freq b).length = 9 := rfl

theorem records_length (freq : Vector Word64 256) (order : List Byte) :
    (order.flatMap (recordBytes freq)).length = 9 * order.length := by
  induction order with
  | nil => rfl
  | cons b order ih =>
    rw [List.flatMap_cons, List.length_append, ih, recordBytes_length, List.length_cons]; omega

theorem headerLengthFor_eq (freq : Vector Word64 256) :
    headerLengthFor freq = 10 + 9 * (presentBytes freq).length := rfl

theorem headerLengthFor_le (freq : Vector Word64 256) : headerLengthFor freq ≤ 2314 := by
  have := presentBytes_length_le freq
  rw [headerLengthFor_eq]
  omega

theorem headerLengthFor_toNat (freq : Vector Word64 256) :
    (BitVec.ofNat 16 (headerLengthFor freq)).toNat = headerLengthFor freq := by
  have := headerLengthFor_le freq
  rw [BitVec.toNat_ofNat, Nat.mod_eq_of_lt (by omega)]

theorem keyBytes_length (freq : Vector Word64 256) (n : Word64) :
    (keyBytes freq n).length = headerLengthFor freq := by
  simp only [keyBytes, List.length_append, be16_length, be64_length, records_length,
    headerLengthFor_eq]

/-! ### The records -/

/-- Everything a record can do to KEYRD. -/
theorem takeRecord_cases (b : Byte) (f : Word64) (s : State) :
    ((f = 0 ∨ entry s.freq b ≠ 0) ∧ takeRecord b f s = .raised .eFmtRecord s) ∨
    ((f ≠ 0 ∧ entry s.freq b = 0) ∧ takeRecord b f s =
      .done { s with freq := setEntry s.freq b f, recidx := s.recidx + 1 }) := by
  by_cases h : f = 0 ∨ entry s.freq b ≠ 0
  · exact .inl ⟨h, by rw [takeRecord, if_pos h]⟩
  · refine .inr ⟨by simpa using h, by rw [takeRecord, if_neg h]⟩

/-- Everything the fixed part can do to KEYRD. -/
theorem takeHeader_cases (h : BitVec 16) (n : Word64) (s : State) :
    ((h.toNat < 10 ∨ (h.toNat - 10) % 9 ≠ 0) ∧
      takeHeader h n s = .raised .eFmtHdrlen { s with hdrlen := h, bitlen := n }) ∨
    ((10 ≤ h.toNat ∧ (h.toNat - 10) % 9 = 0) ∧
      takeHeader h n s = .done { s with
        hdrlen := h
        bitlen := n
        nrec := BitVec.ofNat 16 ((h.toNat - 10) / 9)
        recidx := 0 }) := by
  by_cases hc : h.toNat < 10 ∨ (h.toNat - 10) % 9 ≠ 0
  · exact .inl ⟨hc, if_pos hc⟩
  · exact .inr ⟨by omega, if_neg hc⟩

theorem half_succ {v : BitVec 16} (h : v.toNat + 1 < 2 ^ 16) : (v + 1).toNat = v.toNat + 1 := by
  rw [BitVec.toNat_add]
  exact Nat.mod_eq_of_lt h

theorem recordBody_leave {s : State} (h : s.nrec.toNat ≤ s.recidx.toNat) :
    recordBody s = .leave (.done s) := by
  rw [recordBody, if_neg (by omega)]

theorem recordBody_bytes {s t : State} {bs : List Byte} (h : s.recidx.toNat < s.nrec.toNat)
    (hb : needBytes 9 s = .bytes bs t) :
    (∃ (_ : frequencyOf bs = 0 ∨ entry t.freq (byteValueOf bs) ≠ 0),
      recordBody s = .leave (.raised .eFmtRecord t)) ∨
    (∃ (_ : frequencyOf bs ≠ 0 ∧ entry t.freq (byteValueOf bs) = 0),
      recordBody s = .again { t with
        freq := setEntry t.freq (byteValueOf bs) (frequencyOf bs), recidx := t.recidx + 1 }) := by
  have hb' : needBytes Config.recBytes s = .bytes bs t := hb
  rcases takeRecord_cases (byteValueOf bs) (frequencyOf bs) t with ⟨hc, he⟩ | ⟨hc, he⟩
  · exact .inl ⟨hc, by simp only [recordBody, h, ↓reduceIte, hb', he]⟩
  · exact .inr ⟨hc, by simp only [recordBody, h, ↓reduceIte, hb', he]⟩

theorem recordBody_ended {s : State} {e : Ended} (h : s.recidx.toNat < s.nrec.toNat)
    (hb : needBytes 9 s = .ended e) : recordBody s = .leave e := by
  have hb' : needBytes Config.recBytes s = .ended e := hb
  simp only [recordBody, h, ↓reduceIte, hb']

/-- The state after `m` records were read and gave the table `freq`. -/
def recordsRead (m : Nat) (freq : Vector Word64 256) (s : State) : State :=
  { readOn (9 * m) s with freq := freq, recidx := BitVec.ofNat 16 (s.recidx.toNat + m) }

/-- The record loop against `parseRecords`. -/
theorem recordsLoop {m n : Nat} {s : State} (hm : s.nrec.toNat = s.recidx.toNat + m) (hn : m < n)
    (h : NoErr s) (hp : s.inPos.toNat + 9 * m < 2 ^ 64) :
    match parseRecords m (remaining .one s) s.freq with
    | .error e => ∃ t, iterate recordBody n s = .raised e t
    | .ok (freq, rest) => iterate recordBody n s = .done (recordsRead m freq s) ∧
        rest = (remaining .one s).drop (9 * m) ∧ 9 * m ≤ (remaining .one s).length := by
  induction m generalizing n s with
  | zero =>
    obtain ⟨n, rfl⟩ : ∃ k, n = k + 1 := ⟨n - 1, by omega⟩
    simp only [parseRecords]
    refine ⟨?_, rfl, by omega⟩
    rw [iterate_leave (recordBody_leave (by omega))]
    simp [recordsRead]
  | succ m ih =>
    obtain ⟨n, rfl⟩ : ∃ k, n = k + 1 := ⟨n - 1, by omega⟩
    have hi : s.recidx.toNat < s.nrec.toNat := by omega
    have hrb : Config.recBytes = 9 := rfl
    simp only [parseRecords]
    by_cases hs : (remaining .one s).length < Config.recBytes
    · rw [if_pos hs]
      obtain ⟨t, ht, -⟩ := needBytes_short 9 s h (by omega) hs
      exact ⟨t, iterate_leave (recordBody_ended hi ht)⟩
    · rw [if_neg hs]
      have hl : 9 ≤ (remaining .one s).length := by omega
      have hb := needBytes_ok 9 s h (by omega) hl
      have hbv := byteValueOf_take (remaining .one s) 9 (by omega)
      have hfv := frequencyOf_take (remaining .one s) 9 (by omega)
      have hr9 := remaining_readOn (p := .one) (s := s) (n := 9) (by omega)
      rcases recordBody_bytes hi hb with ⟨hc, he⟩ | ⟨hc, he⟩
      · rw [hbv, hfv] at hc
        have hc' : frequencyOf (remaining .one s) = 0 ∨
            entry s.freq (byteValueOf (remaining .one s)) ≠ 0 := hc
        rw [if_pos hc']
        exact ⟨_, iterate_leave he⟩
      · rw [hbv, hfv] at hc
        have hc' : ¬(frequencyOf (remaining .one s) = 0 ∨
            entry s.freq (byteValueOf (remaining .one s)) ≠ 0) := by
          rintro (h1 | h1)
          · exact hc.1 h1
          · exact h1 hc.2
        rw [if_neg hc', iterate_again he, hbv, hfv]
        have hidx : (s.recidx + 1).toNat = s.recidx.toNat + 1 := by
          have := s.nrec.isLt
          exact half_succ (by omega)
        have hpos := readOn_pos (s := s) (n := 9) (by omega)
        have hi := ih (n := n)
          (s := { readOn 9 s with
            freq := setEntry (readOn 9 s).freq (byteValueOf (remaining .one s))
              (frequencyOf (remaining .one s))
            recidx := (readOn 9 s).recidx + 1 })
          (by show s.nrec.toNat = (s.recidx + 1).toNat + m; omega) (by omega) (h.readOn 9)
          (by show (readOn 9 s).inPos.toNat + _ < _; omega)
        have hrem : remaining .one { readOn 9 s with
            freq := setEntry (readOn 9 s).freq (byteValueOf (remaining .one s))
              (frequencyOf (remaining .one s))
            recidx := (readOn 9 s).recidx + 1 } = (remaining .one s).drop 9 := hr9
        rw [hrem] at hi
        have hd : (remaining .one s).drop Config.recBytes = (remaining .one s).drop 9 := rfl
        rw [hd]
        have hfq : (readOn 9 s).freq = s.freq := rfl
        revert hi
        rw [hfq]
        cases parseRecords m ((remaining .one s).drop 9)
            (setEntry s.freq (byteValueOf (remaining .one s)) (frequencyOf (remaining .one s))) with
        | error e => exact id
        | ok r =>
          rintro ⟨g1, g2, g3⟩
          refine ⟨?_, ?_, ?_⟩
          · rw [g1]
            simp only [recordsRead, readOn] at hpos ⊢
            rw [hpos]
            have hidx' : ({ answered 9 s with
                freq := setEntry s.freq (byteValueOf (remaining .one s))
                  (frequencyOf (remaining .one s))
                inPos := BitVec.ofNat 64 (s.inPos.toNat + 9)
                recidx := s.recidx + 1 } : State).recidx.toNat = s.recidx.toNat + 1 := hidx
            simp only [answered, List.drop_drop] at hidx' ⊢
            simp only [hidx, show 9 + 9 * m = 9 * (m + 1) by omega,
              show s.inPos.toNat + 9 + 9 * m = s.inPos.toNat + 9 * (m + 1) by omega,
              show s.recidx.toNat + 1 + m = s.recidx.toNat + (m + 1) by omega]
          · rw [g2, List.drop_drop, show 9 + 9 * m = 9 * (m + 1) by omega]
          · rw [List.length_drop] at g3; omega

/-! ### KEYRD -/

/-- The number of records a header length declares. -/
def declaredRecords (d : List Byte) : Nat := ((headerLengthOf d).toNat - 10) / 9

/-- The state KEYRD ends in on an input that parses. -/
def keyRead (freq : Vector Word64 256) (s : State) : State :=
  { answered (headerLengthOf s.host.in1).toNat s with
    freq := freq
    bitlen := encodedBitLenOf s.host.in1
    hdrlen := headerLengthOf s.host.in1
    nrec := BitVec.ofNat 16 (declaredRecords s.host.in1)
    recidx := BitVec.ofNat 16 (declaredRecords s.host.in1)
    inPos := BitVec.ofNat 64 (headerLengthOf s.host.in1).toNat }

/-- KEYRD against `parse` (rule R192). -/
theorem keyrdPhase_eq {s : State} (h : NoErr s) (hp : s.inPos = 0)
    (hf : s.freq = emptyTable) :
    match parse s.host.in1 with
    | .error e => ∃ t, keyrdPhase s = .raised e t
    | .ok (freq, n, p) => keyrdPhase s = .done (keyRead freq s) ∧
        n = (encodedBitLenOf s.host.in1).toNat ∧
        p = s.host.in1.drop (headerLengthOf s.host.in1).toNat ∧
        (headerLengthOf s.host.in1).toNat ≤ s.host.in1.length := by
  have hfix : Config.hdrFixed = 10 := rfl
  have hrec : Config.recBytes = 9 := rfl
  have hpos : s.inPos.toNat = 0 := by rw [hp]; rfl
  have hrem : remaining .one s = s.host.in1 := by simp [remaining, hpos, stream]
  unfold parse
  by_cases hs : s.host.in1.length < Config.hdrFixed
  · rw [if_pos hs]
    obtain ⟨t, ht, -⟩ := needBytes_short 10 s h (by omega) (by rw [hrem]; omega)
    have ht' : needBytes Config.hdrFixed s = _ := ht
    exact ⟨t, by simp only [keyrdPhase, ht']⟩
  · rw [if_neg hs]
    have hb := needBytes_ok 10 s h (by omega) (by rw [hrem]; omega)
    rw [hrem] at hb
    have hb' : needBytes Config.hdrFixed s = _ := hb
    have hk : keyrdPhase s =
        (takeHeader (headerLengthOf s.host.in1) (encodedBitLenOf s.host.in1) (readOn 10 s)).bind
          recordsPhase := by
      simp only [keyrdPhase, hb', headerLengthOf_take _ 10 (by omega),
        encodedBitLenOf_take _ 10 (by omega)]
    rcases takeHeader_cases (headerLengthOf s.host.in1) (encodedBitLenOf s.host.in1)
      (readOn 10 s) with ⟨hc, he⟩ | ⟨hc, he⟩
    · have hc' : (headerLengthOf s.host.in1).toNat < Config.hdrFixed ∨
          ((headerLengthOf s.host.in1).toNat - Config.hdrFixed) % Config.recBytes ≠ 0 := hc
      rw [if_pos hc']
      exact ⟨_, by rw [hk, he, bind_raised]⟩
    · have hc' : ¬((headerLengthOf s.host.in1).toNat < Config.hdrFixed ∨
          ((headerLengthOf s.host.in1).toNat - Config.hdrFixed) % Config.recBytes ≠ 0) := by
        rw [hfix, hrec]; omega
      rw [if_neg hc', hk, he, bind_done]
      obtain ⟨hc1, hc2⟩ := hc
      have hlt := (headerLengthOf s.host.in1).isLt
      have hnum : (BitVec.ofNat 16 (declaredRecords s.host.in1)).toNat =
          declaredRecords s.host.in1 := by
        rw [BitVec.toNat_ofNat, Nat.mod_eq_of_lt]
        unfold declaredRecords
        omega
      have hpos10 : (readOn 10 s).inPos.toNat = 10 := by
        rw [readOn_pos (by omega), hpos]
      have hloop := recordsLoop (m := declaredRecords s.host.in1)
        (n := declaredRecords s.host.in1 + 1)
        (s := { readOn 10 s with
          hdrlen := headerLengthOf s.host.in1
          bitlen := encodedBitLenOf s.host.in1
          nrec := BitVec.ofNat 16 (declaredRecords s.host.in1)
          recidx := 0 }) (by
            show (BitVec.ofNat 16 (declaredRecords s.host.in1)).toNat = 0 + _
            omega) (by omega) (h.readOn 10) (by
            show (readOn 10 s).inPos.toNat + _ < _
            unfold declaredRecords
            omega)
      have hrem10 : remaining .one { readOn 10 s with
          hdrlen := headerLengthOf s.host.in1
          bitlen := encodedBitLenOf s.host.in1
          nrec := BitVec.ofNat 16 (declaredRecords s.host.in1)
          recidx := 0 } = s.host.in1.drop 10 := by
        have := remaining_readOn (p := .one) (s := s) (n := 10) (by omega)
        rw [hrem] at this
        exact this
      have hfq : ({ readOn 10 s with
          hdrlen := headerLengthOf s.host.in1
          bitlen := encodedBitLenOf s.host.in1
          nrec := BitVec.ofNat 16 (declaredRecords s.host.in1)
          recidx := 0 } : State).freq = emptyTable := hf
      rw [hrem10, hfq] at hloop
      have hgoal : ((headerLengthOf s.host.in1).toNat - Config.hdrFixed) / Config.recBytes =
          declaredRecords s.host.in1 := rfl
      rw [hgoal]
      have hphase : recordsPhase { readOn 10 s with
          hdrlen := headerLengthOf s.host.in1
          bitlen := encodedBitLenOf s.host.in1
          nrec := BitVec.ofNat 16 (declaredRecords s.host.in1)
          recidx := 0 } = iterate recordBody (declaredRecords s.host.in1 + 1) { readOn 10 s with
          hdrlen := headerLengthOf s.host.in1
          bitlen := encodedBitLenOf s.host.in1
          nrec := BitVec.ofNat 16 (declaredRecords s.host.in1)
          recidx := 0 } := by
        unfold recordsPhase
        rw [hnum]
      have hunf : (BitVec.ofNat 16 (((headerLengthOf s.host.in1).toNat - 10) / 9)) =
          BitVec.ofNat 16 (declaredRecords s.host.in1) := rfl
      rw [hunf, hphase]
      have h10 : s.host.in1.drop Config.hdrFixed = s.host.in1.drop 10 := rfl
      rw [h10]
      have hhl : 10 + 9 * declaredRecords s.host.in1 = (headerLengthOf s.host.in1).toNat := by
        unfold declaredRecords
        omega
      revert hloop
      cases parseRecords (declaredRecords s.host.in1) (s.host.in1.drop 10) emptyTable with
      | error e => exact id
      | ok r =>
        rintro ⟨g1, g2, g3⟩
        refine ⟨?_, rfl, ?_, ?_⟩
        · rw [g1]
          have h0 : (0 : BitVec 16).toNat + declaredRecords s.host.in1 =
              declaredRecords s.host.in1 := Nat.zero_add _
          simp only [recordsRead, readOn] at hpos10 ⊢
          simp only [hpos10, h0, hhl, answered, List.drop_drop, keyRead]
        · rw [g2, List.drop_drop, hhl]
        · rw [List.length_drop] at g3
          omega

/-! ### KEYRD undoes KEYWR (rule R197, rule R201) -/

theorem parseRecords_order {freq acc : Vector Word64 256} {order : List Byte} (p : List Byte)
    (hnd : order.Nodup) (hf : ∀ b ∈ order, entry freq b ≠ 0) (ha : ∀ b ∈ order, entry acc b = 0) :
    parseRecords order.length (order.flatMap (recordBytes freq) ++ p) acc =
      .ok (order.foldl (fun t b => setEntry t b (entry freq b)) acc, p) := by
  induction order generalizing acc with
  | nil => rfl
  | cons b order ih =>
    have hfb := hf b (by simp)
    have hab := ha b (by simp)
    obtain ⟨hb, hnd'⟩ := List.nodup_cons.mp hnd
    have e : (b :: order).flatMap (recordBytes freq) ++ p =
        b :: (be64 (entry freq b) ++ (order.flatMap (recordBytes freq) ++ p)) := by
      simp [recordBytes]
    rw [e, List.length_cons, parseRecords, frequencyOf_be64, byteValueOf_cons,
      if_neg (by simp [Config.recBytes]),
      if_neg (by rintro (h | h) <;> contradiction)]
    have hd : (b :: (be64 (entry freq b) ++ (order.flatMap (recordBytes freq) ++ p))).drop
        Config.recBytes = order.flatMap (recordBytes freq) ++ p := rfl
    rw [hd, ih hnd' (fun c hc => hf c (by simp [hc])) fun c hc => ?_]
    · rfl
    · have hcb : c ≠ b := fun e => hb (by rwa [← e])
      rw [entry_setEntry_other _ _ _ _ hcb]
      exact ha c (by simp [hc])

theorem entry_setAll (freq : Vector Word64 256) (order : List Byte) (acc : Vector Word64 256)
    (c : Byte) :
    entry (order.foldl (fun t b => setEntry t b (entry freq b)) acc) c =
      if c ∈ order then entry freq c else entry acc c := by
  induction order generalizing acc with
  | nil => simp
  | cons b order ih =>
    rw [List.foldl_cons, ih, entry_setEntry]
    by_cases h1 : c ∈ order <;> by_cases h2 : c = b <;> simp [h1, h2]

/-- A header with its records in any order parses to its table (rule R197). -/
theorem parse_order {freq : Vector Word64 256} {order : List Byte} (n : Word64) (p : List Byte)
    (ho : order.Perm (presentBytes freq)) :
    parse (be16 (BitVec.ofNat 16 (headerLengthFor freq)) ++ be64 n ++
      order.flatMap (recordBytes freq) ++ p) = .ok (freq, n.toNat, p) := by
  have hle := headerLengthFor_le freq
  have e : be16 (BitVec.ofNat 16 (headerLengthFor freq)) ++ be64 n ++
      order.flatMap (recordBytes freq) ++ p =
      be16 (BitVec.ofNat 16 (headerLengthFor freq)) ++
        (be64 n ++ (order.flatMap (recordBytes freq) ++ p)) := by
    simp only [List.append_assoc]
  rw [e]
  unfold parse
  rw [headerLengthOf_be16, encodedBitLenOf_be64, headerLengthFor_toNat, headerLengthFor_eq,
    if_neg (by simp [Config.hdrFixed]; omega),
    if_neg (by simp [Config.hdrFixed, Config.recBytes])]
  have hd : (be16 (BitVec.ofNat 16 (10 + 9 * (presentBytes freq).length)) ++
      (be64 n ++ (order.flatMap (recordBytes freq) ++ p))).drop Config.hdrFixed =
      order.flatMap (recordBytes freq) ++ p := rfl
  have hl : (10 + 9 * (presentBytes freq).length - Config.hdrFixed) / Config.recBytes =
      order.length := by
    rw [ho.length_eq]
    simp [Config.hdrFixed, Config.recBytes]
  have hnd := ho.nodup_iff.mpr (presentBytes_nodup freq)
  have hm : ∀ b, b ∈ order ↔ entry freq b ≠ 0 := fun b => by
    rw [ho.mem_iff, mem_presentBytes]
  rw [hd, hl, parseRecords_order p hnd (fun b hb => (hm b).mp hb)
    (fun b _ => by simp [emptyTable])]
  have ht : order.foldl (fun t b => setEntry t b (entry freq b)) emptyTable = freq := by
    refine table_ext fun c => ?_
    rw [entry_setAll]
    split
    · rfl
    · rename_i hc
      have : entry freq c = 0 := by
        by_contra h
        exact hc ((hm c).mpr h)
      rw [this]
      simp [emptyTable]
  simp only [ht]

theorem parse_keyBytes (freq : Vector Word64 256) (n : Word64) (p : List Byte) :
    parse (keyBytes freq n ++ p) = .ok (freq, n.toNat, p) :=
  parse_order n p (.refl _)

/-! ### A host that fails while the key is read (rule R192) -/

theorem OkFor.replicate {n k : Nat} {s : State} {more : List HostAnswer} (h : n ≤ k)
    (ha : s.host.answers = List.replicate k .ok ++ more) : OkFor n s := by
  intro a hm
  rw [ha, List.take_append_of_le_length (by simpa using h)] at hm
  exact List.eq_of_mem_replicate (List.mem_of_mem_take hm)

/-- The record loop where the bytes before the `Err` are too few. -/
theorem recordsLoop_err {m n k : Nat} {s : State} {more : List HostAnswer}
    (hm : s.nrec.toNat = s.recidx.toNat + m) (hn : m < n)
    (ha : s.host.answers = List.replicate k .ok ++ .err :: more)
    (hk : k ≤ (remaining .one s).length) (hp : s.inPos.toNat + 9 * m < 2 ^ 64)
    (he : parseRecords m ((remaining .one s).take k) s.freq = .error .eFmtShort) :
    ∃ t, iterate recordBody n s = .raised .eIoIn t := by
  induction m generalizing n k s with
  | zero => simp [parseRecords] at he
  | succ m ih =>
    obtain ⟨n, rfl⟩ : ∃ j, n = j + 1 := ⟨n - 1, by omega⟩
    have hi : s.recidx.toNat < s.nrec.toNat := by omega
    by_cases hk9 : k < 9
    · obtain ⟨t, ht, -⟩ := needBytes_err 9 k s more hk9 ha (by omega) hk
      exact ⟨t, iterate_leave (recordBody_ended hi ht)⟩
    · have hb := needBytes_okFor 9 s (.replicate (by omega) ha) (by omega) (by omega)
      have hbv := byteValueOf_take (remaining .one s) 9 (by omega)
      have hfv := frequencyOf_take (remaining .one s) 9 (by omega)
      have hlen : ¬ ((remaining .one s).take k).length < Config.recBytes := by
        rw [List.length_take, Nat.min_eq_left hk]
        exact hk9
      rw [parseRecords, if_neg hlen, byteValueOf_take _ k (by omega),
        frequencyOf_take _ k (by omega)] at he
      rcases recordBody_bytes hi hb with ⟨hc, hr⟩ | ⟨hc, hr⟩ <;> rw [hbv, hfv] at hc
      · have hc' : frequencyOf (remaining .one s) = 0 ∨
            entry s.freq (byteValueOf (remaining .one s)) ≠ 0 := hc
        rw [if_pos hc'] at he
        simp at he
      · have hc' : ¬(frequencyOf (remaining .one s) = 0 ∨
            entry s.freq (byteValueOf (remaining .one s)) ≠ 0) := by
          rintro (h1 | h1)
          · exact hc.1 h1
          · exact h1 hc.2
        rw [if_neg hc'] at he
        rw [iterate_again hr, hbv, hfv]
        have hidx : (s.recidx + 1).toNat = s.recidx.toNat + 1 := by
          have := s.nrec.isLt
          exact half_succ (by omega)
        have hpos := readOn_pos (s := s) (n := 9) (by omega)
        have hrem : remaining .one { readOn 9 s with
            freq := setEntry s.freq (byteValueOf (remaining .one s))
              (frequencyOf (remaining .one s))
            recidx := s.recidx + 1 } = (remaining .one s).drop 9 :=
          remaining_readOn (p := .one) (s := s) (n := 9) (by omega)
        refine ih (k := k - 9)
          (s := { readOn 9 s with
            freq := setEntry s.freq (byteValueOf (remaining .one s))
              (frequencyOf (remaining .one s))
            recidx := s.recidx + 1 })
          (by show s.nrec.toNat = (s.recidx + 1).toNat + m; omega) (by omega) ?_ ?_
          (by show (readOn 9 s).inPos.toNat + _ < _; omega) ?_
        · show s.host.answers.drop 9 = _
          rw [ha, List.drop_append_of_le_length (by simp; omega), List.drop_replicate]
        · rw [hrem, List.length_drop]
          omega
        · rw [hrem, ← List.drop_take]
          exact he

/-- An `Err` to any byte KEYRD still reads ends it with `E_IO_IN`: the bytes before it are too few. -/
theorem keyrdPhase_err {k : Nat} {s : State} {more : List HostAnswer} (hp : s.inPos = 0)
    (hf : s.freq = emptyTable) (hk : k ≤ s.host.in1.length)
    (ha : s.host.answers = List.replicate k .ok ++ .err :: more)
    (he : parse (s.host.in1.take k) = .error .eFmtShort) :
    ∃ t, keyrdPhase s = .raised .eIoIn t := by
  have hpos : s.inPos.toNat = 0 := by rw [hp]; rfl
  have hrem : remaining .one s = s.host.in1 := by simp [remaining, hpos, stream]
  by_cases hk10 : k < 10
  · obtain ⟨t, ht, -⟩ := needBytes_err 10 k s more hk10 ha (by omega) (by rw [hrem]; omega)
    have ht' : needBytes Config.hdrFixed s = _ := ht
    exact ⟨t, by simp only [keyrdPhase, ht']⟩
  · have hb := needBytes_okFor 10 s (.replicate (by omega) ha) (by omega) (by rw [hrem]; omega)
    have hb' : needBytes Config.hdrFixed s = _ := hb
    have hlen : ¬ (s.host.in1.take k).length < Config.hdrFixed := by
      rw [List.length_take, Nat.min_eq_left hk]
      exact hk10
    have hphase : keyrdPhase s =
        (takeHeader (headerLengthOf s.host.in1) (encodedBitLenOf s.host.in1) (readOn 10 s)).bind
          recordsPhase := by
      simp only [keyrdPhase, hb', hrem, headerLengthOf_take _ 10 (by omega),
        encodedBitLenOf_take _ 10 (by omega)]
    rw [parse, if_neg hlen, headerLengthOf_take _ k (by omega)] at he
    rw [hphase]
    rcases takeHeader_cases (headerLengthOf s.host.in1) (encodedBitLenOf s.host.in1)
      (readOn 10 s) with ⟨hc, -⟩ | ⟨hc, ht⟩
    · have hc' : (headerLengthOf s.host.in1).toNat < Config.hdrFixed ∨
          ((headerLengthOf s.host.in1).toNat - Config.hdrFixed) % Config.recBytes ≠ 0 := hc
      rw [if_pos hc'] at he
      simp at he
    · have hc' : ¬((headerLengthOf s.host.in1).toNat < Config.hdrFixed ∨
          ((headerLengthOf s.host.in1).toNat - Config.hdrFixed) % Config.recBytes ≠ 0) := by
        simp only [Config.hdrFixed, Config.recBytes]
        omega
      rw [if_neg hc'] at he
      have he' : parseRecords (declaredRecords s.host.in1) ((s.host.in1.take k).drop 10) emptyTable =
          .error .eFmtShort := by
        revert he
        show (match parseRecords (declaredRecords s.host.in1) ((s.host.in1.take k).drop 10)
          emptyTable with | .error e => _ | .ok (freq, rest) => _) = _ → _
        cases parseRecords (declaredRecords s.host.in1) ((s.host.in1.take k).drop 10) emptyTable with
        | error e => simp
        | ok r => simp
      rw [ht, bind_done]
      have hlt := (headerLengthOf s.host.in1).isLt
      have hnum : (BitVec.ofNat 16 (declaredRecords s.host.in1)).toNat =
          declaredRecords s.host.in1 := by
        rw [BitVec.toNat_ofNat, Nat.mod_eq_of_lt]
        unfold declaredRecords
        omega
      have hpos10 : (readOn 10 s).inPos.toNat = 10 := by rw [readOn_pos (by omega), hpos]
      have hdrop : remaining .one (readOn 10 s) = s.host.in1.drop 10 := by
        rw [remaining_readOn (by omega), hrem]
      unfold recordsPhase
      refine recordsLoop_err (m := declaredRecords s.host.in1) (k := k - 10) (more := more)
        ?_ ?_ ?_ ?_ ?_ ?_
      · show (BitVec.ofNat 16 (declaredRecords s.host.in1)).toNat = 0 + _
        omega
      · show _ < (BitVec.ofNat 16 (declaredRecords s.host.in1)).toNat + 1
        omega
      · show s.host.answers.drop 10 = _
        rw [ha, List.drop_append_of_le_length (by simp; omega), List.drop_replicate]
      · show _ ≤ (remaining .one (readOn 10 s)).length
        rw [hdrop, List.length_drop]
        omega
      · show (readOn 10 s).inPos.toNat + _ < _
        unfold declaredRecords
        omega
      · show parseRecords _ ((remaining .one (readOn 10 s)).take _) s.freq = _
        rw [hdrop, ← List.drop_take, hf]
        exact he'

/-! ### What KEYRD keeps -/

/-- `t` is `s` but for what KEYRD writes. -/
def KeyReadFrom (s t : State) : Prop :=
  t = { s with
    freq := t.freq, hdrlen := t.hdrlen, bitlen := t.bitlen, nrec := t.nrec, recidx := t.recidx,
    inPos := t.inPos, host := t.host } ∧ HostKept s t ∧
    (s.recidx.toNat ≤ s.nrec.toNat → t.recidx.toNat ≤ t.nrec.toNat) ∧
    ∀ b, entry s.freq b ≠ 0 → entry t.freq b = entry s.freq b

theorem KeyReadFrom.refl (s : State) : KeyReadFrom s s := ⟨rfl, .refl s, id, fun _ _ => rfl⟩

theorem KeyReadFrom.trans {s t u : State} (h : KeyReadFrom s t) (h' : KeyReadFrom t u) :
    KeyReadFrom s u := by
  obtain ⟨h1, h2, h3, h7⟩ := h
  obtain ⟨h4, h5, h6, h8⟩ := h'
  refine ⟨?_, h2.trans h5, h6 ∘ h3, fun b hb => ?_⟩
  · rw [h4, h1]
  · have := h7 b hb
    rw [h8 b (by rwa [this]), this]

theorem ReadFrom.keyRead {s t : State} (h : ReadFrom s t) : KeyReadFrom s t := by
  obtain ⟨h1, h2⟩ := h
  refine ⟨?_, h2, fun hp => ?_, fun b _ => ?_⟩
  · rw [h1]
  · rw [h1]; exact hp
  · rw [h1]

theorem takeHeader_sat (h : BitVec 16) (n : Word64) (s : State) :
    (takeHeader h n s).Sat (KeyReadFrom s) (fun c t => c = .eFmtHdrlen ∧ KeyReadFrom s t) := by
  rcases takeHeader_cases h n s with ⟨_, he⟩ | ⟨_, he⟩ <;> rw [he]
  · exact ⟨rfl, rfl, .refl s, id, fun _ _ => rfl⟩
  · exact ⟨rfl, .refl s, fun _ => Nat.zero_le _, fun _ _ => rfl⟩

/-- Everything an iteration of the record loop can do. -/
theorem recordBody_cases (s : State) :
    recordBody s = .leave (.done s) ∨
    (∃ c t, recordBody s = .leave (.raised c t) ∧
      (c = .eIoIn ∨ c = .eFmtShort ∨ c = .eFmtRecord) ∧ KeyReadFrom s t) ∨
    (recordBody s = .leave (.refused .inputBeyondCapacity) ∧ TooLong .one s) ∨
    (∃ t, recordBody s = .again t ∧ KeyReadFrom s t ∧
      t.nrec.toNat - t.recidx.toNat < s.nrec.toNat - s.recidx.toNat) := by
  by_cases hi : s.recidx.toNat < s.nrec.toNat
  · rcases needBytes_cases 9 s with ⟨bs, t, hb, _, hr⟩ | ⟨c, t, hb, hc, hr⟩ | ⟨hb, hl⟩
    · rcases recordBody_bytes hi hb with ⟨_, he⟩ | ⟨hz, he⟩
      · exact .inr (.inl ⟨_, _, he, .inr (.inr rfl), hr.keyRead⟩)
      · have hidx : (t.recidx + 1).toNat = s.recidx.toNat + 1 := by
          have hlt := s.nrec.isLt
          have hti : t.recidx = s.recidx := by rw [hr.1]
          rw [hti]
          exact half_succ (by omega)
        have hn : t.nrec = s.nrec := by rw [hr.1]
        refine .inr (.inr (.inr ⟨_, he, hr.keyRead.trans ⟨rfl, .refl t, fun _ => ?_, fun b hb => ?_⟩, ?_⟩))
        · show (t.recidx + 1).toNat ≤ t.nrec.toNat
          rw [hidx, hn]; omega
        · exact entry_setEntry_other _ _ _ _ fun e => hb (by rw [e]; exact hz.2)
        · show t.nrec.toNat - (t.recidx + 1).toNat < _
          rw [hidx, hn]; omega
    · refine .inr (.inl ⟨c, t, recordBody_ended hi hb, ?_, hr.keyRead⟩)
      exact hc.elim .inl (fun h => .inr (.inl h))
    · exact .inr (.inr (.inl ⟨recordBody_ended hi hb, hl⟩))
  · exact .inl (recordBody_leave (by omega))

theorem recordsPhase_sat (s : State) :
    (recordsPhase s).Sat (KeyReadFrom s)
      (fun c t => (c = .eIoIn ∨ c = .eFmtShort ∨ c = .eFmtRecord) ∧ KeyReadFrom s t) := by
  refine iterate_sat (I := KeyReadFrom s) ?_ ?_ _ s (.refl s)
  · intro u v hu hv
    rcases recordBody_cases u with h | ⟨c, t, h, _⟩ | ⟨h, _⟩ | ⟨t, h, ht, _⟩ <;>
      rw [h] at hv <;> simp at hv
    subst hv
    exact hu.trans ht
  · intro u e hu he
    rcases recordBody_cases u with h | ⟨c, t, h, hc, ht⟩ | ⟨h, _⟩ | ⟨t, h, ht, _⟩ <;>
      rw [h] at he <;> simp at he <;> subst he
    · exact hu
    · exact ⟨hc, hu.trans ht⟩
    · trivial

theorem keyrdPhase_sat (s : State) :
    (keyrdPhase s).Sat (KeyReadFrom s)
      (fun c t => (c = .eIoIn ∨ c = .eFmtShort ∨ c = .eFmtHdrlen ∨ c = .eFmtRecord) ∧
        KeyReadFrom s t) := by
  unfold keyrdPhase
  rcases needBytes_cases 10 s with ⟨bs, t, hb, _, hr⟩ | ⟨c, t, hb, hc, hr⟩ | ⟨hb, _⟩ <;>
    have hb' : needBytes Config.hdrFixed s = _ := hb <;> rw [hb']
  · refine bind_sat (M := KeyReadFrom s) ?_ fun u hu => ?_
    · exact (takeHeader_sat _ _ t).mono (fun u hu => hr.keyRead.trans hu)
        (fun c u hu => ⟨.inr (.inr (.inl hu.1)), hr.keyRead.trans hu.2⟩)
    · refine (recordsPhase_sat u).mono (fun v hv => hu.trans hv) fun c v hv => ⟨?_, hu.trans hv.2⟩
      rcases hv.1 with h | h | h
      · exact .inl h
      · exact .inr (.inl h)
      · exact .inr (.inr (.inr h))
  · exact ⟨hc.elim .inl fun h => .inr (.inl h), hr.keyRead⟩
  · trivial

/-- The record loop always ends by itself. -/
theorem recordsPhase_own (s : State) : (recordsPhase s).Own (TooLong .one s) := by
  obtain ⟨u, e, hus, hu, he⟩ := iterate_leaves (body := recordBody) (I := KeyReadFrom s)
    (fun s => s.nrec.toNat - s.recidx.toNat) (by
      intro u v hus hv
      rcases recordBody_cases u with h | ⟨c, t, h, _⟩ | ⟨h, _⟩ | ⟨t, h, ht, hm⟩ <;>
        rw [h] at hv <;> simp at hv
      subst hv
      exact ⟨hus.trans ht, hm⟩) (s.nrec.toNat + 1) s (.refl s) (by omega)
  rw [recordsPhase, he]
  rcases recordBody_cases u with h | ⟨c, t, h, _⟩ | ⟨h, hl⟩ | ⟨t, h, _⟩ <;>
    rw [h] at hu <;> simp at hu <;> subst hu
  · trivial
  · trivial
  · exact ⟨rfl, hus.2.1.tooLong hl⟩

/-- KEYRD always ends by itself. -/
theorem keyrdPhase_own (s : State) : (keyrdPhase s).Own (TooLong .one s) := by
  unfold keyrdPhase
  rcases needBytes_cases 10 s with ⟨bs, t, hb, _, hr⟩ | ⟨c, t, hb, _⟩ | ⟨hb, hl⟩ <;>
    have hb' : needBytes Config.hdrFixed s = _ := hb <;> rw [hb']
  · rcases takeHeader_cases (headerLengthOf bs) (encodedBitLenOf bs) t with ⟨_, he⟩ | ⟨_, he⟩ <;>
      simp only [he, bind_raised, bind_done]
    · trivial
    · have h := recordsPhase_own { t with
        hdrlen := headerLengthOf bs
        bitlen := encodedBitLenOf bs
        nrec := BitVec.ofNat 16 (((headerLengthOf bs).toNat - 10) / 9)
        recidx := 0 }
      revert h
      cases recordsPhase { t with
        hdrlen := headerLengthOf bs
        bitlen := encodedBitLenOf bs
        nrec := BitVec.ofNat 16 (((headerLengthOf bs).toNat - 10) / 9)
        recidx := 0 } with
      | refused r => exact fun h => ⟨h.1, hr.2.tooLong h.2⟩
      | done _ => exact fun _ => trivial
      | raised _ _ => exact fun _ => trivial
      | stuck _ => exact id
  · trivial
  · exact ⟨rfl, hl⟩

end Sys2Proof.Machine
end

