-- ==== Sys2Proof/Laws/Step.lean ====
section
/-! SUPPORT. The step and the sequencer: what a step of a BUSY machine does in each phase, and what a run
of steps does (46_commands.md rule R225 to rule R230). -/

namespace Sys2Proof.Machine

/-! ### Runs -/

theorem run_succ {n : Nat} {s t : State} (h : step s = .next t) :
    Host.Core.run core (n + 1) s = Host.Core.run core n t := by
  have h' : core.step s = .next t := h
  simp only [Host.Core.run, h']

/-- In IDLE, DONE and FAULT CORE waits for the host (rule R230, 60_exceptions.md rule R262). -/
theorem step_waiting {s : State} (h : s.state ≠ .busy) (ha : s.host.actions = []) :
    step s = .next s := by
  simp only [step, select, ha, selectPhase, h, ↓reduceIte]

theorem run_waiting {s : State} (h : s.state ≠ .busy) (ha : s.host.actions = []) (n : Nat) :
    Host.Core.run core n s = .next s := by
  induction n with
  | zero => rfl
  | succ n ih => rw [run_succ (step_waiting h ha), ih]

/-! ### The phase of a BUSY machine -/

/-- The meaning of the phase with a code, for the codes a command starts (30_encoding.md rule R94). -/
def phaseWork (p : BitVec 4) (s : State) : Ended :=
  match p.toNat with
  | 1 => countPhase s
  | 2 => buildPhase s
  | 3 => assignPhase s
  | 4 => packPhase s
  | 5 => .done (keywrPhase s)
  | 6 => keyrdPhase s
  | 7 => unpackPhase s
  | _ => commitPhase s

/-- A step of a BUSY machine runs the phase in `PHASE`, and the sequencer after it (rule R229). -/
theorem step_busy {s : State} (h : s.state = .busy) (ha : s.host.actions = [])
    {q : BitVec 4} (hp : s.phase = q) (hq : 1 ≤ q.toNat ∧ q.toNat ≤ 8) :
    step s = afterPhase (phaseWork q s).outcome := by
  have hn : q = BitVec.ofNat 4 q.toNat := by simp
  obtain ⟨h1, h8⟩ := hq
  simp only [step, select, ha, selectPhase, h, ↓reduceIte, phaseWork, hp]
  generalize q.toNat = k at hn h1 h8
  rw [hn]
  interval_cases k <;> rfl

/-- A phase that ended without a fault, followed by a phase without a rewind. -/
theorem step_goto {s t : State} {p : BitVec 4} (h : s.state = .busy) (ha : s.host.actions = [])
    {q : BitVec 4} (hp : s.phase = q) (hq : 1 ≤ q.toNat ∧ q.toNat ≤ 8) (hw : phaseWork q s = .done t)
    (ht : t.state = .busy) (hn : nextPhase t = .goto p) : step s = .next (setPhase p t) := by
  rw [step_busy h ha hp hq, hw, outcome_done]
  simp only [afterPhase, advance, ht, ↓reduceIte, hn]

/-- A phase that ended without a fault, followed by the rewind and PACK (rule R227). -/
theorem step_rewind {s t : State} {p : BitVec 4} (h : s.state = .busy) (ha : s.host.actions = [])
    {q : BitVec 4} (hp : s.phase = q) (hq : 1 ≤ q.toNat ∧ q.toNat ≤ 8) (hw : phaseWork q s = .done t)
    (ht : t.state = .busy) (hn : nextPhase t = .rewindThen p)
    (he : t.host.answers.head? ≠ some .err) :
    step s = .next (setPhase p { answered 1 t with inPass := .two, inPos := 0 }) := by
  rw [step_busy h ha hp hq, hw, outcome_done]
  simp only [afterPhase, advance, ht, ↓reduceIte, hn, inRewind_ok he, bind_done, outcome_done]

/-- A phase that raised a fault: the command is over. -/
theorem step_raised {s t : State} {e : ErrCode} (h : s.state = .busy) (ha : s.host.actions = [])
    {q : BitVec 4} (hp : s.phase = q) (hq : 1 ≤ q.toNat ∧ q.toNat ≤ 8) (hw : phaseWork q s = .raised e t) :
    step s = .next (raise e t) := by
  rw [step_busy h ha hp hq, hw, outcome_raised]
  simp only [afterPhase, advance, raise_state, reduceCtorEq, ↓reduceIte]

/-- A phase that ended the command. -/
theorem step_ended {s t : State} (h : s.state = .busy) (ha : s.host.actions = [])
    {q : BitVec 4} (hp : s.phase = q) (hq : 1 ≤ q.toNat ∧ q.toNat ≤ 8) (hw : phaseWork q s = .done t)
    (ht : t.state ≠ .busy) : step s = .next t := by
  rw [step_busy h ha hp hq, hw, outcome_done]
  simp only [afterPhase, advance, ht, ↓reduceIte]

/-! ### The order of the phases -/

theorem nextPhase_huff {s : State} (h : s.cmd = huffWord) :
    nextPhase s = nextOfHuff (anyPresent s.freq) s.phase := by simp [nextPhase, h]

theorem nextPhase_puff {s : State} (h : s.cmd = puffWord) :
    nextPhase s = nextOfPuff (anyPresent s.freq) s.phase := by
  simp [nextPhase, h, puffWord, huffWord]

/-! ### The start of a command -/

/-- A step that accepts HUFF. -/
theorem step_huff {s : State} (h : Commanded huffWord s) :
    step s = .next (setPhase 1 (startCommand huffWord (withActions [] s))) := by
  obtain ⟨hb, ha⟩ := h
  simp [step, select, ha, selectAction, selectCommand, decode, decodeCommand, exec, execHuff,
    acceptCommand, hb]

/-- A step that accepts PUFF. -/
theorem step_puff {s : State} (h : Commanded puffWord s) :
    step s = .next (setPhase 6 (startCommand puffWord (withActions [] s))) := by
  obtain ⟨hb, ha⟩ := h
  simp [step, select, ha, selectAction, selectCommand, decode, decodeCommand, exec, execPuff,
    acceptCommand, hb, puffWord, huffWord]

end Sys2Proof.Machine
end

