-- ==== Sys2Proof/Laws/Keeps.lean ====
section
/-! SUPPORT. What every phase but COMMIT keeps, in one shape: the flags, and each part of the invariant.
Also which phases the sequencer can select. -/

namespace Sys2Proof.Machine

open Codec

/-- What a phase that has not faulted keeps of the invariant. -/
structure Keeps (s t : State) : Prop where
  flags : KeepsFlags s t
  packer : PackOk s → PackOk t
  pool : s.pool.Pairwise (· < ·) → t.pool.Pairwise (· < ·)
  nextId : s.nextId.toNat ≤ t.nextId.toNat
  code :
    (∀ b : Byte, (entry s.code b).val.toNat < 2 ^ (entry s.code b).len.toNat) →
      ∀ b : Byte, (entry t.code b).val.toNat < 2 ^ (entry t.code b).len.toNat
  records : s.recidx.toNat ≤ s.nrec.toNat → t.recidx.toNat ≤ t.nrec.toNat

/-- The invariant holds after a phase that ended without a fault. -/
theorem Keeps.inv {s t : State} (h : Keeps s t) (hi : Inv s) : Inv t := by
  obtain ⟨f1, f2, f3, f4, f5, f6⟩ := h.flags
  refine ⟨?_, ?_, h.packer hi.packer, h.pool hi.pool, hi.nextId.trans h.nextId, h.code hi.code,
    h.records hi.records⟩
  · have := hi.status
    unfold StatusOk at *
    rw [f1, f2, f3, f4, f5]; exact this
  · rw [f1, f6]; exact hi.output

/-- The invariant holds after a phase that raised a fault it can raise. -/
theorem Keeps.raise {s t : State} (h : Keeps s t) (hi : Inv s) {e : ErrCode}
    (he : s.phase ∈ raisersOf e) : Inv (raise e t) := by
  obtain ⟨f1, f2, f3, f4, f5, f6⟩ := h.flags
  exact ⟨⟨e, rfl, rfl, by rw [raise_phase, f4]; exact he⟩, fun _ => rfl, h.packer hi.packer,
    h.pool hi.pool, hi.nextId.trans h.nextId, h.code hi.code, h.records hi.records⟩

/-- COUNT, from what its own law says. -/
theorem CountedFrom.toKeeps {s t : State} (h : CountedFrom s t) : Keeps s t := by
  have h1 := h.1
  constructor
  · refine ⟨?_, ?_, ?_, ?_, ?_, ?_⟩ <;> rw [h1]
  · unfold PackOk; rw [h1]; exact id
  · rw [h1]; exact id
  · rw [h1]
  · rw [h1]; exact id
  · rw [h1]; exact id

/-- BUILD, from what its own law says. -/
theorem BuildKeeps.toKeeps {s t : State} (h : BuildKeeps s t) : Keeps s t := by
  have h1 := h.1
  unfold BuiltFrom at h1
  constructor
  · refine ⟨?_, ?_, ?_, ?_, ?_, ?_⟩ <;> rw [h1]
  · unfold PackOk; rw [h1]; exact id
  · exact h.2.1
  · exact h.2.2.1
  · rw [h1]; exact id
  · rw [h1]; exact id

/-- ASSIGN, from what its own law says. -/
theorem CodedFrom.toKeeps {s t : State} (h : CodedFrom s t) : Keeps s t := by
  have h1 := h.1
  constructor
  · refine ⟨?_, ?_, ?_, ?_, ?_, ?_⟩ <;> rw [h1]
  · unfold PackOk; rw [h1]; exact id
  · rw [h1]; exact id
  · rw [h1]
  · exact h.2
  · rw [h1]; exact id

/-- PACK, from what its own law says. -/
theorem PackedFrom.toKeeps {s t : State} (h : PackedFrom s t) : Keeps s t := by
  have h1 := h.1
  constructor
  · refine ⟨?_, ?_, ?_, ?_, ?_, ?_⟩ <;> rw [h1]
  · exact h.2.2
  · rw [h1]; exact id
  · rw [h1]
  · rw [h1]; exact id
  · rw [h1]; exact id

/-- KEYRD, from what its own law says. -/
theorem KeyReadFrom.toKeeps {s t : State} (h : KeyReadFrom s t) : Keeps s t := by
  have h1 := h.1
  constructor
  · refine ⟨?_, ?_, ?_, ?_, ?_, ?_⟩ <;> rw [h1]
  · unfold PackOk; rw [h1]; exact id
  · rw [h1]; exact id
  · rw [h1]
  · rw [h1]; exact id
  · exact h.2.2.1

/-- UNPACK, from what its own law says. -/
theorem UnpackedFrom.toKeeps {s t : State} (h : UnpackedFrom s t) : Keeps s t := by
  have h1 := h.1
  constructor
  · refine ⟨?_, ?_, ?_, ?_, ?_, ?_⟩ <;> rw [h1]
  · unfold PackOk; rw [h1]; exact id
  · rw [h1]; exact id
  · rw [h1]
  · rw [h1]; exact id
  · rw [h1]; exact id

/-- KEYWR keeps the flags and everything the invariant speaks of. -/
theorem keywr_keeps (s : State) : Keeps s (keywrPhase s) :=
  ⟨⟨rfl, rfl, rfl, rfl, rfl, rfl⟩, id, id, le_refl _, id, id⟩

/-- Every phase but COMMIT. -/
theorem phaseWork_sat (p : BitVec 4) (s : State) (h1 : 1 ≤ p.toNat) (h7 : p.toNat ≤ 7) :
    (phaseWork p s).Sat (Keeps s) (fun e t => p ∈ raisersOf e ∧ Keeps s t) := by
  have hn : p = BitVec.ofNat 4 p.toNat := by simp
  generalize p.toNat = k at hn h1 h7
  subst hn
  interval_cases k
  · exact (countPhase_sat s).mono (fun _ h => h.toKeeps)
      (fun c t h => ⟨by rcases h.1 with rfl | rfl <;> decide, h.2.toKeeps⟩)
  · exact (buildPhase_sat s).mono (fun _ h => h.toKeeps)
      (fun c t h => ⟨by rw [h.1]; decide, h.2.toKeeps⟩)
  · exact (assignPhase_sat s).mono (fun _ h => h.toKeeps) (fun c t h => h.elim)
  · exact (packPhase_sat s).mono (fun _ h => h.toKeeps)
      (fun c t h => ⟨by rcases h.1 with rfl | rfl | rfl <;> decide, h.2.toKeeps⟩)
  · exact keywr_keeps s
  · exact (keyrdPhase_sat s).mono (fun _ h => h.toKeeps)
      (fun c t h => ⟨by rcases h.1 with rfl | rfl | rfl | rfl <;> decide, h.2.toKeeps⟩)
  · exact (unpackPhase_sat s).mono (fun _ h => h.toKeeps)
      (fun c t h => ⟨by rcases h.1 with rfl | rfl | rfl <;> decide, h.2.toKeeps⟩)

/-- The next phase is one of the command. -/
theorem nextPhase_mem (s : State) : (∀ p, nextPhase s = .goto p → p ∈ phasesOf s.cmd) ∧
    (∀ p, nextPhase s = .rewindThen p → p ∈ phasesOf s.cmd ∧ (s.phase = 1 ∨ s.phase = 3)) := by
  have h4 : ∀ (q : BitVec 4) (b : Bool), (∀ p, nextOfHuff b q = .goto p → p ∈ [1, 2, 3, 4, 5, 8]) ∧ (∀ p, nextOfHuff b q = .rewindThen p → p ∈ [1, 2, 3, 4, 5, 8] ∧ (q = 1 ∨ q = 3)) := by
    intro q b
    have hq : q = BitVec.ofNat 4 q.toNat := by simp
    have hlt := q.isLt
    unfold nextOfHuff
    generalize q.toNat = k at hq hlt
    subst hq
    interval_cases k <;> cases b <;> simp
  have h5 : ∀ (q : BitVec 4) (b : Bool), (∀ p, nextOfPuff b q = .goto p → p ∈ [6, 2, 3, 7, 8]) ∧ (∀ p, nextOfPuff b q ≠ .rewindThen p) := by
    intro q b
    have hq : q = BitVec.ofNat 4 q.toNat := by simp
    have hlt := q.isLt
    unfold nextOfPuff
    generalize q.toNat = k at hq hlt
    subst hq
    interval_cases k <;> cases b <;> simp
  by_cases hh : s.cmd = huffWord
  · rw [nextPhase_huff hh]
    have : phasesOf s.cmd = [1, 2, 3, 4, 5, 8] := by rw [hh]; rfl
    rw [this]
    exact h4 _ _
  · by_cases hp : s.cmd = puffWord
    · rw [nextPhase_puff hp]
      have : phasesOf s.cmd = [6, 2, 3, 7, 8] := by rw [hp]; rfl
      rw [this]
      exact ⟨(h5 _ _).1, fun p h => absurd h ((h5 _ _).2 p)⟩
    · simp [nextPhase, hh, hp]

/-- The phases of a command are 1 to 8. -/
theorem phasesOf_range {c : BitVec 32} {p : BitVec 4} (h : p ∈ phasesOf c) : 1 ≤ p.toNat ∧ p.toNat ≤ 8 := by
  unfold phasesOf at h
  split at h
  · fin_cases h <;> decide
  · split at h
    · fin_cases h <;> decide
    · simp at h

end Sys2Proof.Machine
end

