-- ==== Sys2Proof/Laws/PerInstr.lean ====
section
/-! SUPPORT. What is proved of every operation as syntax, one lemma for each constructor: the family
`Width`, the number of bits an operation is encoded in. -/

namespace Sys2Proof.Laws.Width

/-- The number of bits of the register, the input or the format an operation is read from: 30_encoding.md
rule R91 (a command word, 32 bits), rule R90 (the reset input, one bit), rule R94 (a phase code, 4 bits),
rule R98 (a fixed part, 10 bytes) and rule R99 (a record, 9 bytes). -/
def bitsOf : Instr → Nat
  | .huff => 32
  | .puff => 32
  | .reset => 1
  | .count => 4
  | .build => 4
  | .assign => 4
  | .pack => 4
  | .keywr => 4
  | .keyrd => 4
  | .unpack => 4
  | .commit => 4
  | .keyHeader _ _ => 8 * 10
  | .keyRecord _ _ => 8 * 9

/-- The encoding of an operation has the number of bits its format gives. -/
def Statement (i : Instr) : Prop := (encode i).width = bitsOf i

theorem huff : Statement .huff := rfl

theorem puff : Statement .puff := rfl

theorem reset : Statement .reset := rfl

theorem count : Statement .count := rfl

theorem build : Statement .build := rfl

theorem assign : Statement .assign := rfl

theorem pack : Statement .pack := rfl

theorem keywr : Statement .keywr := rfl

theorem keyrd : Statement .keyrd := rfl

theorem unpack : Statement .unpack := rfl

theorem commit : Statement .commit := rfl

theorem keyHeader (headerLength : BitVec 16) (encodedBitLen : Word64) :
    Statement (.keyHeader headerLength encodedBitLen) := rfl

theorem keyRecord (byteValue : Byte) (frequency : Word64) :
    Statement (.keyRecord byteValue frequency) := rfl

end Sys2Proof.Laws.Width
end

