-- ==== Sys2Proof/Laws/Stages.lean ====
section
/-! SUPPORT. How a command ends: the fault of a phase, COMMIT, and PACK to COMMIT of HUFF
(46_commands.md rule R227, rule R230, rule R234). -/

namespace Sys2Proof.Machine

open Codec

/-- A phase that raises a fault ends the command as its function says. -/
theorem ended_raised {s u : State} {e : ErrCode} {n : Nat} {r : Except ErrCode (List Byte)}
    (hr : r = .error e) (hb : s.state = .busy) (ha : s.host.actions = []) {q : BitVec 4}
    (hp : s.phase = q) (hq : 1 ≤ q.toNat ∧ q.toNat ≤ 8) (hw : phaseWork q s = .raised e u)
    (hu : u.host.actions = []) : ∃ t, Host.Core.run core (n + 1) s = .next t ∧ EndedAs r t := by
  refine ⟨raise e u, ?_, ?_⟩
  · rw [run_succ (step_raised hb ha hp hq hw)]
    exact run_waiting (by simp) (by simpa using hu) n
  · rw [hr]
    exact ⟨rfl, rfl, rfl, rfl⟩

/-- COMMIT ends the command with the staged output. -/
theorem commit_stage {s : State} {n : Nat} (hb : s.state = .busy) (ha : s.host.actions = [])
    (hp : s.phase = 8) (he : s.err = 0) (hec : s.errclass = 0) (h : NoErr s) :
    ∃ t, Host.Core.run core (n + 1) s = .next t ∧ EndedAs (.ok s.obuf) t := by
  have hw : phaseWork 8 s = .done { answered 1 s with out := s.obuf, state := .done } := by
    show commitPhase s = _
    rw [commitPhase, outCommit_ok h.head?]
    rfl
  have hd : ({ answered 1 s with out := s.obuf, state := .done } : State).state ≠ .busy := by
    show RunState.done ≠ .busy
    decide
  refine ⟨{ answered 1 s with out := s.obuf, state := .done }, ?_, rfl, he, hec, hp, rfl⟩
  rw [run_succ (step_ended hb ha hp (by decide) hw hd)]
  exact run_waiting hd ha n

/-- PACK, KEYWR and COMMIT of HUFF, from the entry state of PACK (43_bit_packer.md rule R170). -/
theorem pack_stage {s : State} {cs : CodeTable} {n : Nat} (hb : s.state = .busy)
    (ha : s.host.actions = []) (hp : s.phase = 4) (hc : s.cmd = huffWord) (he : s.err = 0)
    (hec : s.errclass = 0) (h : NoErr s) (hl : s.host.in2.length < 2 ^ 64) (hpos : s.inPos = 0)
    (hpay : s.pay = []) (hbl : s.bitlen = 0) (hacc : s.acc = 0) (hnb : s.nb = 0) (ho : s.obuf = [])
    (hcode : ∀ l n, pushedBits s.code l n = encodeBits cs l n) :
    ∃ t, Host.Core.run core (n + 3) s = .next t ∧
      EndedAs (match pack cs s.host.in2 with
        | .error e => .error e
        | .ok (p, k) => .ok (keyBytes s.freq (BitVec.ofNat 64 k) ++ p)) t := by
  have hrem : remaining .two s = s.host.in2 := by simp [remaining, hpos, stream]
  have hbl0 : s.bitlen.toNat = 0 := by rw [hbl]; rfl
  have hok : PackOk s := by constructor <;> simp [hnb, hacc]
  have hloop := packLoop (n := unread .two s + 1) hrem
    (by rw [← remaining_length, hrem]; omega) h hl
  have hsat := packPhase_sat s
  rw [hbl0, hcode] at hloop
  unfold pack
  revert hloop
  cases encodeBits cs s.host.in2 0 with
  | error e =>
    rintro ⟨u, hu⟩
    have hu' : packPhase s = .raised e u := hu
    rw [hu'] at hsat
    refine ended_raised rfl hb ha hp (by decide) (u := u) (e := e) hu' ?_
    rw [hsat.2.2.1.1]
    exact ha
  | ok bs =>
    rintro ⟨t, u, g1, g23, g4, g5, g6, g7⟩
    have g1' : packPhase s = .done (flush t) := g1
    rw [g1'] at hsat
    obtain ⟨g2, g3⟩ := g23 hok
    obtain ⟨f1, f2, f3⟩ := flush_spec g2
    have hheld : held s = [] := by simp [held, hpay, hnb, Codec.bits]
    rw [hheld, List.nil_append] at g3
    have hlen8 := congrArg List.length f3
    rw [payloadBits_length, List.length_append, List.length_replicate, g3] at hlen8
    have g21 := g2.1
    have hpad : (8 - t.nb.toNat) % 8 = 8 * ((bs.length + 7) / 8) - bs.length := by
      have := congrArg List.length g3
      rw [held, List.length_append, payloadBits_length, bits_length] at this
      omega
    have hpay2 : (flush t).pay = packBytes bs := by
      apply payloadBits_inj
      rw [f3, g3, hpad, payloadBits_packBytes]
    have hbl2 : (flush t).bitlen = BitVec.ofNat 64 bs.length := by
      apply BitVec.eq_of_toNat_eq
      have := (flush t).bitlen.isLt
      rw [flush_bitlen] at this ⊢
      rw [BitVec.toNat_ofNat, Nat.mod_eq_of_lt (by omega)]
      omega
    generalize flush t = v at *
    obtain ⟨q1, q2, -⟩ := hsat
    have vcmd : v.cmd = huffWord := by rw [q1]; exact hc
    have vphase : v.phase = 4 := by rw [q1]; exact hp
    have vst : v.state = .busy := by rw [q1]; exact hb
    have vact : v.host.actions = [] := by rw [q2.1]; exact ha
    have vfreq : v.freq = s.freq := by rw [q1]
    rw [run_succ (step_goto (p := 5) hb ha hp (by decide) (t := v) g1' vst
        (by rw [nextPhase_huff vcmd, vphase]; rfl)),
      run_succ (step_goto (s := setPhase 5 v) (p := 8) (t := keywrPhase (setPhase 5 v)) vst vact
        (q := 5) rfl (by decide) rfl vst
        (by rw [nextPhase_huff (s := keywrPhase (setPhase 5 v)) vcmd]; rfl))]
    have hobuf : (setPhase 8 (keywrPhase (setPhase 5 v))).obuf =
        keyBytes s.freq (BitVec.ofNat 64 bs.length) ++ packBytes bs := by
      show v.obuf ++ (keyBytes v.freq v.bitlen ++ v.pay) = _
      rw [show v.obuf = [] by rw [q1]; exact ho, vfreq, hbl2, hpay2, List.nil_append]
    have := commit_stage (s := setPhase 8 (keywrPhase (setPhase 5 v))) (n := n) vst vact rfl
      (show v.err = 0 by rw [q1]; exact he) (show v.errclass = 0 by rw [q1]; exact hec)
      (show NoErr v from fun a hm => h a (q2.2.subset hm))
    rw [hobuf] at this
    exact this

end Sys2Proof.Machine
end

