-- ==== Sys2Proof/Laws/Status.lean ====
section
/-! SUPPORT. The `STATUS` word as a number (10_state.md rule R32). -/

namespace Sys2Proof.Machine

/-- A concatenation of two bit vectors as a number. -/
theorem append_toNat {m n : Nat} (x : BitVec m) (y : BitVec n) :
    (x ++ y).toNat = x.toNat * 2 ^ n + y.toNat := by
  rw [BitVec.toNat_append, ← Nat.shiftLeft_add_eq_or_of_lt y.isLt, Nat.shiftLeft_eq]

/-- The word is the sum of its fields, each at its place. -/
theorem statusWord_toNat (s : State) :
    (statusWord s).toNat =
      (stateCode s.state).toNat + 16 * s.phase.toNat + 256 * s.err.toNat +
        4096 * s.errclass.toNat := by
  refine (append_toNat (0#17 ++ s.errclass ++ s.err ++ s.phase ++ 0#2) (stateCode s.state)).trans ?_
  rw [append_toNat, append_toNat, append_toNat, append_toNat]
  simp
  ring

end Sys2Proof.Machine
end

