-- ==== Sys2Proof/Tests/Slice0.lean ====
section
/-! SUPPORT. The model's own tests, and the witnesses of the statements' hypotheses. Expected results are
those of 95_test_vectors.md (named by the vector's id) or worked by hand from the rule cited. -/

namespace Sys2Proof.Tests

open Sys2Proof.Machine

set_option Elab.async false

/-! ### Small states -/

/-- What a test looks at of a next state. -/
def field {α : Type} (f : State → α) (o : Host.Outcome State Fault Refusal) : Option α :=
  match o with
  | .next t => some (f t)
  | .fault _ => none
  | .refused _ => none

theorem of_field {α : Type} {f : State → α} {o : Host.Outcome State Fault Refusal} {v : α}
    (h : field f o = some v) : ∃ t, o = .next t ∧ f t = v := by
  cases o with
  | next t => exact ⟨t, rfl, Option.some.inj h⟩
  | fault _ => cases h
  | refused _ => cases h

/-- Reset, with an input on the two passes. -/
def inputs (in1 in2 : List Byte) : State :=
  { State.reset with host := { HostSide.quiet with in1 := in1, in2 := in2 } }

/-- The same with the coming answers of the host. -/
def answers (as : List HostAnswer) (s : State) : State :=
  { s with host := { s.host with answers := as } }

/-- The same with the coming moves of the host. -/
def moves (acts : List HostAction) (s : State) : State :=
  { s with host := { s.host with actions := acts } }

/-- BUSY in a phase of a command. -/
def busyIn (cmd : BitVec 32) (phase : BitVec 4) (s : State) : State :=
  { s with cmd := cmd, state := .busy, phase := phase }

/-- A table with the given entries. -/
def table (l : List (Byte × Word64)) : Vector Word64 256 :=
  l.foldl (fun t p => setEntry t p.1 p.2) (Vector.replicate 256 0)

/-- Reset with a frequency table. -/
def withFreq (l : List (Byte × Word64)) : State := { State.reset with freq := table l }

/-- The input of S6. -/
def abc : List Byte := [0x41, 0x41, 0x41, 0x42, 0x42, 0x43]

/-- The table of V-C1. -/
def abcFreq : List (Byte × Word64) := [(0x41, 3), (0x42, 2), (0x43, 1)]

/-- The 37 bytes of the header of S6. -/
def abcKey : List Byte :=
  [0x00, 0x25, 0, 0, 0, 0, 0, 0, 0, 0x09] ++ [0x41, 0, 0, 0, 0, 0, 0, 0, 3] ++
    [0x42, 0, 0, 0, 0, 0, 0, 0, 2] ++ [0x43, 0, 0, 0, 0, 0, 0, 0, 1]

/-- The tree of V-B1 as values. -/
def abcTree : Codec.Tree :=
  .internal (.leaf 0x41 3) (.internal (.leaf 0x43 1) (.leaf 0x42 2) 3 0x42) 6 0x41

/-- A leaf of a test. -/
def leafOf (b : Byte) (f : Word64) : Node :=
  { leaf := true, byte := b, freq := f, minb := b, left := 0, right := 0 }

/-- The nodes of V-B1, as program P1 of 95_test_vectors.md lists them. -/
def abcNodes : Vector Node 511 :=
  let t0 := setNode (Vector.replicate 511 Node.zero) 65 (leafOf 0x41 3)
  let t1 := setNode (setNode t0 66 (leafOf 0x42 2)) 67 (leafOf 0x43 1)
  let t2 := setNode t1 256
    { leaf := false, byte := 0, freq := 3, minb := 0x42, left := 67, right := 66 }
  setNode t2 257 { leaf := false, byte := 0, freq := 6, minb := 0x41, left := 65, right := 256 }

/-- The codes of V-A1. -/
def abcCodes : Vector Code 256 :=
  setEntry
    (setEntry (setEntry (Vector.replicate 256 Code.none) 0x41 { val := 0, len := 1 }) 0x43
      { val := 2, len := 2 }) 0x42 { val := 3, len := 2 }

/-- The state before ASSIGN with the tree of V-B1. -/
def beforeAssign : State := { State.reset with node := abcNodes, root := some 257 }

/-- The state before PACK with the codes of V-A1. -/
def beforePack (in2 : List Byte) : State := { inputs abc in2 with code := abcCodes }

/-- The state before UNPACK with the tree of V-B1, a declared length and a payload. -/
def beforeUnpack (bitlen : Word64) (p : List Byte) : State :=
  { inputs (abcKey ++ p) [] with
    node := abcNodes, root := some 257, bitlen := bitlen, hdrlen := 37, inPos := 37 }

/-- The nodes of a tree that is one leaf, the byte 41 four times. -/
def oneNode : Vector Node 511 := setNode (Vector.replicate 511 Node.zero) 65 (leafOf 0x41 4)

/-- The state before UNPACK of the S4 file with a payload. -/
def beforeUnpackOne (p : List Byte) : State :=
  { inputs ([0x00, 0x13, 0, 0, 0, 0, 0, 0, 0, 4] ++ [0x41, 0, 0, 0, 0, 0, 0, 0, 4] ++ p) [] with
    node := oneNode, root := some 65, bitlen := 4, hdrlen := 19, inPos := 19 }

/-- The flags a fault leaves. -/
def flags (t : State) : RunState × BitVec 4 × BitVec 3 × List Byte := (t.state, t.err, t.errclass, t.out)

/-! ### Well-formedness: an ill-formed term for each check -/

/-- A header length below 10 (30_encoding.md rule R101). -/
theorem test_wf_header_short : WellFormed (.keyHeader 9 0) = false := by decide

/-- A header length that leaves a remainder (rule R101, V-K6). -/
theorem test_wf_header_remainder : WellFormed (.keyHeader 38 0) = false := by decide

/-- The shortest header, and the one of S6. -/
theorem test_wf_header : WellFormed (.keyHeader 10 0) = true ∧ WellFormed (.keyHeader 37 9) = true := by
  decide

/-- A record with frequency 0 (rule R105). -/
theorem test_wf_record_zero : WellFormed (.keyRecord 0x41 0) = false := by decide

/-- A record with frequency 1. -/
theorem test_wf_record : WellFormed (.keyRecord 0x41 1) = true := by decide

/-! ### Decoding: words written out from 30_encoding.md -/

/-- Rule R92: h, u, f, f in ASCII are 68, 75, 66, 66. -/
theorem test_decode_huff : decode (.cmd 0b01101000_01110101_01100110_01100110#32) = .instr .huff := by
  decide

/-- Rule R92: p is 70. -/
theorem test_decode_puff : decode (.cmd 0b01110000_01110101_01100110_01100110#32) = .instr .puff := by
  decide

/-- Rule R93, program P3: the upper-case letters are illegal. -/
theorem test_decode_upper_case : decode (.cmd 0x48554646#32) = .rejected .illegalCommand := by decide

/-- Rule R90: the reset input asserted. -/
theorem test_decode_reset : decode (.resetInput 0b1#1) = .instr .reset := by decide

/-- The reset input not asserted. -/
theorem test_decode_no_reset : decode (.resetInput 0b0#1) = .rejected .resetNotAsserted := by decide

/-- Rule R94. -/
theorem test_decode_count : decode (.phase 0b0001#4) = .instr .count := by decide

/-- Rule R94. -/
theorem test_decode_build : decode (.phase 0b0010#4) = .instr .build := by decide

/-- Rule R94. -/
theorem test_decode_assign : decode (.phase 0b0011#4) = .instr .assign := by decide

/-- Rule R94. -/
theorem test_decode_pack : decode (.phase 0b0100#4) = .instr .pack := by decide

/-- Rule R94. -/
theorem test_decode_keywr : decode (.phase 0b0101#4) = .instr .keywr := by decide

/-- Rule R94. -/
theorem test_decode_keyrd : decode (.phase 0b0110#4) = .instr .keyrd := by decide

/-- Rule R94. -/
theorem test_decode_unpack : decode (.phase 0b0111#4) = .instr .unpack := by decide

/-- Rule R94. -/
theorem test_decode_commit : decode (.phase 0b1000#4) = .instr .commit := by decide

/-- Rule R94: 0 and 9 to 15. -/
theorem test_decode_no_phase :
    decode (.phase 0b0000#4) = .rejected .phaseIdle ∧
      decode (.phase 0b1001#4) = .rejected .phaseNeverWritten ∧
      decode (.phase 0b1111#4) = .rejected .phaseNeverWritten := by decide

/-- Rule R98 with V-K3: 256 records, 2048 bits. -/
theorem test_decode_header :
    decode (.header [0x09, 0x0A, 0, 0, 0, 0, 0, 0, 0x08, 0x00]) = .instr (.keyHeader 2314 2048) := by
  decide

/-- Rule R99 with V-K11. -/
theorem test_decode_record :
    decode (.record [0x00, 0x01, 0x02, 0x03, 0x04, 0x05, 0x06, 0x07, 0x08]) =
      .instr (.keyRecord 0x00 0x0102030405060708) := by
  decide

/-- Rule R98, rule R99: nine bytes are no header, ten no record. -/
theorem test_decode_lengths :
    decode (.header [0, 0, 0, 0, 0, 0, 0, 0, 0]) = .rejected .notTenBytes ∧
      decode (.record [0, 0, 0, 0, 0, 0, 0, 0, 0, 0]) = .rejected .notNineBytes := by decide

/-- The words as spec/opcode_table.json numbers them. -/
theorem test_decode_table :
    decodeTableWord 32 0x68756666 = some .huff ∧ decodeTableWord 1 1 = some .reset ∧
      decodeTableWord 8 7 = some .unpack ∧
      decodeTableWord 80 0x00250000000000000009 = some (.keyHeader 37 9) ∧
      decodeTableWord 72 0x410000000000000003 = some (.keyRecord 0x41 3) := by decide +kernel

/-! ### HUFF, PUFF, RESET and the sequencer -/

/-- Program P3 step 4: `STATUS` reads 0x00000011 while COUNT runs. -/
theorem test_huff_starts :
    field (fun t => (statusWord t, t.cmd)) (step (moves [.writeCmd 0x68756666#32] State.reset)) =
      some (0x00000011#32, 0x68756666#32) := by decide +kernel

/-- Program P3 step 5: PUFF written while BUSY has no effect. -/
theorem test_puff_while_busy :
    field (fun t => (t.cmd, t.phase))
        (step (moves [.writeCmd 0x70756666#32] (busyIn huffWord 1 State.reset))) =
      some (0x68756666#32, 1) := by decide +kernel

/-- Program P2 step 4: the next command clears the fault and the tables; PUFF begins with phase 6. -/
theorem test_puff_clears :
    field (fun t => (statusWord t, entry t.freq 0x41, t.bitlen))
        (step (moves [.writeCmd 0x70756666#32]
          { withFreq abcFreq with state := .fault, err := 7, errclass := 3, phase := 7, bitlen := 9 })) =
      some (0x00000061#32, 0, 0) := by decide +kernel

/-- Program P3 step 2 and step 3: an illegal word. -/
theorem test_illegal_command :
    field (fun t => (statusWord t, t.cmd)) (step (moves [.writeCmd 0x48554646#32] State.reset)) =
      some (0x00001103#32, 0x48554646#32) := by decide +kernel

/-- Rule R280, rule R281: reset while BUSY. -/
theorem test_reset_while_busy :
    step (moves [.reset] (busyIn puffWord 6 (withFreq abcFreq))) = .next State.reset := by rfl

/-- Program P4 step 3 as rule R232 says: the host reads the fields of `STATUS`. -/
theorem test_read_status :
    field (fun t => t.host.statusRead)
        (step (moves [.readStatus]
          { State.reset with state := .fault, err := 9, errclass := 4, phase := 4 })) =
      some (some 0x00004943#32) := by decide +kernel

/-- Program P2 step 4: with an empty table BUILD and ASSIGN are skipped, and the input is rewound. -/
theorem test_count_then_pack :
    field (fun t => (t.phase, t.inPass, t.inPos)) (step (busyIn huffWord 1 (inputs [] []))) =
      some (4, .two, 0) := by decide +kernel

/-- Rule R228: with an empty table PUFF goes from KEYRD to UNPACK. -/
theorem test_keyrd_then_unpack :
    field (fun t => t.phase)
        (step (busyIn puffWord 6 (inputs [0x00, 0x0A, 0, 0, 0, 0, 0, 0, 0, 0] []))) = some 7 := by
  decide +kernel

/-- Rule R288: `OUT` is not taken before DONE. -/
theorem test_out_taken_early :
    step (moves [.takeOut] State.reset) = .refused .outTakenBeforeDone := by rfl

/-- A BUSY state with a phase no command starts is refused by name. -/
theorem test_phase_not_started :
    step (busyIn huffWord 9 State.reset) = .refused (.phaseNotStarted 9) := by rfl

/-- A placed phase code: CORE is BUSY in COUNT, and the host lets it run. -/
theorem test_place_count :
    State.reset.withFetchWord 8 1 = moves [.letRun] (busyIn huffWord 1 State.reset) := by rfl

/-- A placed command word: the host is about to write it. -/
theorem test_place_huff :
    State.reset.withFetchWord 32 0x68756666 = moves [.writeCmd 0x68756666#32] State.reset := by rfl

/-- A placed record: KEYRD is about to read it behind a fixed part that declares one record. -/
theorem test_place_record :
    State.reset.withFetchWord 72 0x410000000000000003 =
      moves [.letRun] (busyIn puffWord 6 (inputs
        ([0x00, 0x13, 0, 0, 0, 0, 0, 0, 0, 0] ++ [0x41, 0, 0, 0, 0, 0, 0, 0, 3]) [])) := by rfl

/-! ### COUNT -/

/-- V-C1. -/
theorem test_count_abc :
    field (fun t => (entry t.freq 0x41, entry t.freq 0x42, entry t.freq 0x43, entry t.freq 0x44))
        (exec .count (inputs abc [])) = some (3, 2, 1, 0) := by decide +kernel

/-- V-C6: `Err` to the third `InNext(1)`; `STATUS` = 0x00002213. -/
theorem test_count_err :
    field (fun t => (statusWord t, t.out))
        (exec .count (busyIn huffWord 1 (answers [.ok, .ok, .err] (inputs abc abc)))) =
      some (0x00002213#32, []) := by decide +kernel

/-! ### BUILD -/

/-- V-B1: `ROOT`, and the two merged nodes. -/
theorem test_build_abc :
    field (fun t => (t.root, nodeAt t.node 256, nodeAt t.node 257)) (exec .build (withFreq abcFreq)) =
      some (some 257, nodeAt abcNodes 256, nodeAt abcNodes 257) := by decide +kernel

/-- V-B7: the sum `2^64`; `STATUS` = 0x00005A23. -/
theorem test_build_overflow :
    field statusWord
        (exec .build (busyIn puffWord 2
          (withFreq [(0x41, 0x8000000000000000), (0x42, 0x8000000000000000)]))) =
      some 0x00005A23#32 := by decide +kernel

/-! ### ASSIGN -/

/-- V-A1. -/
theorem test_assign_abc :
    field (fun t => (entry t.code 0x41, entry t.code 0x42, entry t.code 0x43, entry t.code 0x44))
        (exec .assign beforeAssign) =
      some (⟨0, 1⟩, ⟨3, 2⟩, ⟨2, 2⟩, ⟨0, 0⟩) := by decide +kernel

/-- V-A6: the degenerate tree. -/
theorem test_assign_degenerate :
    field (fun t => entry t.code 0x41)
        (exec .assign { State.reset with node := oneNode, root := some 65 }) =
      some { val := 0, len := 1 } := by decide +kernel

/-! ### PACK -/

/-- V-P1. -/
theorem test_pack_abc :
    field (fun t => (t.pay, t.bitlen, t.nb, t.acc)) (exec .pack (beforePack abc)) =
      some ([0x1F, 0x00], 9, 0, 0) := by decide +kernel

/-- V-P8: the sixth byte has no entry; `STATUS` = 0x00004943. -/
theorem test_pack_miss :
    field (fun t => (statusWord t, t.out))
        (exec .pack (busyIn huffWord 4 (beforePack [0x41, 0x41, 0x41, 0x42, 0x42, 0x44]))) =
      some (0x00004943#32, []) := by decide +kernel

/-! ### KEYWR and KEYRD -/

/-- V-K1. -/
theorem test_keywr_abc :
    field (fun t => t.obuf)
        (exec .keywr { withFreq abcFreq with bitlen := 9, pay := [0x1F, 0x00] }) =
      some (abcKey ++ [0x1F, 0x00]) := by decide +kernel

/-- V-K2. -/
theorem test_keywr_empty :
    field (fun t => t.obuf) (exec .keywr State.reset) =
      some [0x00, 0x0A, 0, 0, 0, 0, 0, 0, 0, 0] := by decide +kernel

/-- V-K11: two records, frequencies big-endian. -/
theorem test_keyrd_two :
    field (fun t => (entry t.freq 0x00, entry t.freq 0xFF, t.bitlen, t.nrec, payload t))
        (exec .keyrd (inputs ([0x00, 0x1C, 0, 0, 0, 0, 0, 0, 0, 3] ++
          [0x00, 0x01, 0x02, 0x03, 0x04, 0x05, 0x06, 0x07, 0x08] ++
          [0xFF, 0, 0, 0, 0, 0, 0, 0, 1] ++ [0x40]) [])) =
      some (0x0102030405060708, 1, 3, 2, [0x40]) := by decide +kernel

/-- V-K13: the header length is judged before the missing bytes. -/
theorem test_keyrd_length :
    field flags (exec .keyrd (inputs [0x00, 0x0C, 0, 0, 0, 0, 0, 0, 0, 0, 0, 0] [])) =
      some (.fault, 5, 3, []) := by decide +kernel

/-- V-K6: header length 38. -/
theorem test_key_header_remainder :
    field flags (exec (.keyHeader 38 9) State.reset) = some (.fault, 5, 3, []) := by decide +kernel

/-- Rule R193 on S6: 37 bytes are three records. -/
theorem test_key_header :
    field (fun t => (t.nrec, t.hdrlen, t.bitlen)) (exec (.keyHeader 37 9) State.reset) =
      some (3, 37, 9) := by decide +kernel

/-- V-K9: the second record repeats byte 41. -/
theorem test_key_record_repeated :
    field flags (exec (.keyRecord 0x41 2) (withFreq [(0x41, 3)])) = some (.fault, 6, 3, []) := by
  decide +kernel

/-- Rule R192: a record enters `FREQ`. -/
theorem test_key_record :
    field (fun t => (entry t.freq 0x42, entry t.freq 0x41, t.recidx))
        (exec (.keyRecord 0x42 2) (withFreq [(0x41, 3)])) = some (2, 3, 1) := by decide +kernel

/-! ### UNPACK -/

/-- V-U6: a declared length of 10 decodes a padding bit. -/
theorem test_unpack_ten :
    field (fun t => (t.obuf, t.cursor)) (exec .unpack (beforeUnpack 10 [0x1F, 0x00])) =
      some (abc ++ [0x41], 10) := by decide +kernel

/-- V-U4: a declared length of 8 cuts a code; `STATUS` = 0x00003873. -/
theorem test_unpack_cut :
    field (fun t => (statusWord t, t.obuf, t.out))
        (exec .unpack (busyIn puffWord 7 (beforeUnpack 8 [0x1F, 0x00]))) =
      some (0x00003873#32, [], []) := by decide +kernel

/-! ### COMMIT -/

/-- Rule R230. -/
theorem test_commit :
    field (fun t => (t.out, statusWord t)) (exec .commit (busyIn puffWord 8
      { State.reset with obuf := [0x41] })) = some ([0x41], 0x00000082#32) := by decide +kernel

/-- 60_exceptions.md rule R253: code 3, class 2, phase 8. -/
theorem test_commit_err :
    field (fun t => (t.out, statusWord t)) (exec .commit (busyIn puffWord 8
      { answers [.err] State.reset with obuf := [0x41] })) = some ([], 0x00002383#32) := by
  decide +kernel

/-! ### Witnesses: for each statement with hypotheses, what meets them together -/

theorem noErr_of {s : State} (h : s.host.answers.all (· = .ok) = true) : NoErr s := by
  intro a ha
  simpa using List.all_eq_true.mp h a ha

/-- A host about to write a word, with its two passes. -/
def commanded (w : BitVec 32) (in1 in2 : List Byte) : State := moves [.writeCmd w] (inputs in1 in2)

/-- FAULT after an illegal command, with the same host as `commanded`. -/
def afterFault (w : BitVec 32) (in1 in2 : List Byte) : State :=
  { commanded w in1 in2 with cmd := 0x48554646#32, state := .fault, err := 1, errclass := 1 }

/-- The tree of V-B1 is what the nodes of V-B1 hold. -/
theorem abc_represents : Codec.Represents abcNodes 257 abcTree := by
  simp only [Codec.Represents, abcTree]
  decide +kernel

/-- EncodeAfterDecode: a phase, a command, a fixed part. -/
theorem witness_encodeAfterDecode :
    decode (.phase 8) = .instr .commit ∧ decode (.cmd 0x70756666#32) = .instr .puff ∧
      decode (.header [0x00, 0x0A, 0, 0, 0, 0, 0, 0, 0, 0]) = .instr (.keyHeader 10 0) := by decide

/-- StepRunsThePhase: the host idle, and the host letting CORE run; the first and the last phase. -/
theorem witness_stepRunsThePhase :
    (busyIn huffWord 1 State.reset).state = .busy ∧ decode (.phase 1) = .instr .count ∧
      (busyIn huffWord 1 State.reset).host.actions = [] ∧
      (moves [.letRun, .readStatus] (busyIn puffWord 8 State.reset)).state = .busy ∧
      decode (.phase 8) = .instr .commit ∧
      (moves [.letRun, .readStatus] (busyIn puffWord 8 State.reset)).host.actions =
        [.letRun, .readStatus] := by decide +kernel

/-- StepRunsTheHostsOperation: each of the two commands, and reset. -/
theorem witness_stepRunsTheHostsOperation :
    (moves [.writeCmd 0x68756666#32] State.reset).host.actions = [.writeCmd 0x68756666#32] ∧
      decode (.cmd 0x68756666#32) = .instr .huff ∧
      (moves [.writeCmd 0x70756666#32, .letRun] State.reset).host.actions =
        [.writeCmd 0x70756666#32, .letRun] ∧
      decode (.cmd 0x70756666#32) = .instr .puff ∧
      (moves [.reset] State.reset).host.actions = [.reset] := by decide +kernel

/-- OrderOfHuff: each phase, the tables empty and not. -/
theorem witness_orderOfHuff :
    (∃ s : State, s.state = .busy ∧ s.cmd = 0x68756666#32 ∧ s.phase = 1 ∧ ∃ b, entry s.freq b ≠ 0) ∧
    (∃ s : State, s.state = .busy ∧ s.cmd = 0x68756666#32 ∧ s.phase = 1 ∧
      (∀ b, entry s.freq b = 0) ∧ s.host.answers.head? ≠ some .err) ∧
    (∃ s : State, s.state = .busy ∧ s.cmd = 0x68756666#32 ∧ s.phase = 3 ∧
      s.host.answers.head? ≠ some .err) ∧
    ∀ p ∈ [(2 : BitVec 4), 4, 5], ∃ s : State, s.state = .busy ∧ s.cmd = 0x68756666#32 ∧ s.phase = p :=
  ⟨⟨busyIn huffWord 1 (withFreq abcFreq), rfl, rfl, rfl, 0x41, by decide +kernel⟩,
    ⟨busyIn huffWord 1 State.reset, rfl, rfl, rfl, entry_replicate 0, nofun⟩,
    ⟨busyIn huffWord 3 (answers [.ok, .err] (withFreq abcFreq)), by decide +kernel⟩,
    fun p _ => ⟨busyIn huffWord p State.reset, rfl, rfl, rfl⟩⟩

/-- OrderOfPuff: each phase, the tables empty and not. -/
theorem witness_orderOfPuff :
    (∃ s : State, s.state = .busy ∧ s.cmd = 0x70756666#32 ∧ s.phase = 6 ∧ ∃ b, entry s.freq b ≠ 0) ∧
    (∃ s : State, s.state = .busy ∧ s.cmd = 0x70756666#32 ∧ s.phase = 6 ∧
      ∀ b, entry s.freq b = 0) ∧
    ∀ p ∈ [(2 : BitVec 4), 3, 7], ∃ s : State, s.state = .busy ∧ s.cmd = 0x70756666#32 ∧ s.phase = p :=
  ⟨⟨busyIn puffWord 6 (withFreq [(0xFF, 1)]), rfl, rfl, rfl, 0xFF, by decide +kernel⟩,
    ⟨busyIn puffWord 6 State.reset, rfl, rfl, rfl, entry_replicate 0⟩,
    fun p _ => ⟨busyIn puffWord p State.reset, rfl, rfl, rfl⟩⟩

/-- RewindFails: after COUNT of an empty input, and after ASSIGN. -/
theorem witness_rewindFails :
    (∃ s : State, s.state = .busy ∧ s.cmd = 0x68756666#32 ∧
      (s.phase = 1 ∧ ∀ b, entry s.freq b = 0) ∧ s.host.answers.head? = some .err) ∧
    (∃ s : State, s.state = .busy ∧ s.cmd = 0x68756666#32 ∧ s.phase = 3 ∧
      s.host.answers.head? = some .err) :=
  ⟨⟨busyIn huffWord 1 (answers [.err] State.reset), rfl, rfl, ⟨rfl, entry_replicate 0⟩, rfl⟩,
    ⟨busyIn huffWord 3 (answers [.err] (withFreq abcFreq)), rfl, rfl, rfl, rfl⟩⟩

/-- CoreWaitsForTheHost, CommandsStart: IDLE, DONE, FAULT. -/
theorem witness_coreWaitsForTheHost :
    ∀ r ∈ [RunState.idle, .done, .fault], ({ State.reset with state := r } : State).state ≠ .busy ∧
      ({ State.reset with state := r } : State).host.actions = [] := by decide +kernel

/-- CommandStartClears: a legal word and an illegal one. -/
theorem witness_commandStartClears :
    (commanded 0x68756666#32 abc abc).state ≠ .busy ∧
      (commanded 0x68756666#32 abc abc).host.actions = [.writeCmd 0x68756666#32] ∧
      (commanded 0x48554646#32 abc abc).state ≠ .busy ∧
      (commanded 0x48554646#32 abc abc).host.actions = [.writeCmd 0x48554646#32] := by decide +kernel

/-- WriteWhileBusyIgnored: a legal word and an illegal one. -/
theorem witness_writeWhileBusyIgnored :
    (moves [.writeCmd 0x70756666#32] (busyIn huffWord 1 State.reset)).state = .busy ∧
      (moves [.writeCmd 0x70756666#32] (busyIn huffWord 1 State.reset)).host.actions =
        [.writeCmd 0x70756666#32] ∧
      (moves [.writeCmd 0x48554646#32] (busyIn huffWord 1 State.reset)).state = .busy ∧
      (moves [.writeCmd 0x48554646#32] (busyIn huffWord 1 State.reset)).host.actions =
        [.writeCmd 0x48554646#32] := by decide +kernel

/-- IllegalCommandFaults: the word 0, and a word one bit away from HUFF. -/
theorem witness_illegalCommandFaults :
    ((commanded 0#32 [] []).state ≠ .busy ∧ 0#32 ≠ 0x68756666#32 ∧ 0#32 ≠ 0x70756666#32 ∧
      (commanded 0#32 [] []).host.actions = [.writeCmd 0#32]) ∧
    ((commanded 0x68756667#32 [] []).state ≠ .busy ∧ 0x68756667#32 ≠ 0x68756666#32 ∧
      0x68756667#32 ≠ 0x70756666#32 ∧
      (commanded 0x68756667#32 [] []).host.actions = [.writeCmd 0x68756667#32]) := by decide +kernel

/-- StatusLayout: every fault can be recorded, whatever state it is raised in. -/
theorem witness_statusLayout : ∀ (e : ErrCode) (s : State), Faulted e s (raise e s) :=
  fun _ _ => ⟨rfl, rfl, rfl, rfl, rfl, rfl, rfl⟩

/-- ReadingStatusChangesNothing. -/
theorem witness_readingStatusChangesNothing :
    (moves [.readStatus, .letRun] (busyIn huffWord 4 State.reset)).host.actions =
      [.readStatus, .letRun] := by rfl

/-- OnlyResetStopsACommand: the two moves that answer a next state. -/
theorem witness_onlyResetStopsACommand :
    ∀ a ∈ [HostAction.readStatus, .writeCmd 0x70756666#32],
      (moves [a] (busyIn huffWord 1 State.reset)).state = .busy ∧
      (moves [a] (busyIn huffWord 1 State.reset)).host.actions = [a] ∧ a ≠ .letRun ∧ a ≠ .reset ∧
      field (fun _ => 0) (step (moves [a] (busyIn huffWord 1 State.reset))) = some 0 := by
  decide +kernel

/-- CountAddsOccurrences: from the middle of an input, an entry that ends at `2^64 - 1`, a table that is
not clear. -/
theorem witness_countAddsOccurrences :
    ∃ s : State, NoErr s ∧ s.host.in1.length < 2 ^ 64 ∧
      (∀ b, (entry s.freq b).toNat + (remaining .one s).count b < 2 ^ 64) ∧ s.inPos ≠ 0 ∧
      (entry s.freq 0x42).toNat + (remaining .one s).count 0x42 = 2 ^ 64 - 1 :=
  ⟨{ inputs abc [] with inPos := 3, freq := table [(0x42, 0xFFFFFFFFFFFFFFFD)] },
    noErr_of (by decide), by decide +kernel⟩

/-- CountFromCleared. -/
theorem witness_countFromCleared :
    NoErr (inputs abc abc) ∧ (inputs abc abc).host.in1.length < 2 ^ 64 ∧ (inputs abc abc).inPos = 0 ∧
      ∀ b, entry (inputs abc abc).freq b = 0 :=
  ⟨noErr_of (by decide), by decide +kernel, rfl, entry_replicate 0⟩

/-- CountOverflowFaults: V-C7, an entry that would be `2^64`. -/
theorem witness_countOverflowFaults :
    ∃ s : State, NoErr s ∧ s.host.in1.length < 2 ^ 64 ∧
      ∃ b, (entry s.freq b).toNat + (remaining .one s).count b ≥ 2 ^ 64 :=
  ⟨{ inputs [0x41] [] with freq := table [(0x41, 0xFFFFFFFFFFFFFFFF)] }, noErr_of (by decide),
    by decide +kernel, 0x41, by decide +kernel⟩

/-- How the parser ends on an input: the number of an error, or 0. -/
def parseCase (d : List Byte) : BitVec 4 :=
  match Codec.parse d with
  | .error e => errCode e
  | .ok _ => 0

theorem parse_short {d : List Byte} (h : parseCase d = 4) : Codec.parse d = .error .eFmtShort := by
  unfold parseCase at h
  split at h
  · rename_i e he
    rw [he]
    cases e <;> first | rfl | exact absurd h (by decide)
  · exact absurd h (by decide)

/-- The key of S6 with its records permuted (V-K8), and a payload. -/
def permutedFile : List Byte :=
  [0x00, 0x25, 0, 0, 0, 0, 0, 0, 0, 0x09] ++ [0x43, 0, 0, 0, 0, 0, 0, 0, 1] ++
    [0x41, 0, 0, 0, 0, 0, 0, 0, 3] ++ [0x42, 0, 0, 0, 0, 0, 0, 0, 2] ++ [0x1F, 0x00]

/-- A file whose header length leaves a remainder (V-K6). -/
def badLengthFile : List Byte := [0x00, 0x26, 0, 0, 0, 0, 0, 0, 0, 0x09] ++ [0x41]

/-- A file whose second record repeats byte 41 (V-K9). -/
def badRecordFile : List Byte :=
  [0x00, 0x1C, 0, 0, 0, 0, 0, 0, 0, 0x09] ++ [0x41, 0, 0, 0, 0, 0, 0, 0, 1] ++
    [0x41, 0, 0, 0, 0, 0, 0, 0, 1]

/-- InputFailsWhileReading, COUNT: the first call, the one past the last byte, and a call before the byte
whose count would overflow. -/
theorem witness_inputFailsWhileCounting :
    (∀ k ∈ [0, 6], ∃ s : State, s.host.answers = List.replicate k .ok ++ .err :: [] ∧
      s.host.in1.length < 2 ^ 64 ∧ k ≤ (remaining .one s).length ∧
      ∀ b, (entry s.freq b).toNat + ((remaining .one s).take k).count b < 2 ^ 64) ∧
    (∃ s : State, s.host.answers = List.replicate 3 .ok ++ .err :: [] ∧
      s.host.in1.length < 2 ^ 64 ∧ 3 ≤ (remaining .one s).length ∧
      (∀ b, (entry s.freq b).toNat + ((remaining .one s).take 3).count b < 2 ^ 64) ∧
      (entry s.freq 0x42).toNat + (remaining .one s).count 0x42 ≥ 2 ^ 64) := by
  refine ⟨fun k hk => ⟨answers (List.replicate k .ok ++ [.err]) (inputs abc []), rfl, ?_⟩,
    ⟨answers [.ok, .ok, .ok, .err]
      { inputs abc [] with freq := table [(0x42, 0xFFFFFFFFFFFFFFFF)] }, by decide +kernel⟩⟩
  have h : ∀ k ∈ [0, 6], k ≤ (remaining .one (inputs abc [])).length := by decide +kernel
  have h2 : ∀ b, (entry (inputs abc []).freq b).toNat + (abc.take k).count b < 2 ^ 64 := by
    intro b
    have h3 : (entry (inputs abc []).freq b).toNat = 0 := congrArg _ (entry_replicate 0 b)
    have h4 : (abc.take k).count b ≤ (abc.take k).length := List.count_le_length
    have h5 : (abc.take k).length ≤ 6 := List.length_take_le' k abc
    omega
  exact ⟨by show abc.length < _; decide +kernel, h k hk, h2⟩

/-- InputFailsWhileReading, KEYRD: the first byte, the last of the fixed part and the last of the header of
a file with its records permuted; the last byte of the fixed part before a bad length is judged; the last
byte of a first record, and of a second one before it is judged bad. -/
theorem witness_inputFailsWhileReading :
    ∀ x ∈ [(permutedFile, 0), (permutedFile, 9), (permutedFile, 36), (badLengthFile, 9),
        (badRecordFile, 18), (badRecordFile, 27)],
      ∃ s : State, s.host.answers = List.replicate x.2 .ok ++ .err :: [] ∧ s.inPos = 0 ∧
        s.freq = Codec.emptyTable ∧ s.host.in1 = x.1 ∧ x.2 ≤ s.host.in1.length ∧
        Codec.parse (s.host.in1.take x.2) = .error .eFmtShort := by
  intro x hx
  have h : ∀ x ∈ [(permutedFile, 0), (permutedFile, 9), (permutedFile, 36), (badLengthFile, 9),
      (badRecordFile, 18), (badRecordFile, 27)],
      x.2 ≤ x.1.length ∧ parseCase (x.1.take x.2) = 4 := by decide +kernel
  exact ⟨answers (List.replicate x.2 .ok ++ [.err]) (inputs x.1 []), rfl, rfl, rfl, rfl, (h x hx).1,
    parse_short (h x hx).2⟩

/-- NodeOrderIsTotal: a tie on the frequency (V-B1, second merge) and a difference (first merge). -/
theorem witness_nodeOrderIsTotal :
    nodeLt (leafOf 0x41 3) (nodeAt abcNodes 256) = true ∧
      nodeLt (leafOf 0x43 1) (leafOf 0x42 2) = true ∧
      nodeLt (leafOf 0x42 2) (leafOf 0x41 3) = true ∧
      (leafOf 0x41 3).minb ≠ (nodeAt abcNodes 256).minb := by decide +kernel

/-- SelectionIsLeast: the pool of V-B1 before the first merge, and the empty pool. -/
theorem witness_selectionIsLeast :
    ([65, 66, 67] : List NodeId).Pairwise (fun i j => (nodeAt abcNodes i).minb ≠ (nodeAt abcNodes j).minb) ∧
      takeLeast (idLt abcNodes) [65, 66, 67] = some (67, [65, 66]) ∧
      takeLeast (idLt abcNodes) [] = none := by decide +kernel

/-- How BUILD ends on a table, as a number: a fault, no tree, a tree. -/
def buildCase (freq : Vector Word64 256) : Nat :=
  match Codec.build freq with
  | .error _ => 0
  | .ok none => 1
  | .ok (some _) => 2

/-- BuildMakesTheTree: a state for each of the three cases. -/
theorem witness_buildMakesTheTree :
    ∀ l ∈ [([(0x41, 0x8000000000000000), (0x42, 0x8000000000000000)], 0), ([], 1), (abcFreq, 2)],
      (withFreq l.1).pool = [] ∧ (withFreq l.1).nextId = 256 ∧ buildCase (withFreq l.1).freq = l.2 := by
  decide +kernel

/-- BuildFaultsOnlyOnOverflow: the sums `2^64` (V-B7), `2^64 - 1` (V-B8) and 0. -/
theorem witness_buildFaultsOnlyOnOverflow :
    (withFreq [(0x41, 0x8000000000000000), (0x42, 0x8000000000000000)]).pool = [] ∧
      (withFreq [(0x41, 0x8000000000000000), (0x42, 0x8000000000000000)]).nextId = 256 ∧
      total (table [(0x41, 0x8000000000000000), (0x42, 0x8000000000000000)]) = 2 ^ 64 ∧
      total (table [(0x41, 0x8000000000000000), (0x42, 0x7FFFFFFFFFFFFFFF)]) = 2 ^ 64 - 1 ∧
      total (table []) = 0 :=
  ⟨rfl, rfl, (sum_present _).trans (by decide +kernel), (sum_present _).trans (by decide +kernel),
    (sum_present _).trans (by decide +kernel)⟩

/-- BuildOneEntry: the last byte value, the largest frequency. -/
theorem witness_buildOneEntry :
    ∃ (s : State) (b : Byte), s.pool = [] ∧ s.nextId = 256 ∧ entry s.freq b ≠ 0 ∧
      ∀ c, c ≠ b → entry s.freq c = 0 :=
  ⟨withFreq [(0xFF, 0xFFFFFFFFFFFFFFFF)], 0xFF, rfl, rfl, by decide +kernel, fun c h =>
    (entry_setEntry_other _ _ _ _ h).trans (entry_replicate 0 c)⟩

/-- BuiltTreeHasEachByteOnce: V-B1. -/
theorem witness_builtTreeHasEachByteOnce : Codec.build (table abcFreq) = .ok (some abcTree) := by
  have h : (match Codec.build (table abcFreq) with
    | .ok (some t) => some t
    | _ => none) = some abcTree := by decide +kernel
  split at h
  · rename_i t ht
    rw [ht, Option.some.inj h]
  · cases h

/-- AssignWritesThePaths, CodesArePrefixFree: V-B1, the `CODE` table clear, and ASSIGN answers. -/
theorem witness_assignWritesThePaths :
    beforeAssign.root = some 257 ∧ Codec.Represents beforeAssign.node 257 abcTree ∧
      abcTree.depth ≤ 255 ∧ abcTree.bytes.Nodup ∧ (∀ b, (entry beforeAssign.code b).len = 0) ∧
      ∃ t, exec .assign beforeAssign = .next t :=
  ⟨rfl, abc_represents, by decide +kernel, by decide +kernel,
    fun b => congrArg Code.len (entry_replicate Code.none b),
    (of_field test_assign_abc).imp fun _ h => h.1⟩

/-- CodesArePrefixFree: two entries to compare. -/
theorem witness_codesArePrefixFree :
    (0x41 : Byte) ≠ 0x42 ∧ (entry abcCodes 0x41).len ≠ 0 ∧ (entry abcCodes 0x42).len ≠ 0 := by
  decide +kernel

/-- AssignDegenerateTree. -/
theorem witness_assignDegenerateTree :
    ∃ (s : State) (r : NodeId), s.root = some r ∧ (nodeAt s.node r).leaf = true :=
  ⟨{ State.reset with node := oneNode, root := some 65 }, 65, rfl, by decide +kernel⟩

/-- PackConcatenatesTheCodes: V-P1, and the empty input (V-P7). -/
theorem witness_packConcatenatesTheCodes :
    ∀ l ∈ [(abc, 9), ([], 0)], ((beforePack l.1).host.answers.all (· = .ok) = true) ∧
      (beforePack l.1).host.in2.length < 2 ^ 64 ∧ (beforePack l.1).inPos = 0 ∧
      (beforePack l.1).pay = [] ∧ (beforePack l.1).bitlen = 0 ∧ (beforePack l.1).acc = 0 ∧
      (beforePack l.1).nb = 0 ∧
      (∀ b ∈ (beforePack l.1).host.in2, (entry (beforePack l.1).code b).len ≠ 0) ∧
      ((beforePack l.1).host.in2.flatMap fun b =>
        Codec.codeBits (entry (beforePack l.1).code b)).length = l.2 := by decide +kernel

/-- PackLookupMissFaults: V-P8. -/
theorem witness_packLookupMissFaults :
    ∃ s : State, ∃ before after : List Byte, ∃ b : Byte, NoErr s ∧ s.host.in2.length < 2 ^ 64 ∧
      remaining .two s = before ++ b :: after ∧ (entry s.code b).len = 0 ∧
      (∀ c ∈ before, (entry s.code c).len ≠ 0) ∧
      s.bitlen.toNat + (before.flatMap fun c => Codec.codeBits (entry s.code c)).length < 2 ^ 64 :=
  ⟨beforePack [0x41, 0x41, 0x41, 0x42, 0x42, 0x44], [0x41, 0x41, 0x41, 0x42, 0x42], [], 0x44,
    noErr_of (by decide), by decide +kernel⟩

/-- PackInputFailsOrOverflows: `Err` to the first call and to the one past the last byte; a bit length
that would be `2^64`. -/
theorem witness_packInputFailsOrOverflows :
    (∀ k ∈ [0, 6],
      (answers (List.replicate k .ok ++ [.err]) (beforePack abc)).host.in2.length < 2 ^ 64 ∧
      (∀ b ∈ remaining .two (beforePack abc), (entry (beforePack abc).code b).len ≠ 0) ∧
      k ≤ (remaining .two (beforePack abc)).length ∧
      (beforePack abc).bitlen.toNat + (((remaining .two (beforePack abc)).take k).flatMap fun c =>
        Codec.codeBits (entry (beforePack abc).code c)).length < 2 ^ 64) ∧
    (∃ s : State, NoErr s ∧ s.host.in2.length < 2 ^ 64 ∧
      (∀ b ∈ remaining .two s, (entry s.code b).len ≠ 0) ∧
      s.bitlen.toNat + ((remaining .two s).flatMap fun c => Codec.codeBits (entry s.code c)).length
        ≥ 2 ^ 64) :=
  ⟨by decide +kernel,
    ⟨{ beforePack [0x41] with bitlen := 0xFFFFFFFFFFFFFFFF }, noErr_of (by decide), by decide +kernel⟩⟩

/-- KeyHeaderIsTaken: 10 and 2314; 9, 0 and 38. -/
theorem witness_keyHeaderIsTaken :
    (10 ≤ (10 : BitVec 16).toNat ∧ ((10 : BitVec 16).toNat - 10) % 9 = 0) ∧
      (10 ≤ (2314 : BitVec 16).toNat ∧ ((2314 : BitVec 16).toNat - 10) % 9 = 0) ∧
      (9 : BitVec 16).toNat < 10 ∧ (0 : BitVec 16).toNat < 10 ∧
      ((38 : BitVec 16).toNat - 10) % 9 ≠ 0 := by decide

/-- KeyRecordIsTaken: a new byte; frequency 0, and a byte seen before. -/
theorem witness_keyRecordIsTaken :
    ((1 : Word64) ≠ 0 ∧ entry (withFreq abcFreq).freq 0x44 = 0) ∧ ((0 : Word64) = 0) ∧
      entry (withFreq abcFreq).freq 0x41 ≠ 0 := by decide +kernel

/-- KeyrdParses: S6, and the files of V-K12, V-K6 and V-K10. -/
theorem witness_keyrdParses :
    ∀ l ∈ [(abcKey ++ [0x1F, 0x00], 0), ([], 4), ([0x00, 0x26, 0, 0, 0, 0, 0, 0, 0, 9], 5),
        ([0x00, 0x13, 0, 0, 0, 0, 0, 0, 0, 9] ++ [0x41, 0, 0, 0, 0, 0, 0, 0, 0], 6)],
      NoErr (inputs l.1 []) ∧ (inputs l.1 []).inPos = 0 ∧ (inputs l.1 []).freq = Codec.emptyTable ∧
        parseCase (inputs l.1 []).host.in1 = l.2 := by
  have h : ∀ l ∈ [(abcKey ++ [0x1F, 0x00], (0 : BitVec 4)), ([], 4),
      ([0x00, 0x26, 0, 0, 0, 0, 0, 0, 0, 9], 5),
      ([0x00, 0x13, 0, 0, 0, 0, 0, 0, 0, 9] ++ [0x41, 0, 0, 0, 0, 0, 0, 0, 0], 6)],
      parseCase l.1 = l.2 := by decide +kernel
  exact fun l hl => ⟨nofun, rfl, rfl, h l hl⟩

/-- KeyrdUndoesKeywr, RecordOrderIsFree: S6, and V-K8. -/
theorem witness_keyrdUndoesKeywr :
    ∃ (s s' : State), NoErr s ∧ s.inPos = 0 ∧ s.freq = Codec.emptyTable ∧
      s.host.in1 = keyBytes (table abcFreq) 9 ++ [0x1F, 0x00] ∧
      NoErr s' ∧ s'.inPos = 0 ∧ s'.freq = Codec.emptyTable ∧
      ([0x43, 0x41, 0x42] : List Byte).Perm (presentBytes (table abcFreq)) ∧
      s'.host.in1 = be16 (BitVec.ofNat 16 (headerLengthFor (table abcFreq))) ++ be64 9 ++
        ([0x43, 0x41, 0x42] : List Byte).flatMap (recordBytes (table abcFreq)) ++ [0x1F, 0x00] :=
  ⟨inputs (keyBytes (table abcFreq) 9 ++ [0x1F, 0x00]) [],
    inputs (be16 (BitVec.ofNat 16 (headerLengthFor (table abcFreq))) ++ be64 9 ++
      ([0x43, 0x41, 0x42] : List Byte).flatMap (recordBytes (table abcFreq)) ++ [0x1F, 0x00]) [],
    noErr_of (by decide), rfl, rfl, rfl, noErr_of (by decide), rfl, rfl, by decide +kernel, rfl⟩

/-- How the walk ends on a payload: the number of an error, or 0. -/
def unpackCase (t : Option Codec.Tree) (n : Nat) (p : List Byte) : BitVec 4 :=
  match Codec.unpack t n p with
  | .error e => errCode e
  | .ok _ => 0

/-- UnpackWalksTheTree: V-U1, V-U8 (truncated), V-U4 (declared too short). -/
theorem witness_unpackWalksTheTree :
    (∀ l ∈ [(9, 0), (17, 7), (8, 8)],
      ((beforeUnpack (BitVec.ofNat 64 l.1) [0x1F, 0x00]).host.answers.all (· = .ok) = true) ∧
      (beforeUnpack (BitVec.ofNat 64 l.1) [0x1F, 0x00]).host.in1.length < 2 ^ 64 ∧
      (beforeUnpack (BitVec.ofNat 64 l.1) [0x1F, 0x00]).root = some 257 ∧
      (beforeUnpack (BitVec.ofNat 64 l.1) [0x1F, 0x00]).cursor = 0 ∧
      (beforeUnpack (BitVec.ofNat 64 l.1) [0x1F, 0x00]).inPos.toNat =
        (beforeUnpack (BitVec.ofNat 64 l.1) [0x1F, 0x00]).hdrlen.toNat ∧
      (unpackCase (some abcTree) l.1
        (payload (beforeUnpack (BitVec.ofNat 64 l.1) [0x1F, 0x00]))).toNat = l.2) ∧
    ∀ n, Codec.Represents (beforeUnpack n [0x1F, 0x00]).node 257 abcTree :=
  ⟨by decide +kernel, fun _ => abc_represents⟩

/-- The hypotheses UnpackDegenerateTree has on a state beside its declared length. -/
def degenerate (s : State) : Bool :=
  s.host.answers.all (· = .ok) && decide (s.host.in1.length < 2 ^ 64) && decide (s.root = some 65) &&
    (nodeAt s.node 65).leaf && decide (s.cursor = 0) && decide (s.inPos.toNat = s.hdrlen.toNat)

/-- UnpackDegenerateTree: V-U11; the same file with a declared length of 0, and of 9 bits where 8 are. -/
theorem witness_unpackDegenerateTree :
    (degenerate (beforeUnpackOne [0xF0]) = true ∧ (beforeUnpackOne [0xF0]).bitlen = 4 ∧
      8 * (payload (beforeUnpackOne [0xF0])).length = 8) ∧
    degenerate { beforeUnpackOne [0xF0] with bitlen := 0 } = true ∧
    (degenerate { beforeUnpackOne [0xF0] with bitlen := 9 } = true ∧
      8 * (payload { beforeUnpackOne [0xF0] with bitlen := 9 }).length = 8) := by decide +kernel

/-- UnpackFirstBit: no tree with a declared length of 0 (V-U13) and 1 (V-U12); with a tree, a declared
length of 0 (V-U7), an `Err`, no payload (V-U3). -/
theorem witness_unpackFirstBit :
    (State.reset.root = none ∧ State.reset.bitlen = 0) ∧
    (({ State.reset with bitlen := 1 } : State).root = none ∧
      ({ State.reset with bitlen := 1 } : State).bitlen ≠ 0) ∧
    ((beforeUnpack 0 [0x1F]).root = some 257 ∧ (beforeUnpack 0 [0x1F]).cursor = 0 ∧
      (beforeUnpack 0 [0x1F]).bitlen = 0) ∧
    ((answers [.err] (beforeUnpack 9 [0x1F])).root = some 257 ∧
      (answers [.err] (beforeUnpack 9 [0x1F])).cursor = 0 ∧
      (answers [.err] (beforeUnpack 9 [0x1F])).bitlen ≠ 0 ∧
      (answers [.err] (beforeUnpack 9 [0x1F])).host.answers.head? = some .err) ∧
    ((beforeUnpack 9 []).root = some 257 ∧ (beforeUnpack 9 []).cursor = 0 ∧
      (beforeUnpack 9 []).bitlen ≠ 0 ∧ (beforeUnpack 9 []).host.answers.head? ≠ some .err ∧
      (beforeUnpack 9 []).host.in1.length ≤ (beforeUnpack 9 []).inPos.toNat) := by decide +kernel

theorem unpack_trunc {tree : Option Codec.Tree} {n : Nat} {p : List Byte}
    (h : unpackCase tree n p = 7) : Codec.unpack tree n p = .error .eFmtTrunc := by
  unfold unpackCase at h
  split at h
  · rename_i e he
    rw [he]
    cases e <;> first | rfl | exact absurd h (by decide)
  · exact absurd h (by decide)

/-- UnpackFirstBit: an `Err` to the first payload byte of V-U1, to the second, and to the call past the last
one of V-U8. -/
theorem witness_unpackLaterByte :
    ∀ x ∈ [(9, 0), (9, 1), (17, 2)],
      (answers (List.replicate x.2 .ok ++ [.err])
        (beforeUnpack (BitVec.ofNat 64 x.1) [0x1F, 0x00])).root = some 257 ∧
      Codec.Represents (beforeUnpack (BitVec.ofNat 64 x.1) [0x1F, 0x00]).node 257 abcTree ∧
      (beforeUnpack (BitVec.ofNat 64 x.1) [0x1F, 0x00]).cursor = 0 ∧
      (beforeUnpack (BitVec.ofNat 64 x.1) [0x1F, 0x00]).inPos.toNat =
        (beforeUnpack (BitVec.ofNat 64 x.1) [0x1F, 0x00]).hdrlen.toNat ∧
      (beforeUnpack (BitVec.ofNat 64 x.1) [0x1F, 0x00]).host.in1.length < 2 ^ 64 ∧
      x.2 ≤ (payload (beforeUnpack (BitVec.ofNat 64 x.1) [0x1F, 0x00])).length ∧
      Codec.unpack (some abcTree) x.1
        ((payload (beforeUnpack (BitVec.ofNat 64 x.1) [0x1F, 0x00])).take x.2) =
          .error .eFmtTrunc := by
  intro x hx
  have h : ∀ x ∈ [(9, 0), (9, 1), (17, 2)],
      (beforeUnpack (BitVec.ofNat 64 x.1) [0x1F, 0x00]).host.in1.length < 2 ^ 64 ∧
      x.2 ≤ (payload (beforeUnpack (BitVec.ofNat 64 x.1) [0x1F, 0x00])).length ∧
      unpackCase (some abcTree) x.1
        ((payload (beforeUnpack (BitVec.ofNat 64 x.1) [0x1F, 0x00])).take x.2) = 7 := by
    decide +kernel
  exact ⟨rfl, abc_represents, rfl, rfl, (h x hx).1, (h x hx).2.1, unpack_trunc (h x hx).2.2⟩

/-- CommitHandsOver: an answer ok, and an `Err` in phase 8; after either the host's queue may be empty
(ResetRestoresEverything: so may it be after reset). -/
theorem witness_commitHandsOver :
    State.reset.host.answers.head? ≠ some .err ∧
      (busyIn huffWord 8 (answers [.err] State.reset)).phase = 8 ∧
      (busyIn huffWord 8 (answers [.err] State.reset)).host.answers.head? = some .err ∧
      State.reset.host.actions = [] ∧ field (fun t => t.host.actions) (exec .commit State.reset) = some [] ∧
      field (fun t => t.host.actions)
        (exec .commit (busyIn huffWord 8 (answers [.err] State.reset))) = some [] := by decide +kernel

/-- The fault an operation ends in, from a BUSY state. -/
def faultOf (o : Host.Outcome State Fault Refusal) : Option (RunState × BitVec 4) :=
  field (fun t => (t.state, t.err)) o

/-- FaultsOfEachOperation: every fault a phase can raise, raised from a BUSY state. -/
theorem witness_faultsOfEachOperation :
    faultOf (exec .count (busyIn huffWord 1 (answers [.err] State.reset))) = some (.fault, 2) ∧
    faultOf (exec .count (busyIn huffWord 1
      { inputs [0x41] [] with freq := table [(0x41, 0xFFFFFFFFFFFFFFFF)] })) = some (.fault, 10) ∧
    faultOf (exec .build (busyIn huffWord 2
      (withFreq [(0x41, 0x8000000000000000), (0x42, 0x8000000000000000)]))) = some (.fault, 10) ∧
    faultOf (afterPhase (.next (busyIn huffWord 3 (answers [.err] State.reset)))) = some (.fault, 2) ∧
    faultOf (exec .pack (busyIn huffWord 4 (answers [.err] State.reset))) = some (.fault, 2) ∧
    faultOf (exec .pack (busyIn huffWord 4 (inputs [] [0x41]))) = some (.fault, 9) ∧
    faultOf (exec .pack (busyIn huffWord 4
      { beforePack [0x41] with bitlen := 0xFFFFFFFFFFFFFFFF })) = some (.fault, 10) ∧
    faultOf (exec .keyrd (busyIn puffWord 6 (answers [.err] State.reset))) = some (.fault, 2) ∧
    faultOf (exec .keyrd (busyIn puffWord 6 State.reset)) = some (.fault, 4) ∧
    faultOf (exec .keyrd (busyIn puffWord 6
      (inputs [0x00, 0x0B, 0, 0, 0, 0, 0, 0, 0, 0] []))) = some (.fault, 5) ∧
    faultOf (exec .keyrd (busyIn puffWord 6 (inputs ([0x00, 0x13, 0, 0, 0, 0, 0, 0, 0, 9] ++
      [0x41, 0, 0, 0, 0, 0, 0, 0, 0]) []))) = some (.fault, 6) ∧
    faultOf (exec .unpack (busyIn puffWord 7
      (answers [.err] (beforeUnpack 9 [0x1F])))) = some (.fault, 2) ∧
    faultOf (exec .unpack (busyIn puffWord 7 (beforeUnpack 8 [0x1F]))) = some (.fault, 8) ∧
    faultOf (exec .unpack (busyIn puffWord 7 (beforeUnpack 9 [0x1F]))) = some (.fault, 7) ∧
    faultOf (exec .commit (busyIn puffWord 8 (answers [.err] State.reset))) = some (.fault, 3) := by
  decide +kernel

/-- FrameOfTheReaders, FrameOfTheTreeUnits, FrameOfTheWriters: each operation answers a next state, without
a fault. -/
theorem witness_frames :
    (∃ t, exec .count (inputs abc []) = .next t) ∧ (∃ t, exec .keyrd (inputs abcKey []) = .next t) ∧
    (∃ t, exec (.keyHeader 37 9) State.reset = .next t) ∧
    (∃ t, exec (.keyRecord 0x42 2) (withFreq [(0x41, 3)]) = .next t) ∧
    (∃ t, exec .build (withFreq abcFreq) = .next t) ∧ (∃ t, exec .assign beforeAssign = .next t) ∧
    (∃ t, exec .pack (beforePack abc) = .next t) ∧ (∃ t, exec .keywr State.reset = .next t) ∧
    (∃ t, exec .unpack (beforeUnpack 9 [0x1F, 0x00]) = .next t) ∧
    (∃ t, exec .commit (busyIn puffWord 8 State.reset) = .next t) := by
  have h : ∀ {o : Host.Outcome State Fault Refusal} {r : RunState},
      field (fun t => t.state) o = some r → ∃ t, o = .next t :=
    fun h => (of_field h).imp fun _ h => h.1
  exact ⟨h (r := .idle) (by decide +kernel), h (r := .idle) (by decide +kernel),
    h (r := .idle) (by decide +kernel), h (r := .idle) (by decide +kernel),
    h (r := .idle) (by decide +kernel), h (r := .idle) (by decide +kernel),
    h (r := .idle) (by decide +kernel), h (r := .idle) (by decide +kernel),
    h (r := .idle) (by decide +kernel), h (r := .done) (by decide +kernel)⟩

/-- FrameOfTheTreeUnits: of the nodes of V-B1, the id 68 is no leaf of a present byte and lies below
`NEXT_ID`; 258 is `NEXT_ID` after BUILD. -/
theorem witness_frameOfTheTreeUnits :
    (∀ b, (68 : NodeId) = leafId b → entry (withFreq abcFreq).freq b = 0) ∧
      (68 : NodeId).val < (withFreq abcFreq).nextId.toNat ∧
      (∀ b, (258 : NodeId) = leafId b → entry (withFreq abcFreq).freq b = 0) ∧
      field (fun t => t.nextId.toNat) (exec .build (withFreq abcFreq)) = some 258 := by decide +kernel

/-- HUFF in its third phase. -/
def duringAssign : State :=
  busyIn huffWord 3 { beforeAssign with freq := table abcFreq, pool := [257], nextId := 258 }

/-- The invariant, where the codes are clear and nothing is half packed or half parsed. -/
theorem inv_of {s : State} (hs : StatusOk s) (ho : s.state ≠ .done → s.out = [])
    (hk : s.nb.toNat ≤ 7 ∧ s.acc.toNat < 2 ^ s.nb.toNat) (hp : s.pool.Pairwise (· < ·))
    (hn : 256 ≤ s.nextId.toNat) (hc : s.code = Vector.replicate 256 Code.none)
    (hr : s.recidx.toNat ≤ s.nrec.toNat) : Inv s :=
  ⟨hs, ho, hk, hp, hn, fun b => by rw [hc, entry_replicate]; decide, hr⟩

theorem duringAssign_inv : Inv duringAssign :=
  inv_of ⟨rfl, rfl, by decide +kernel⟩ (fun _ => rfl) (by decide +kernel) (List.pairwise_singleton _ _)
    (by decide +kernel) rfl (by decide +kernel)

/-- EveryStepKeepsTheInvariant: BUSY in ASSIGN, with a table, a pool and codes. -/
theorem witness_everyStepKeepsTheInvariant :
    Inv duringAssign ∧ (∃ t, step duringAssign = .next t) ∧ duringAssign.pool ≠ [] :=
  have hs : field (fun t => t.phase) (step duringAssign) = some 4 := by decide +kernel
  ⟨duringAssign_inv, (of_field hs).imp fun _ h => h.1, by decide +kernel⟩

/-- HuffIsItsFunction, RoundTrip, SecondPassIsWhatIsEncoded (pass 2 a permutation, and empty): the input
of S6. Both passes empty is `witness_huffEmpty`. -/
theorem witness_huff :
    ∀ e ∈ [abc, [0x43, 0x42, 0x41], []], Commanded 0x68756666#32 (commanded 0x68756666#32 abc e) ∧
      NoErr (commanded 0x68756666#32 abc e) ∧
      (commanded 0x68756666#32 abc e).host.in1 = abc ∧ (commanded 0x68756666#32 abc e).host.in2 = e ∧
      abc.length < 2 ^ 64 ∧ e.length < 2 ^ 56 ∧ (∀ b ∈ e, b ∈ abc) ∧ Codec.encodedLength abc = 9 := by
  intro e he
  have h : ∀ e ∈ [abc, [0x43, 0x42, 0x41], []], abc.length < 2 ^ 64 ∧ e.length < 2 ^ 56 ∧
      (∀ b ∈ e, b ∈ abc) ∧ Codec.encodedLength abc = 9 := by decide +kernel
  exact ⟨⟨nofun, rfl⟩, nofun, rfl, rfl, h e he⟩

/-- SecondPassIsWhatIsEncoded, RoundTrip: both passes empty, where the first clause holds and the second does
not. -/
theorem witness_huffEmpty :
    Commanded 0x68756666#32 (commanded 0x68756666#32 [] []) ∧ NoErr (commanded 0x68756666#32 [] []) ∧
      (commanded 0x68756666#32 [] []).host.in1 = [] ∧ (commanded 0x68756666#32 [] []).host.in2 = [] ∧
      ([] : List Byte).length < 2 ^ 56 ∧ (∀ b ∈ ([] : List Byte), b ∈ ([] : List Byte)) ∧
      Codec.encodedLength [] = 0 :=
  ⟨⟨nofun, rfl⟩, nofun, rfl, rfl, by decide, nofun, by decide +kernel⟩

/-- PuffIsItsFunction, RoundTrip, SecondPassIsWhatIsEncoded, EveryCommandEnds: a PUFF of any file. -/
theorem witness_puff (d : List Byte) :
    Commanded 0x70756666#32 (commanded 0x70756666#32 d []) ∧ NoErr (commanded 0x70756666#32 d []) ∧
      (commanded 0x70756666#32 d []).host.in1 = d :=
  ⟨⟨nofun, rfl⟩, nofun, rfl⟩

/-- EveryCommandEnds: an illegal word is a command too, and the host may answer `Err`. -/
theorem witness_everyCommandEnds :
    ∃ (w : BitVec 32) (s : State), Commanded w s ∧ s.host.in1.length < 2 ^ 64 ∧
      s.host.in2.length < 2 ^ 64 ∧ s.host.answers = [.ok, .err] :=
  ⟨0x48554646#32, answers [.ok, .err] (commanded 0x48554646#32 abc abc), ⟨by decide +kernel, rfl⟩,
    by decide +kernel, by decide +kernel, rfl⟩

/-- CommandSeesOnlyItsInput: after reset and after a fault. -/
theorem witness_commandSeesOnlyItsInput :
    Commanded 0x68756666#32 (commanded 0x68756666#32 abc abc) ∧
      Commanded 0x68756666#32 (afterFault 0x68756666#32 abc abc) ∧
      (commanded 0x68756666#32 abc abc).host = (afterFault 0x68756666#32 abc abc).host ∧
      (commanded 0x68756666#32 abc abc).state ≠ (afterFault 0x68756666#32 abc abc).state :=
  ⟨⟨by decide +kernel, rfl⟩, ⟨by decide +kernel, rfl⟩, rfl, by decide +kernel⟩

/-- BUSY in COMMIT, with an output staged. -/
def duringCommit : State := busyIn puffWord 8 { State.reset with obuf := abc }

/-- NoPartialOutput: COMMIT about to hand over; DONE, the host reading `STATUS`; and, in a run from reset,
BUSY after one step. -/
theorem witness_noPartialOutput :
    (Delivered duringCommit ∧
      field (fun t => (t.state, t.out)) (step duringCommit) = some (.done, abc)) ∧
    (Delivered (moves [.readStatus] { duringCommit with state := .done, out := abc }) ∧
      field (fun t => (t.state, t.out))
        (step (moves [.readStatus] { duringCommit with state := .done, out := abc })) =
        some (.done, abc)) ∧
    ∃ (h : HostSide) (n : Nat) (t : State), Host.Core.run core n (resetWith h) = .next t ∧
      t.state ≠ .done ∧ t.state = .busy :=
  ⟨⟨⟨inv_of ⟨rfl, rfl, by decide +kernel⟩ (fun _ => rfl) (by decide +kernel) .nil (le_refl _) rfl
      (le_refl _), nofun⟩, by decide +kernel⟩,
    ⟨⟨inv_of ⟨rfl, rfl, rfl⟩ (fun h => absurd rfl h) (by decide +kernel) .nil (le_refl _) rfl
      (le_refl _), fun _ => rfl⟩, by decide +kernel⟩,
    ⟨{ HostSide.quiet with actions := [.writeCmd 0x68756666#32] }, 1, _, rfl, by decide +kernel,
      by decide +kernel⟩⟩

/-- NoRunGetsStuck: BUSY in BUILD with a table, and BUSY in ASSIGN with a tree. -/
theorem witness_noRunGetsStuck :
    EntryInv (busyIn huffWord 2 (withFreq abcFreq)) ∧ EntryInv duringAssign :=
  ⟨⟨inv_of ⟨rfl, rfl, by decide +kernel⟩ (fun _ => rfl) (by decide +kernel) .nil (le_refl _) rfl
      (le_refl _), fun _ _ => ⟨rfl, rfl⟩, fun _ _ => ⟨0x41, by decide +kernel⟩, nofun⟩,
    ⟨duringAssign_inv, fun _ h => absurd h (by decide +kernel), fun _ h => absurd h (by decide +kernel),
      fun _ _ => ⟨257, abcTree, rfl, abc_represents, by decide +kernel⟩⟩⟩

end Sys2Proof.Tests
end

section
/-! PROOFS. The byte order of the fields (00_scope.md rule R11): the slices of `BE64` by position and `be` as
the sum over positions, beside the inverse laws of Laws/Bytes. -/

namespace Sys2Proof

/-- `BE64` lists its slices from the most significant down. -/
theorem be64_eq_map_range (v : Word64) :
    be64 v = (List.range 8).map fun k => v.extractLsb' (8 * (7 - k)) 8 := rfl

theorem be64_getElem? (v : Word64) (k : Nat) :
    (be64 v)[k]? = if k < 8 then some (v.extractLsb' (8 * (7 - k)) 8) else none := by
  rw [be64_eq_map_range, List.getElem?_map]
  split
  case isTrue hk => rw [List.getElem?_range hk, Option.map_some]
  case isFalse hk => rw [List.getElem?_eq_none (by simpa using hk), Option.map_none]

/-- The recursion of `be` takes the sum's first term; in the rest every position is one less in a sequence
one shorter, so the weights agree. -/
theorem be_eq_sum (s : List Byte) :
    be s = ((List.range s.length).map fun i =>
      (s.getD i 0).toNat * 256 ^ (s.length - 1 - i)).sum := by
  induction s with
  | nil => rfl
  | cons b rest ih =>
    have weight (i : Nat) : rest.length - 1 - i = rest.length - (i + 1) := by omega
    simp only [be, ih, List.length_cons, List.range_succ_eq_map, List.map_cons, List.map_map,
      List.sum_cons, Function.comp_def, Nat.succ_eq_add_one, List.getD_cons_zero,
      List.getD_cons_succ, weight, Nat.add_sub_cancel, Nat.sub_zero]

/-- Settles O4, from the inverse laws of `be`, the slices of `BE64` by position and the sum form of `be`. -/
theorem bigEndianFields : Obligations.BigEndianFields :=
  ⟨fun v => ⟨be_be16 v, rfl⟩, fun v => ⟨be_be64 v, be64_length v, be64_getElem? v⟩, be_eq_sum⟩

end Sys2Proof
end

section
/-! PROOFS. The layout of `STATUS` (10_state.md rule R32): each field is read back from its place in the word, of
which `statusWord_toNat` is the sum. -/

namespace Sys2Proof.Machine

/-- A field of the `STATUS` word, from the digits of the word's sum. -/
theorem statusWord_extract {n : Nat} (s : State) (k : Nat) (x : BitVec n)
    (h : ((stateCode s.state).toNat + 16 * s.phase.toNat + 256 * s.err.toNat +
      4096 * s.errclass.toNat) / 2 ^ k % 2 ^ n = x.toNat) :
    (statusWord s).extractLsb' k n = x := by
  apply BitVec.eq_of_toNat_eq
  rw [BitVec.extractLsb'_toNat, statusWord_toNat, Nat.shiftRight_eq_div_pow, h]

@[simp] theorem statusWord_state (s : State) :
    (statusWord s).extractLsb' 0 2 = stateCode s.state :=
  statusWord_extract s 0 _ (by omega)

@[simp] theorem statusWord_low_zeros (s : State) : (statusWord s).extractLsb' 2 2 = 0 :=
  statusWord_extract s 2 _ (by simp only [BitVec.ofNat_eq_ofNat, BitVec.toNat_zero]; omega)

@[simp] theorem statusWord_phase (s : State) : (statusWord s).extractLsb' 4 4 = s.phase :=
  statusWord_extract s 4 _ (by omega)

@[simp] theorem statusWord_err (s : State) : (statusWord s).extractLsb' 8 4 = s.err :=
  statusWord_extract s 8 _ (by omega)

@[simp] theorem statusWord_errclass (s : State) : (statusWord s).extractLsb' 12 3 = s.errclass :=
  statusWord_extract s 12 _ (by omega)

@[simp] theorem statusWord_high_zeros (s : State) : (statusWord s).extractLsb' 15 17 = 0 :=
  statusWord_extract s 15 _ (by simp only [BitVec.ofNat_eq_ofNat, BitVec.toNat_zero]; omega)

/-- `STATUS` after a fault shows FAULT, the phase before, and the fault's number and class (30_encoding.md rule
R96, 60_exceptions.md rule R262). -/
theorem Faulted.statusWord_fields {e : ErrCode} {s t : State} (h : Faulted e s t) :
    (statusWord t).extractLsb' 0 2 = 3 ∧ (statusWord t).extractLsb' 4 4 = s.phase ∧
      (statusWord t).extractLsb' 8 4 = errCode e ∧ (statusWord t).extractLsb' 12 3 = errClass e := by
  obtain ⟨hstate, herr, hclass, hphase, -⟩ := h
  rw [statusWord_state, statusWord_phase, statusWord_err, statusWord_errclass, hstate, hphase, herr,
    hclass]
  exact ⟨rfl, rfl, rfl, rfl⟩

/-- Settles O16: the fields by their places in the word, and the ten pairs of rule R96 by the table. -/
theorem statusLayout : Obligations.StatusLayout := by
  constructor
  · intro s
    refine ⟨?_, statusWord_low_zeros s, statusWord_phase s, statusWord_err s, statusWord_errclass s,
      statusWord_high_zeros s⟩
    rw [statusWord_state]
    cases s.state <;> rfl
  · have numbers : ∀ x ∈ [(ErrCode.eCmd, 1#4, 1#3), (.eIoIn, 2, 2), (.eIoOut, 3, 2), (.eFmtShort, 4, 3),
        (.eFmtHdrlen, 5, 3), (.eFmtRecord, 6, 3), (.eFmtTrunc, 7, 3), (.eFmtBitlen, 8, 3),
        (.eLookup, 9, 4), (.eOverflow, 10, 5)], errCode x.1 = x.2.1 ∧ errClass x.1 = x.2.2 := by
      decide
    intro x hx
    obtain ⟨herr, hclass⟩ := numbers x hx
    refine ⟨herr, hclass, fun s t h => ?_⟩
    rw [← herr, ← hclass]
    exact h.statusWord_fields

end Sys2Proof.Machine
end

section
/-! PROOFS. What a step can do, said once, and from it that every step keeps the invariant: the host's side takes no
part in it, a start or a reset is at the cleared state, and a phase keeps it by the laws of `Keeps`. -/

namespace Sys2Proof.Machine

/-! ### What a step can do -/

/-- The outcome of what a step has selected. -/
def Selected.outcome : Selected → Host.Outcome State Fault Refusal
  | .operation i s => exec i s
  | .phase i s => afterPhase (exec i s)
  | .answer o => o

theorem step_eq_outcome (s : State) : step s = (select s).outcome := by
  unfold step
  cases select s <;> rfl

/-- The next states a step can answer, by the move that led to each. -/
inductive StepCase (s : State) : State → Prop
  /-- CORE waits, or the host's move touches the host's side alone. -/
  | waits (h : HostSide) : StepCase s { s with host := h }
  /-- The host asserts reset (70_reset_and_hazards.md rule R280). -/
  | resets (h : HostSide) : StepCase s (resetWith h)
  /-- The host starts HUFF (46_commands.md rule R225, rule R227). -/
  | startsHuff (acts : List HostAction) (idle : s.state ≠ .busy) :
      StepCase s (setPhase 1 (startCommand huffWord (withActions acts s)))
  /-- The host starts PUFF (rule R225, rule R228). -/
  | startsPuff (acts : List HostAction) (idle : s.state ≠ .busy) :
      StepCase s (setPhase 6 (startCommand puffWord (withActions acts s)))
  /-- The host writes an illegal word (rule R225, 60_exceptions.md rule R251). -/
  | rejects (word : BitVec 32) (acts : List HostAction) (idle : s.state ≠ .busy) :
      StepCase s (raise .eCmd (startCommand word (withActions acts s)))
  /-- CORE runs the phase in `PHASE`, and the sequencer after it (rule R229). -/
  | runs (acts : List HostAction) (t : State) (busy : s.state = .busy)
      (range : 1 ≤ s.phase.toNat ∧ s.phase.toNat ≤ 8)
      (work : afterPhase (phaseWork s.phase (withActions acts s)).outcome = .next t) : StepCase s t

/-- The operation in `PHASE` is the phase with that code (30_encoding.md rule R94). -/
theorem decodePhase_instr {q : BitVec 4} {i : Instr} (h : decodePhase q = .instr i) :
    (1 ≤ q.toNat ∧ q.toNat ≤ 8) ∧ ∀ s, exec i s = (phaseWork q s).outcome := by
  unfold decodePhase at h
  unfold phaseWork
  split at h <;> cases h
  all_goals
    rename_i hq
    simp only [hq]
    exact ⟨by decide, fun _ => rfl⟩

/-- CORE's own step. -/
theorem selectPhase_case {s t : State} (acts : List HostAction)
    (h : (selectPhase (withActions acts s)).outcome = .next t) : StepCase s t := by
  unfold selectPhase at h
  split at h
  case isTrue busy =>
    cases hd : decodePhase s.phase with
    | instr i =>
      obtain ⟨range, work⟩ := decodePhase_instr hd
      simp only [decode, withActions_phase, hd, Selected.outcome, work] at h
      exact .runs acts t busy range h
    | rejected why => simp [decode, hd, Selected.outcome] at h
  case isFalse => cases h; exact .waits _

/-- A write of a legal word that starts `first`. -/
theorem acceptCommand_case {s t : State} {word : BitVec 32} {first : BitVec 4} (acts : List HostAction)
    (start : s.state ≠ .busy → StepCase s (setPhase first (startCommand word (withActions acts s))))
    (h : acceptCommand word first (withActions acts s) = t) : StepCase s t := by
  subst h
  unfold acceptCommand
  split
  case isTrue => exact .waits _
  case isFalse idle => exact start idle

/-- A host write to `CMD` (rule R225). -/
theorem selectCommand_case {s t : State} (word : BitVec 32) (acts : List HostAction)
    (h : (selectCommand word (withActions acts s)).outcome = .next t) : StepCase s t := by
  simp only [selectCommand, decode, decodeCommand] at h
  split_ifs at h
  · exact acceptCommand_case acts (.startsHuff acts) (Host.Outcome.next.inj h)
  · exact acceptCommand_case acts (.startsPuff acts) (Host.Outcome.next.inj h)
  · obtain rfl := Host.Outcome.next.inj h
    unfold rejectCommand
    split
    case isTrue => exact .waits _
    case isFalse idle => exact .rejects word acts idle

/-- A move of the host (70_reset_and_hazards.md rule R291). -/
theorem selectAction_case {s t : State} (a : HostAction) (acts : List HostAction)
    (h : (selectAction a (withActions acts s)).outcome = .next t) : StepCase s t := by
  cases a with
  | letRun => exact selectPhase_case acts h
  | reset => cases h; exact .resets _
  | writeCmd word => exact selectCommand_case word acts h
  | readStatus => cases h; exact .waits _
  | takeOut =>
    simp only [selectAction, Selected.outcome, hostTakesOut] at h
    split at h <;> cases h
    exact .waits _
  | offer in1 in2 answers =>
    simp only [selectAction, Selected.outcome, hostOffers] at h
    split at h <;> cases h
    exact .waits _

/-- Every next state of a step is one of the cases. -/
theorem step_case {s t : State} (h : step s = .next t) : StepCase s t := by
  rw [step_eq_outcome] at h
  unfold select at h
  split at h
  · exact selectPhase_case s.host.actions h
  · exact selectAction_case _ _ h

/-! ### What keeps the invariant -/

/-- Where a pass stands and what the host holds take no part in the invariant. -/
theorem keeps_streams (s : State) (p : Pass) (n : Word64) (h : HostSide) :
    Keeps s { s with inPass := p, inPos := n, host := h } :=
  ⟨⟨rfl, rfl, rfl, rfl, rfl, rfl⟩, id, id, le_rfl, id, id⟩

theorem Inv.setHost {s : State} (hi : Inv s) (h : HostSide) : Inv { s with host := h } :=
  (keeps_streams s s.inPass s.inPos h).inv hi

/-- Cleared state (46_commands.md rule R226) meets the invariant where its `STATUS` does. -/
theorem inv_clear {s : State} (hs : StatusOk s) : Inv (clear s) where
  status := hs
  output := fun _ => rfl
  packer := by simp
  pool := .nil
  nextId := le_rfl
  code := fun b => by simp [entry_replicate, Code.none]
  records := le_rfl

theorem resetWith_inv (h : HostSide) : Inv (resetWith h) :=
  inv_clear (s := resetWith h) ⟨rfl, rfl, rfl⟩

/-- A command begins in one of its phases. -/
theorem startCommand_inv {word : BitVec 32} {p : BitVec 4} (hp : p ∈ phasesOf word) (s : State) :
    Inv (setPhase p (startCommand word s)) :=
  inv_clear (s := setPhase p (startCommand word s)) ⟨rfl, rfl, hp⟩

theorem rejected_inv (word : BitVec 32) (s : State) : Inv (raise .eCmd (startCommand word s)) :=
  inv_clear (s := raise .eCmd (startCommand word s)) ⟨.eCmd, rfl, rfl, List.mem_singleton_self _⟩

theorem Inv.setPhase {s : State} (hi : Inv s) (hb : s.state = .busy) {p : BitVec 4}
    (hp : p ∈ phasesOf s.cmd) : Inv (setPhase p s) := by
  obtain ⟨status, output, packer, pool, nextId, code, records⟩ := hi
  have statusBusy : StatusOk (Machine.setPhase p s) := by
    simp only [StatusOk, hb] at status
    obtain ⟨err, errclass, -⟩ := status
    simp only [StatusOk, setPhase_state, hb]
    exact ⟨err, errclass, hp⟩
  exact ⟨statusBusy, output, packer, pool, nextId, code, records⟩

/-- COMMIT ends in DONE, or in the fault of `OutCommit` (rule R230). -/
theorem commitPhase_inv {s t : State} (hi : Inv s) (hb : s.state = .busy) (h8 : s.phase = 8)
    (h : (commitPhase s).outcome = .next t) : Inv t := by
  by_cases he : s.host.answers.head? = some .err
  · simp only [commitPhase, outCommit_err he, bind_raised, outcome_raised] at h
    cases h
    exact (keeps_streams s s.inPass s.inPos _).raise hi (by rw [h8]; decide)
  · simp only [commitPhase, outCommit_ok he, bind_done, outcome_done] at h
    cases h
    obtain ⟨status, -, packer, pool, nextId, code, records⟩ := hi
    simp only [StatusOk, hb] at status
    obtain ⟨err, errclass, -⟩ := status
    exact ⟨⟨err, errclass, h8⟩, fun hd => absurd rfl hd, packer, pool, nextId, code, records⟩

/-- A phase, before the sequencer. -/
theorem phaseWork_inv {s t : State} (hi : Inv s) (hb : s.state = .busy)
    (range : 1 ≤ s.phase.toNat ∧ s.phase.toNat ≤ 8) (h : (phaseWork s.phase s).outcome = .next t) :
    Inv t := by
  by_cases h8 : s.phase = 8
  · rw [h8] at h
    exact commitPhase_inv hi hb h8 h
  · have h7 : s.phase.toNat ≤ 7 := by bv_omega
    rcases outcome_next (phaseWork_sat s.phase s range.1 h7) h with keeps | ⟨e, u, ⟨he, keeps⟩, rfl⟩
    · exact keeps.inv hi
    · exact keeps.raise hi he

/-- The sequencer goes to a phase of the command, or raises the fault of `InRewind` (rule R227, rule R228). -/
theorem advance_inv {s t : State} (hi : Inv s) (h : advance s = .next t) : Inv t := by
  obtain ⟨goto_mem, rewind_mem⟩ := nextPhase_mem s
  unfold advance at h
  split at h
  case isFalse => cases h; exact hi
  case isTrue hb =>
    cases hn : nextPhase s with
    | goto p =>
      simp only [hn] at h
      cases h
      exact hi.setPhase hb (goto_mem p hn)
    | rewindThen p =>
      obtain ⟨hp, hraise⟩ := rewind_mem p hn
      simp only [hn] at h
      by_cases he : s.host.answers.head? = some .err
      · rw [inRewind_err he] at h
        cases h
        exact (keeps_streams s s.inPass s.inPos _).raise hi
          (by rcases hraise with hp | hp <;> rw [hp] <;> decide)
      · rw [inRewind_ok he] at h
        cases h
        exact ((keeps_streams s .two 0 _).inv hi).setPhase hb hp
    | nothing => simp [hn] at h

/-- A phase and the sequencer's part after it. -/
theorem afterPhase_inv {s t : State} (hi : Inv s) (hb : s.state = .busy)
    (range : 1 ≤ s.phase.toNat ∧ s.phase.toNat ≤ 8)
    (h : afterPhase (phaseWork s.phase s).outcome = .next t) : Inv t := by
  cases ho : (phaseWork s.phase s).outcome with
  | next u =>
    rw [ho] at h
    exact advance_inv (phaseWork_inv hi hb range ho) h
  | fault f => simp [ho, afterPhase] at h
  | refused r => simp [ho, afterPhase] at h

/-- Settles O50, by the cases of a step. -/
theorem everyStepKeepsTheInvariant : Obligations.EveryStepKeepsTheInvariant := by
  intro s t hi h
  cases step_case h with
  | waits host => exact hi.setHost host
  | resets host => exact resetWith_inv host
  | startsHuff acts _ => exact startCommand_inv (by decide) _
  | startsPuff acts _ => exact startCommand_inv (by decide) _
  | rejects word acts _ => exact rejected_inv word _
  | runs acts t busy range work =>
    exact afterPhase_inv (s := withActions acts s) (hi.setHost _) busy range work

end Sys2Proof.Machine
end

section
/-! PROOFS. The fault of `InRewind` (20_memory.md rule R62): where HUFF rewinds, and what the sequencer answers when
the host answers the call with `Err`. -/

namespace Sys2Proof.Machine

/-- Raising a fault in a state that kept `PHASE` and `CMD` (60_exceptions.md rule R262). -/
theorem faulted_raise {s u : State} (e : ErrCode) (hphase : u.phase = s.phase) (hcmd : u.cmd = s.cmd) :
    Faulted e s (raise e u) :=
  ⟨rfl, rfl, rfl, hphase, hcmd, rfl, rfl⟩

/-- HUFF rewinds after COUNT of an empty table and after ASSIGN (46_commands.md rule R227). -/
theorem nextPhase_huff_rewind {s : State} (hcmd : s.cmd = huffWord)
    (h : (s.phase = 1 ∧ ∀ b, entry s.freq b = 0) ∨ s.phase = 3) : nextPhase s = .rewindThen 4 := by
  rw [nextPhase_huff hcmd]
  rcases h with ⟨hphase, hempty⟩ | hphase
  · rw [hphase, (anyPresent_false_iff s.freq).mpr hempty]
    rfl
  · rw [hphase]
    rfl

/-- An `Err` answer to the rewind before the phase `p`: the fault is raised and `PHASE` is not written. -/
theorem advance_rewind_err {s : State} {p : BitVec 4} (hb : s.state = .busy)
    (hn : nextPhase s = .rewindThen p) (he : s.host.answers.head? = some .err) :
    advance s = .next (raise .eIoIn (answered 1 s)) := by
  simp only [advance, hb, ↓reduceIte, hn, inRewind_err he, bind_raised, outcome_raised]

/-- Settles O9: HUFF is about to rewind, and the rewind's fault keeps `PHASE` and `CMD`. -/
theorem rewindFails : Obligations.RewindFails := fun s hb hcmd hphase he =>
  ⟨raise .eIoIn (answered 1 s), advance_rewind_err hb (nextPhase_huff_rewind hcmd hphase) he,
    faulted_raise .eIoIn rfl rfl⟩

end Sys2Proof.Machine
end

section
/-! PROOFS. The encodings (30_encoding.md): each encoded form decodes to the operation it was written from, and what
decodes to an operation is that operation's encoding. -/

namespace Sys2Proof

/-! ### The decoder, form by form -/

/-- Every word but the two of rule R92 is illegal (rule R93). -/
theorem decodeCommand_illegal {w : BitVec 32} (hhuff : w ≠ huffWord) (hpuff : w ≠ puffWord) :
    decodeCommand w = .rejected .illegalCommand := by
  rw [decodeCommand, if_neg hhuff, if_neg hpuff]

/-- The fixed part of a key is read back from its ten bytes (rule R98). -/
theorem decode_header_be (h : BitVec 16) (n : Word64) :
    decode (.header (be16 h ++ be64 n)) = .instr (.keyHeader h n) := by
  have hbitlen : encodedBitLenOf (be16 h ++ be64 n) = n := by
    simpa only [List.append_nil] using encodedBitLenOf_be64 h n []
  have hlen : (be16 h ++ be64 n).length = 10 := rfl
  rw [decode, if_pos hlen, headerLengthOf_be16, hbitlen]

/-- A record of a key is read back from its nine bytes (rule R99). -/
theorem decode_record_be (b : Byte) (f : Word64) :
    decode (.record (b :: be64 f)) = .instr (.keyRecord b f) := by
  have hfreq : frequencyOf (b :: be64 f) = f := by
    simpa only [List.append_nil] using frequencyOf_be64 b f []
  have hlen : (b :: be64 f).length = 9 := rfl
  rw [decode, if_pos hlen, byteValueOf_cons, hfreq]

/-- Settles O1, by the operation: the two formats of the key by their bytes, the rest by the code tables. -/
theorem decodeAfterEncode : Obligations.DecodeAfterEncode := by
  intro i
  cases i with
  | keyHeader h n => exact decode_header_be h n
  | keyRecord b f => exact decode_record_be b f
  | huff | puff | reset | count | build | assign | pack | keywr | keyrd | unpack | commit => rfl

/-! ### The encoder on what was decoded -/

theorem encode_of_decodeCommand {w : BitVec 32} {i : Instr} (h : decodeCommand w = .instr i) :
    encode i = .cmd w := by
  unfold decodeCommand at h
  split_ifs at h with hhuff hpuff <;> cases h
  · exact congrArg _ hhuff.symm
  · exact congrArg _ hpuff.symm

theorem encode_of_decodePhase {q : BitVec 4} {i : Instr} (h : decodePhase q = .instr i) :
    encode i = .phase q := by
  unfold decodePhase at h
  split at h <;> cases h
  all_goals
    rename_i hq
    exact congrArg Encoded.phase (BitVec.eq_of_toNat_eq hq.symm)

/-- Ten bytes are the fixed part with the fields read from them (rule R98). -/
theorem header_fields {bytes : List Byte} (hlen : bytes.length = 10) :
    be16 (headerLengthOf bytes) ++ be64 (encodedBitLenOf bytes) = bytes := by
  have htake : (bytes.take 2).length = 2 := by simp [hlen]
  have hdrop : (bytes.drop 2).length = 8 := by simp [hlen]
  rw [headerLengthOf, be16_of_be htake, encodedBitLenOf, List.take_of_length_le hdrop.le,
    be64_of_be hdrop, List.take_append_drop]

/-- Nine bytes are the record with the fields read from them (rule R99). -/
theorem record_fields {bytes : List Byte} (hlen : bytes.length = 9) :
    byteValueOf bytes :: be64 (frequencyOf bytes) = bytes := by
  cases bytes with
  | nil => cases hlen
  | cons b rest =>
    have hrest : rest.length = 8 := Nat.succ.inj hlen
    rw [byteValueOf_cons, frequencyOf, List.drop_succ_cons, List.drop_zero,
      List.take_of_length_le hrest.le, be64_of_be hrest]

/-- Settles O2, by the form: the code tables are one to one, and the fields of a format make up its bytes. -/
theorem encodeAfterDecode : Obligations.EncodeAfterDecode := by
  intro e i h
  cases e with
  | cmd w => exact encode_of_decodeCommand h
  | phase q => exact encode_of_decodePhase h
  | resetInput level =>
    rw [decode] at h
    split_ifs at h with hlevel
    cases h
    exact congrArg _ hlevel.symm
  | header bytes =>
    rw [decode] at h
    split_ifs at h with hlen
    cases h
    exact congrArg _ (header_fields hlen)
  | record bytes =>
    rw [decode] at h
    split_ifs at h with hlen
    cases h
    exact congrArg _ (record_fields hlen)

/-- Settles O3: each of the seven words is decoded by computation. -/
theorem sampleWordsDecode : Obligations.SampleWordsDecode := by
  unfold Obligations.SampleWordsDecode
  decide

end Sys2Proof
end

section
/-! PROOFS. The operations that can be refused as they are decoded: an illegal command word (30_encoding.md rule R93),
and the two formats of the key as KEYRD takes them (44_key_serializer.md rule R192 to rule R196). -/

namespace Sys2Proof.Machine

/-! ### An illegal command word -/

/-- A step in which the host writes an illegal word outside BUSY (rule R93, 60_exceptions.md rule R251). -/
theorem step_illegalCommand {s : State} {w : BitVec 32} {rest : List HostAction} (hidle : s.state ≠ .busy)
    (hhuff : w ≠ huffWord) (hpuff : w ≠ puffWord) (ha : s.host.actions = .writeCmd w :: rest) :
    step s = .next (raise .eCmd (startCommand w (withActions rest s))) := by
  have hreject : rejectCommand w (withActions rest s) =
      raise .eCmd (startCommand w (withActions rest s)) := if_neg hidle
  simp only [step, select, ha, selectAction, selectCommand, decode, decodeCommand_illegal hhuff hpuff,
    hreject]

/-- Settles O14: the step raises `E_CMD` in the state just started for the offending word. -/
theorem illegalCommandFaults : Obligations.IllegalCommandFaults :=
  fun _ _ _ hidle hhuff hpuff ha =>
    ⟨_, step_illegalCommand hidle hhuff hpuff ha, rfl, rfl, rfl, rfl, rfl, rfl⟩

/-! ### The formats of the key -/

theorem exec_keyHeader (h : BitVec 16) (n : Word64) (s : State) :
    exec (.keyHeader h n) s = (takeHeader h n s).outcome := rfl

theorem exec_keyRecord (b : Byte) (f : Word64) (s : State) :
    exec (.keyRecord b f) s = (takeRecord b f s).outcome := rfl

/-- Work that raised a fault, `PHASE` and `CMD` kept. -/
theorem raisesFrom_of_raised {s u : State} {e : ErrCode} {w : Ended} (he : w = .raised e u)
    (hphase : u.phase = s.phase) (hcmd : u.cmd = s.cmd) : RaisesFrom s e w.outcome :=
  ⟨raise e u, by rw [he, outcome_raised], faulted_raise e hphase hcmd⟩

/-- Settles O37, by the two cases of the fixed part. -/
theorem keyHeaderIsTaken : Obligations.KeyHeaderIsTaken := by
  intro s h n
  rw [exec_keyHeader]
  obtain ⟨hbad, he⟩ | ⟨hgood, he⟩ := takeHeader_cases h n s
  · exact ⟨by omega, fun _ => raisesFrom_of_raised he rfl rfl⟩
  · exact ⟨fun _ _ => by rw [he, outcome_done], by omega⟩

/-- Settles O38, by the two cases of a record; the entry read back is the one written. -/
theorem keyRecordIsTaken : Obligations.KeyRecordIsTaken := by
  intro s b f
  rw [exec_keyRecord]
  obtain ⟨hbad, he⟩ | ⟨hgood, he⟩ := takeRecord_cases b f s
  · exact ⟨by tauto, fun _ => raisesFrom_of_raised he rfl rfl⟩
  · exact ⟨fun _ _ => ⟨_, by rw [he, outcome_done], entry_setEntry_same s.freq b f, fun c hc =>
      entry_setEntry_other s.freq b c f hc, rfl, rfl⟩, by tauto⟩

end Sys2Proof.Machine
end

section
/-! PROOFS. COUNT (40_frequency_counter.md rule R130 to rule R133) on an input the host serves, on a count that would
pass the limit, and at an `Err` answer; the last for the header bytes of KEYRD too (44_key_serializer.md rule R192). -/

namespace Sys2Proof.Machine

theorem exec_count (s : State) : exec .count s = (countPhase s).outcome := rfl

theorem exec_keyrd (s : State) : exec .keyrd s = (keyrdPhase s).outcome := rfl

/-! ### Counts that fit -/

/-- COUNT reads up to the end of pass 1, or stays where it is if it stands beyond. -/
theorem countedAll_inPos_toNat {s : State} (hlen : s.host.in1.length < 2 ^ 64) :
    (countedAll (remaining .one s) s).inPos.toNat = max s.inPos.toNat s.host.in1.length := by
  have hrest : (remaining .one s).length = s.host.in1.length - s.inPos.toNat := List.length_drop
  have hpos := s.inPos.isLt
  rw [countedAll, hrest, BitVec.toNat_ofNat, Nat.mod_eq_of_lt (by omega)]
  omega

/-- Settles O19: COUNT ends in `countedAll`, whose entries are the sums and which writes nothing else. -/
theorem countAddsOccurrences : Obligations.CountAddsOccurrences := by
  intro s hok hlen hfit
  refine ⟨countedAll (remaining .one s) s, ?_, entry_addCounts hfit, countedAll_inPos_toNat hlen, rfl⟩
  rw [exec_count, countPhase_ok hok hlen hfit, outcome_done]

/-- In a table of the counts of a sequence the present bytes are those that occur. -/
theorem presentIn_of_counts {f : Vector Word64 256} {l : List Byte}
    (h : ∀ b, (entry f b).toNat = l.count b) (b : Byte) : presentIn f b = true ↔ b ∈ l := by
  rw [presentIn_iff, ← List.count_pos_iff, ← h, Nat.pos_iff_ne_zero, ne_eq, ne_eq, not_iff_not]
  exact BitVec.toNat_inj.symm

/-- Settles O20, from O19: at the entry state the bytes still to read are all of `IN1`, and the counts start at 0. -/
theorem countFromCleared : Obligations.CountFromCleared := by
  intro s hok hlen hpos hclear
  have hrest : remaining .one s = s.host.in1 := by rw [remaining, hpos]; rfl
  have hzero : ∀ b, (entry s.freq b).toNat = 0 := fun b => by rw [hclear b]; rfl
  have hfit : ∀ b, (entry s.freq b).toNat + (remaining .one s).count b < 2 ^ 64 := fun b => by
    rw [hzero, Nat.zero_add, hrest]
    exact List.count_le_length.trans_lt hlen
  obtain ⟨t, hexec, hcounts, -, hframe⟩ := countAddsOccurrences s hok hlen hfit
  have hin : ∀ b, (entry t.freq b).toNat = s.host.in1.count b := fun b => by
    rw [hcounts, hzero, Nat.zero_add, hrest]
  have hflags : KeepsFlags s t := by
    rw [hframe]
    exact ⟨rfl, rfl, rfl, rfl, rfl, rfl⟩
  exact ⟨t, hexec, hin, total_of_counts hin, presentIn_of_counts hin, hflags⟩

/-! ### Faults -/

/-- Where all that work can raise keeps the flags, a fault it raised is taken with `PHASE` and `CMD` kept. -/
theorem raisesFrom_of_sat {s : State} {e : ErrCode} {w : Ended} {D : State → Prop}
    {R : ErrCode → State → Prop} (hsat : w.Sat D R) (keeps : ∀ c u, R c u → KeepsFlags s u)
    (hraised : ∃ u, w = .raised e u) : RaisesFrom s e w.outcome := by
  obtain ⟨u, hu⟩ := hraised
  rw [hu] at hsat
  obtain ⟨-, -, -, hphase, hcmd, -⟩ := keeps e u hsat
  exact raisesFrom_of_raised hu hphase hcmd

theorem exec_count_raises {s : State} {e : ErrCode} (h : ∃ u, countPhase s = .raised e u) :
    RaisesFrom s e (exec .count s) :=
  raisesFrom_of_sat (countPhase_sat s) (fun _ _ hu => hu.2.toKeeps.flags) h

theorem exec_keyrd_raises {s : State} {e : ErrCode} (h : ∃ u, keyrdPhase s = .raised e u) :
    RaisesFrom s e (exec .keyrd s) :=
  raisesFrom_of_sat (keyrdPhase_sat s) (fun _ _ hu => hu.2.toKeeps.flags) h

/-- The bound COUNT gives its loop is above the bytes still to read. -/
theorem remaining_length_lt_bound (s : State) : (remaining .one s).length < unread .one s + 1 := by
  rw [remaining_length]
  exact Nat.lt_succ_self _

/-- Settles O21, by the loop of COUNT on the bytes still to read. -/
theorem countOverflowFaults : Obligations.CountOverflowFaults := by
  intro s hok hlen ⟨_, hover⟩
  exact exec_count_raises
    (countLoop_overflow rfl (remaining_length_lt_bound s) hok hlen hover)

/-- Settles O22: the loop of COUNT, and KEYRD where the bytes before the `Err` are too short a file. -/
theorem inputFailsWhileReading : Obligations.InputFailsWhileReading := by
  intro s k more hanswers
  constructor
  · intro hlen hk hfit
    exact exec_count_raises
      (countLoop_err rfl (remaining_length_lt_bound s) hk hanswers hlen hfit)
  · intro hpos hclear hk hshort
    exact exec_keyrd_raises (keyrdPhase_err hpos hclear hk hanswers hshort)

end Sys2Proof.Machine
end

section
/-! PROOFS. The frame of the phases and formats that read the input (40_frequency_counter.md rule R131,
44_key_serializer.md rule R192): what their own laws keep, with a fault taken on it or not. -/

namespace Sys2Proof.Machine

theorem keepsOrFaults_raise {s u : State} (e : ErrCode) (h : KeepsFlags s u) :
    KeepsOrFaults s (raise e u) := by
  obtain ⟨-, -, -, hphase, hcmd, -⟩ := h
  exact .inr ⟨e, faulted_raise e hphase hcmd⟩

/-- COUNT (rule R131). -/
theorem exec_count_frame {s t : State} (h : exec .count s = .next t) :
    KeepsOrFaults s t ∧ HostKept s t ∧
      (∀ b, (entry s.freq b).toNat ≤ (entry t.freq b).toNat) ∧
      t = { s with
        freq := t.freq, inPos := t.inPos, host := t.host, state := t.state, err := t.err,
        errclass := t.errclass, obuf := t.obuf, out := t.out } := by
  rcases outcome_next (countPhase_sat s) h with hcounted | ⟨e, u, ⟨-, hcounted⟩, rfl⟩
  · have hflags := hcounted.toKeeps.flags
    obtain ⟨hframe, hhost, hgrow⟩ := hcounted
    refine ⟨.inl ⟨hflags, ?_⟩, hhost, hgrow, ?_⟩ <;> rw [hframe]
  · have hflags := hcounted.toKeeps.flags
    obtain ⟨hframe, hhost, hgrow⟩ := hcounted
    refine ⟨keepsOrFaults_raise e hflags, hhost, hgrow, ?_⟩
    rw [hframe]
    rfl

/-- KEYRD (rule R192). -/
theorem exec_keyrd_frame {s t : State} (h : exec .keyrd s = .next t) :
    KeepsOrFaults s t ∧ HostKept s t ∧
      (∀ b, entry s.freq b ≠ 0 → entry t.freq b = entry s.freq b) ∧
      t = { s with
        freq := t.freq, hdrlen := t.hdrlen, bitlen := t.bitlen, nrec := t.nrec, recidx := t.recidx,
        inPos := t.inPos, host := t.host, state := t.state, err := t.err, errclass := t.errclass,
        obuf := t.obuf, out := t.out } := by
  rcases outcome_next (keyrdPhase_sat s) h with hread | ⟨e, u, ⟨-, hread⟩, rfl⟩
  · have hflags := hread.toKeeps.flags
    obtain ⟨hframe, hhost, -, hpresent⟩ := hread
    refine ⟨.inl ⟨hflags, ?_⟩, hhost, hpresent, ?_⟩ <;> rw [hframe]
  · have hflags := hread.toKeeps.flags
    obtain ⟨hframe, hhost, -, hpresent⟩ := hread
    refine ⟨keepsOrFaults_raise e hflags, hhost, hpresent, ?_⟩
    rw [hframe]
    rfl

/-- KEY.HEADER (rule R192, rule R196). -/
theorem exec_keyHeader_frame {s t : State} {h : BitVec 16} {n : Word64}
    (hexec : exec (.keyHeader h n) s = .next t) :
    KeepsOrFaults s t ∧
      t = { s with
        hdrlen := h, bitlen := n, nrec := t.nrec, recidx := t.recidx, state := t.state, err := t.err,
        errclass := t.errclass, obuf := t.obuf, out := t.out } := by
  rw [exec_keyHeader] at hexec
  obtain ⟨-, hbad⟩ | ⟨-, hgood⟩ := takeHeader_cases h n s
  · rw [hbad] at hexec
    cases hexec
    exact ⟨.inr ⟨_, faulted_raise _ rfl rfl⟩, rfl⟩
  · rw [hgood] at hexec
    cases hexec
    exact ⟨.inl ⟨⟨rfl, rfl, rfl, rfl, rfl, rfl⟩, rfl⟩, rfl⟩

/-- KEY.RECORD (rule R192, rule R194). -/
theorem exec_keyRecord_frame {s t : State} {b : Byte} {f : Word64}
    (hexec : exec (.keyRecord b f) s = .next t) :
    KeepsOrFaults s t ∧ (∀ c, c ≠ b → entry t.freq c = entry s.freq c) ∧
      t = { s with
        freq := t.freq, recidx := t.recidx, state := t.state, err := t.err, errclass := t.errclass,
        obuf := t.obuf, out := t.out } := by
  rw [exec_keyRecord] at hexec
  obtain ⟨-, hbad⟩ | ⟨-, hgood⟩ := takeRecord_cases b f s
  · rw [hbad] at hexec
    cases hexec
    exact ⟨.inr ⟨_, faulted_raise _ rfl rfl⟩, fun _ _ => rfl, rfl⟩
  · rw [hgood] at hexec
    cases hexec
    exact ⟨.inl ⟨⟨rfl, rfl, rfl, rfl, rfl, rfl⟩, rfl⟩,
      fun c hc => entry_setEntry_other s.freq b c f hc, rfl⟩

/-- Settles O47, by the frame of each of the four. -/
theorem frameOfTheReaders : Obligations.FrameOfTheReaders := fun _ _ =>
  ⟨exec_count_frame, exec_keyrd_frame, fun _ _ => exec_keyHeader_frame,
    fun _ _ => exec_keyRecord_frame⟩

end Sys2Proof.Machine
end

section
/-! PROOFS. The node order of BUILD and the selection by it (41_tree_builder.md rule R143, rule R144): a strict order,
total on nodes with different `minb`, under which the selected element is the least. -/

namespace Sys2Proof.Machine

/-! ### The node order -/

/-- The node order is the lexicographic order of `freq` and `minb`, as numbers (rule R143). -/
theorem nodeLt_iff_toNat (x y : Node) :
    nodeLt x y = true ↔ x.freq.toNat < y.freq.toNat ∨
      (x.freq.toNat = y.freq.toNat ∧ x.minb.toNat < y.minb.toNat) := by
  simp [nodeLt, BitVec.toNat_inj]

theorem nodeLt_irrefl (x : Node) : nodeLt x x = false := by
  rw [← Bool.not_eq_true, nodeLt_iff_toNat]
  omega

theorem nodeLt_trans {x y z : Node} (hxy : nodeLt x y = true) (hyz : nodeLt y z = true) :
    nodeLt x z = true := by
  rw [nodeLt_iff_toNat] at *
  omega

/-- Of two nodes whose `minb` differ exactly one is below the other. -/
theorem nodeLt_iff_not_swap {x y : Node} (h : x.minb ≠ y.minb) :
    nodeLt x y = true ↔ nodeLt y x = false := by
  have hminb : x.minb.toNat ≠ y.minb.toNat := BitVec.toNat_inj.not.mpr h
  rw [← Bool.not_eq_true, nodeLt_iff_toNat, nodeLt_iff_toNat]
  omega

/-- Settles O23, by the order's laws, each a fact about the pair of numbers it compares. -/
theorem nodeOrderIsTotal : Obligations.NodeOrderIsTotal := fun x y _ =>
  ⟨nodeLt_irrefl x, by rw [nodeLt_iff_toNat, BitVec.toNat_inj], nodeLt_trans, nodeLt_iff_not_swap⟩

/-! ### The selected element -/

/-- In an order that is transitive, and total on the collection, the selected element is below the others. -/
theorem takeLeast_lt {α : Type} {lt : α → α → Bool} {l : List α} {m : α} {others : List α}
    (htrans : ∀ a b c, lt a b = true → lt b c = true → lt a c = true)
    (hpairs : l.Pairwise fun a b => lt a b = true ∨ lt b a = true)
    (h : takeLeast lt l = some (m, others)) : ∀ y ∈ others, lt m y = true := by
  induction l generalizing m others with
  | nil => simp [takeLeast] at h
  | cons a rest ih =>
    obtain ⟨ha, hrest⟩ := List.pairwise_cons.mp hpairs
    rw [takeLeast] at h
    rcases hsel : takeLeast lt rest with _ | ⟨k, kept⟩ <;>
      simp only [hsel, Option.some.injEq, Prod.mk.injEq] at h
    · obtain ⟨-, rfl⟩ := h
      simp
    · have hk : ∀ y ∈ kept, lt k y = true := ih hrest hsel
      have hperm : rest.Perm (k :: kept) := takeLeast_perm lt hsel
      by_cases hka : lt k a = true
      · simp only [hka, ↓reduceIte, Option.some.injEq, Prod.mk.injEq] at h
        obtain ⟨rfl, rfl⟩ := h
        exact List.forall_mem_cons.mpr ⟨hka, hk⟩
      · simp only [hka, Bool.false_eq_true, ↓reduceIte, Option.some.injEq, Prod.mk.injEq] at h
        obtain ⟨rfl, rfl⟩ := h
        have hak : lt a k = true := (ha k (hperm.mem_iff.mpr (by simp))).resolve_right hka
        intro y hy
        rcases List.mem_cons.mp (hperm.mem_iff.mp hy) with rfl | hy
        · exact hak
        · exact htrans a k y hak (hk y hy)

/-- Settles O24: on nodes with different `minb` the node order meets what the selection needs. -/
theorem selectionIsLeast : Obligations.SelectionIsLeast := by
  intro t pool hminb
  refine ⟨takeLeast_eq_none _ _, fun x rest hsel => ⟨takeLeast_perm _ hsel, ?_⟩⟩
  have hpairs : pool.Pairwise fun i j => idLt t i j = true ∨ idLt t j i = true :=
    hminb.imp fun hij => by
      rw [idLt, nodeLt_iff_not_swap hij]
      exact (Bool.eq_false_or_eq_true _).symm
  exact takeLeast_lt (fun _ _ _ => nodeLt_trans) hpairs hsel

end Sys2Proof.Machine
end

section
/-! PROOFS. BUILD as an operation, from its entry state (41_tree_builder.md rule R140): the tree it leaves in `NODE`
and `ROOT`, when it faults, and the one-entry table (rule R146 to rule R149). -/

namespace Sys2Proof.Machine

open Codec

theorem exec_build (s : State) : exec .build s = (buildPhase s).outcome := rfl

/-! ### The tree of the algorithm -/

/-- Settles O25, by the loop of BUILD against the merges of trees as values. -/
theorem buildMakesTheTree : Obligations.BuildMakesTheTree := by
  intro s hpool hnext
  have hbuild := buildPhase_eq hpool hnext
  rw [exec_build]
  generalize build s.freq = answer at hbuild ⊢
  rcases answer with e | _ | tree
  · obtain ⟨-, u, hraised, hframe⟩ := hbuild
    exact raisesFrom_of_raised hraised (by rw [hframe]) (by rw [hframe])
  · obtain ⟨-, hdone⟩ := hbuild
    simp only [hdone, outcome_done]
  · obtain ⟨r, t, hdone, hroot, hpool', htree, hnext', hframe⟩ := hbuild
    exact ⟨r, t, by rw [hdone, outcome_done], hroot, htree, hpool', hnext', hframe⟩

/-- Settles O28: merging keeps the leaves' bytes, and a tree is less deep than it has leaves. -/
theorem builtTreeHasEachByteOnce : Obligations.BuiltTreeHasEachByteOnce := by
  intro freq tree h
  have hdepth := build_depth h
  have hbytes := presentBytes_length_le freq
  exact ⟨build_bytes h, build_nodup h, hdepth, by omega⟩

/-- The minimum byte of the tree of a table is its smallest present byte (rule R149 item 4). -/
theorem build_least {freq : Vector Word64 256} {tree : Tree} (h : build freq = .ok (some tree)) :
    entry freq tree.least ≠ 0 ∧ ∀ b, entry freq b ≠ 0 → tree.least.toNat ≤ b.toNat := by
  have hmem (b : Byte) : b ∈ tree.bytes ↔ entry freq b ≠ 0 :=
    (build_bytes h).mem_iff.trans (mem_presentBytes freq b)
  obtain ⟨hleaf, hmin⟩ := (build_leastOk h).spec
  exact ⟨(hmem _).mp hleaf, fun b hb => hmin b ((hmem b).mpr hb)⟩

/-- Settles O26, from O25 and the algorithm on values: its weights add up to the sum of the table. -/
theorem buildFaultsOnlyOnOverflow : Obligations.BuildFaultsOnlyOnOverflow := by
  intro s hpool hnext
  have hexec := buildMakesTheTree s hpool hnext
  obtain ⟨hfits, hover⟩ := build_total s.freq
  refine ⟨fun htotal => by simpa only [hover htotal] using hexec, fun htotal => ?_⟩
  rcases hfits htotal with ⟨hempty, hbuild⟩ | ⟨tree, hbuild, hweight⟩ <;>
    simp only [hbuild] at hexec
  · have hzero := (presentBytes_eq_nil s.freq).mp hempty
    exact ⟨_, hexec, ⟨rfl, rfl, rfl, rfl, rfl, rfl⟩, iff_of_true rfl hzero, nofun⟩
  · obtain ⟨r, t, hnext', hroot, htree, -, -, hframe⟩ := hexec
    obtain ⟨hpresent, hleast⟩ := build_least hbuild
    refine ⟨t, hnext', ?_, ?_, fun q hq => ?_⟩
    · rw [hframe]
      exact ⟨rfl, rfl, rfl, rfl, rfl, rfl⟩
    · exact iff_of_false (by simp [hroot]) fun hzero => hpresent (hzero _)
    · obtain rfl : r = q := Option.some.inj (hroot.symm.trans hq)
      rw [represents_weight htree, represents_least htree]
      exact ⟨hweight, hpresent, hleast⟩

/-! ### The one-entry table -/

theorem presentBytes_eq_singleton {freq : Vector Word64 256} {b : Byte} (hb : entry freq b ≠ 0)
    (hrest : ∀ c, c ≠ b → entry freq c = 0) : presentBytes freq = [b] := by
  refine List.perm_singleton.mp
    ((List.perm_ext_iff_of_nodup (presentBytes_nodup freq) (List.nodup_singleton b)).mpr fun c => ?_)
  rw [mem_presentBytes, List.mem_singleton]
  exact ⟨fun hc => by_contra fun hne => hc (hrest c hne), fun hc => hc ▸ hb⟩

/-- With one node in the pool the loop ends, and the node is the root (rule R141 step 3). -/
theorem mergeBody_singleton {s : State} {i : NodeId} (h : s.pool = [i]) :
    mergeBody s = .leave (.done { s with root := some i }) := by
  simp only [mergeBody, h, takeLeast]

/-- Settles O27: the one leaf is added, and the loop does not run. -/
theorem buildOneEntry : Obligations.BuildOneEntry := by
  intro s b hpool _ hb hrest
  have hleaves : addLeaves s = addLeaf s b := by
    rw [addLeaves, presentBytes_eq_singleton hb hrest, List.foldl_cons, List.foldl_nil]
  have hone : (addLeaf s b).pool = [leafId b] := by rw [addLeaf_pool, hpool]; rfl
  rw [exec_build, buildPhase, hleaves, iterate_leave (mergeBody_singleton hone), outcome_done,
    addLeaf, hpool]
  rfl

end Sys2Proof.Machine
end

section
/-! PROOFS. The frame of BUILD and ASSIGN in every state (41_tree_builder.md rule R141, 42_code_assigner.md rule R161,
60_exceptions.md rule R262). -/

namespace Sys2Proof.Machine

/-- BUILD (rule R141, rule R148). -/
theorem exec_build_frame {s t : State} (h : exec .build s = .next t) :
    KeepsOrFaults s t ∧
      (∀ i : NodeId, (∀ b, i = leafId b → entry s.freq b = 0) →
        i.val < s.nextId.toNat ∨ t.nextId.toNat ≤ i.val → nodeAt t.node i = nodeAt s.node i) ∧
      t = { s with
        node := t.node, pool := t.pool, nextId := t.nextId, root := t.root, state := t.state,
        err := t.err, errclass := t.errclass, obuf := t.obuf, out := t.out } := by
  rcases outcome_next (buildPhase_sat s) h with hbuilt | ⟨e, u, ⟨-, hbuilt⟩, rfl⟩
  · have hflags := hbuilt.toKeeps.flags
    obtain ⟨hframe, -, -, hnodes⟩ := hbuilt
    refine ⟨.inl ⟨hflags, ?_⟩, hnodes, ?_⟩ <;> rw [hframe]
  · have hflags := hbuilt.toKeeps.flags
    obtain ⟨hframe, -, -, hnodes⟩ := hbuilt
    refine ⟨keepsOrFaults_raise e hflags, hnodes, ?_⟩
    rw [hframe]
    rfl

theorem exec_assign (s : State) : exec .assign s = (assignPhase s).outcome := rfl

/-- ASSIGN raises no fault of CORE (rule R161). -/
theorem exec_assign_frame {s t : State} (h : exec .assign s = .next t) :
    t = { s with code := t.code } := by
  rw [exec_assign] at h
  rcases outcome_next (assignPhase_sat s) h with hcoded | ⟨_, _, hfalse, -⟩
  · exact hcoded.1
  · exact hfalse.elim

/-- Settles O48, by the frame of each of the two. -/
theorem frameOfTheTreeUnits : Obligations.FrameOfTheTreeUnits := fun _ _ =>
  ⟨exec_build_frame, exec_assign_frame⟩

end Sys2Proof.Machine
end

section
/-! PROOFS. ASSIGN on a tree: the codes it writes are the paths of the leaves, and none starts another
(42_code_assigner.md rule R161 to rule R164). -/

namespace Sys2Proof.Machine

open Codec

section

variable {s : State} {r : NodeId} {tree : Tree} {code : Vector Code 256} {b : Byte} {v l : Nat}

/-- ASSIGN with a tree at `ROOT` ends, and writes the codes of `assign` into `CODE` (rule R161). -/
theorem exec_assign_of_represents (hroot : s.root = some r) (htree : Represents s.node r tree)
    (hdepth : tree.depth ≤ 255) :
    exec .assign s = .next { s with code := setCodes (Codec.assign (some tree)) s.code } := by
  rw [exec_assign, assignPhase_eq hroot (represents_shaped htree) hdepth, outcome_done]

/-- `CODE` is wide enough for the codes of a tree no deeper than 255 (rule R162). -/
theorem entry_setCodes_assign_of_lookup (hdepth : tree.depth ≤ 255) (hnodup : tree.bytes.Nodup)
    (hlookup : (Codec.assign (some tree)).lookup b = some (v, l)) :
    (entry (setCodes (Codec.assign (some tree)) code) b).val.toNat = v ∧
      (entry (setCodes (Codec.assign (some tree)) code) b).len.toNat = l := by
  obtain ⟨-, hlen, hval⟩ := assign_range (lookup_mem hlookup)
  have hl : l ≤ 255 := hlen.trans (max_le (by decide) hdepth)
  have hv : v < 2 ^ 255 := hval.trans_le (Nat.pow_le_pow_right (by decide) hl)
  rw [entry_setCodes _ (by rwa [assign_keys]), hlookup]
  exact ⟨(BitVec.toNat_ofNat v 255).trans (Nat.mod_eq_of_lt hv),
    (BitVec.toNat_ofNat l 8).trans (Nat.mod_eq_of_lt (by omega))⟩

theorem entry_setCodes_assign_of_lookup_none (hnodup : tree.bytes.Nodup)
    (hlookup : (Codec.assign (some tree)).lookup b = none) :
    entry (setCodes (Codec.assign (some tree)) code) b = entry code b := by
  rw [entry_setCodes _ (by rwa [assign_keys]), hlookup]

/-- From a clear table the entries are those `assign` writes: each of its codes has at least one bit (rule R163). -/
theorem setCodes_assign_len_ne_zero_iff (hdepth : tree.depth ≤ 255) (hnodup : tree.bytes.Nodup)
    (hclear : ∀ b, (entry code b).len = 0) :
    (entry (setCodes (Codec.assign (some tree)) code) b).len ≠ 0 ↔
      ∃ c, (Codec.assign (some tree)).lookup b = some c := by
  cases hlookup : (Codec.assign (some tree)).lookup b with
  | none =>
    rw [entry_setCodes_assign_of_lookup_none hnodup hlookup]
    simp [hclear]
  | some c =>
    have hpos := (assign_range (lookup_mem hlookup)).1
    have hlen := (entry_setCodes_assign_of_lookup (code := code) hdepth hnodup hlookup).2
    refine iff_of_true (fun hzero => ?_) ⟨c, rfl⟩
    rw [hzero] at hlen
    exact absurd hlen.symm (Nat.ne_of_gt hpos)

theorem codeBits_setCodes_assign (hdepth : tree.depth ≤ 255) (hnodup : tree.bytes.Nodup)
    (hlookup : (Codec.assign (some tree)).lookup b = some (v, l)) :
    codeBits (entry (setCodes (Codec.assign (some tree)) code) b) = bits v l := by
  obtain ⟨hval, hlen⟩ := entry_setCodes_assign_of_lookup (code := code) hdepth hnodup hlookup
  rw [codeBits, hval, hlen]

end

/-- Settles O29: the walk writes the codes of `assign`, and the table keeps each of them whole. -/
theorem assignWritesThePaths : Obligations.AssignWritesThePaths := by
  intro s r tree hroot htree hdepth hnodup
  refine ⟨_, exec_assign_of_represents hroot htree hdepth, rfl, fun b => ?_⟩
  cases hlookup : (Codec.assign (some tree)).lookup b with
  | none => exact entry_setCodes_assign_of_lookup_none hnodup hlookup
  | some c => exact entry_setCodes_assign_of_lookup hdepth hnodup hlookup

/-- Settles O30: on a leaf at `ROOT` there is no walk. -/
theorem assignDegenerateTree : Obligations.AssignDegenerateTree := by
  intro s r hroot hleaf
  have hphase : assignPhase s = .done (setCode (nodeAt s.node r).byte 0 1 s) := by
    simp only [assignPhase, hroot, hleaf, if_true]
  rw [exec_assign, hphase, outcome_done, setCode]

/-- Settles O31: the codes written are those of `assign`, of which none starts another. -/
theorem codesArePrefixFree : Obligations.CodesArePrefixFree := by
  intro s t r tree hroot htree hdepth hnodup hclear hnext
  obtain rfl := Host.Outcome.next.inj
    ((exec_assign_of_represents hroot htree hdepth).symm.trans hnext)
  have hcoded := fun b => setCodes_assign_len_ne_zero_iff (b := b) hdepth hnodup hclear
  refine ⟨fun b => by rw [hcoded, lookup_isSome, assign_keys], fun a b hne ha hb hprefix => hne ?_⟩
  obtain ⟨⟨va, la⟩, hla⟩ := (hcoded a).mp ha
  obtain ⟨⟨vb, lb⟩, hlb⟩ := (hcoded b).mp hb
  rw [codeBits_setCodes_assign hdepth hnodup hla, codeBits_setCodes_assign hdepth hnodup hlb]
    at hprefix
  exact congrArg Prod.fst (assign_apart hnodup (lookup_mem hla) (lookup_mem hlb) hprefix)

end Sys2Proof.Machine
end

section
/-! PROOFS. PACK (43_bit_packer.md rule R170 to rule R176): where the bits of the rest of pass 2 fit, what it leaves
for a packer in any state; a lookup miss, a bit length past the limit and an `Err` answer. -/

namespace Sys2Proof.Machine

open Codec

theorem exec_pack (s : State) : exec .pack s = (packPhase s).outcome := rfl

theorem exec_pack_raises {s : State} {e : ErrCode} (h : ∃ u, packPhase s = .raised e u) :
    RaisesFrom s e (exec .pack s) :=
  raisesFrom_of_sat (packPhase_sat s) (fun _ _ hu => hu.2.toKeeps.flags) h

/-! ### The bits of an input -/

/-- The bits of the codes of a byte sequence, one code after the other (rule R171). -/
def codedBits (code : Vector Code 256) (l : List Byte) : List Bool :=
  l.flatMap fun b => codeBits (entry code b)

@[simp] theorem codedBits_nil (code : Vector Code 256) : codedBits code [] = [] := rfl

@[simp] theorem codedBits_cons (code : Vector Code 256) (b : Byte) (l : List Byte) :
    codedBits code (b :: l) = codeBits (entry code b) ++ codedBits code l := rfl

@[simp] theorem codeBits_length (c : Code) : (codeBits c).length = c.len.toNat := bits_length _ _

section

variable {code : Vector Code 256} {b : Byte} {l : List Byte} {n : Nat}

theorem pushedBits_cons_of_fits (hb : (entry code b).len ≠ 0)
    (hfit : n + (entry code b).len.toNat < 2 ^ 64) :
    pushedBits code (b :: l) n =
      (pushedBits code l (n + (entry code b).len.toNat)).map (codeBits (entry code b) ++ ·) := by
  have hle : ¬ n + (entry code b).len.toNat > Config.maxWord64 :=
    Nat.not_lt.mpr (Nat.le_sub_one_of_lt hfit)
  rw [pushedBits, if_neg hb, if_neg hle]
  cases pushedBits code l (n + (entry code b).len.toNat) <;> rfl

theorem pushedBits_cons_of_miss (hb : (entry code b).len = 0) :
    pushedBits code (b :: l) n = .error .eLookup := by rw [pushedBits, if_pos hb]

theorem pushedBits_cons_of_full (hb : (entry code b).len ≠ 0)
    (hfull : 2 ^ 64 ≤ n + (entry code b).len.toNat) :
    pushedBits code (b :: l) n = .error .eOverflow := by
  have hlt : n + (entry code b).len.toNat > Config.maxWord64 := hfull
  rw [pushedBits, if_neg hb, if_pos hlt]

/-- Bytes that have an entry, and whose bits fit, put their bits before those of what follows. -/
theorem pushedBits_append {before : List Byte} (hcoded : ∀ c ∈ before, (entry code c).len ≠ 0)
    (hfit : n + (codedBits code before).length < 2 ^ 64) :
    pushedBits code (before ++ l) n =
      (pushedBits code l (n + (codedBits code before).length)).map (codedBits code before ++ ·) := by
  induction before generalizing n with
  | nil =>
    show pushedBits code l n = (pushedBits code l n).map id
    rw [Except.map_id, id]
  | cons c rest ih =>
    obtain ⟨hc, hrest⟩ := List.forall_mem_cons.mp hcoded
    simp only [codedBits_cons, List.length_append, codeBits_length, ← Nat.add_assoc] at hfit ⊢
    rw [List.cons_append, pushedBits_cons_of_fits hc (by omega), ih hrest hfit]
    cases pushedBits code l (n + (entry code c).len.toNat + (codedBits code rest).length) with
    | error e => rfl
    | ok more => simp [Except.map]

theorem pushedBits_eq_codedBits (hcoded : ∀ c ∈ l, (entry code c).len ≠ 0)
    (hfit : n + (codedBits code l).length < 2 ^ 64) :
    pushedBits code l n = .ok (codedBits code l) := by
  simpa [pushedBits, Except.map] using pushedBits_append (l := []) hcoded hfit

/-- Bits that do not fit: the first code to reach the limit ends the phase (rule R175). -/
theorem pushedBits_overflow (hcoded : ∀ c ∈ l, (entry code c).len ≠ 0) (hn : n < 2 ^ 64)
    (hover : 2 ^ 64 ≤ n + (codedBits code l).length) :
    pushedBits code l n = .error .eOverflow := by
  induction l generalizing n with
  | nil => exact absurd hover (Nat.not_le.mpr hn)
  | cons c rest ih =>
    obtain ⟨hc, hrest⟩ := List.forall_mem_cons.mp hcoded
    simp only [codedBits_cons, List.length_append, codeBits_length, ← Nat.add_assoc] at hover
    by_cases hfit : n + (entry code c).len.toNat < 2 ^ 64
    · rw [pushedBits_cons_of_fits hc hfit, ih hrest hfit hover]
      rfl
    · exact pushedBits_cons_of_full hc (Nat.not_lt.mp hfit)

end

/-! ### The phase -/

/-- `Flush()` leaves the bits held as whole bytes (rule R174). -/
theorem flush_pay_eq_packBytes {s : State} (h : PackOk s) : (flush s).pay = packBytes (held s) := by
  obtain ⟨-, -, hbits⟩ := flush_spec h
  have hlen : (held s).length = 8 * s.pay.length + s.nb.toNat := by
    rw [held, List.length_append, payloadBits_length, bits_length]
  have hpad : (8 - s.nb.toNat) % 8 = 8 * (((held s).length + 7) / 8) - (held s).length := by
    have := h.1
    omega
  apply payloadBits_inj
  rw [hbits, payloadBits_packBytes, hpad]

section

variable {s : State} {bs : List Bool} {e : ErrCode} (hok : NoErr s)
  (hlen : s.host.in2.length < 2 ^ 64)

include hok hlen

theorem packPhase_raised
    (hbits : pushedBits s.code (remaining .two s) s.bitlen.toNat = .error e) :
    ∃ u, packPhase s = .raised e u := by
  have hloop := packLoop (n := unread .two s + 1) rfl
    (by rw [remaining_length]; exact Nat.lt_succ_self _) hok hlen
  rwa [hbits] at hloop

/-- PACK on bits that fit: the payload is the bits held before and those of the input, in whole bytes. -/
theorem packPhase_done (hpacker : PackOk s)
    (hbits : pushedBits s.code (remaining .two s) s.bitlen.toNat = .ok bs) :
    ∃ t, packPhase s = .done t ∧ t.pay = packBytes (held s ++ bs) ∧ t.acc = 0 ∧ t.nb = 0 ∧
      t.bitlen.toNat = s.bitlen.toNat + bs.length ∧
      t.inPos.toNat = s.inPos.toNat + (remaining .two s).length ∧
      t = { answered ((remaining .two s).length + 1) s with
        pay := t.pay, bitlen := t.bitlen, acc := t.acc, nb := t.nb, inPos := t.inPos } := by
  have hloop := packLoop (n := unread .two s + 1) rfl
    (by rw [remaining_length]; exact Nat.lt_succ_self _) hok hlen
  rw [hbits] at hloop
  obtain ⟨t, _, hdone, hheld, hbitlen, hpos, hpushed, rfl⟩ := hloop
  obtain ⟨htpacker, htheld⟩ := hheld hpacker
  obtain ⟨hacc, hnb, -⟩ := flush_spec htpacker
  have hflush := hpushed.trans (flush_from t)
  have hsame : (flush t).inPos = t.inPos := by rw [flush_from t]
  refine ⟨flush t, hdone, ?_, BitVec.eq_of_toNat_eq hacc, hnb, ?_, ?_, ?_⟩
  · rw [flush_pay_eq_packBytes htpacker, htheld]
  · rw [flush_bitlen, hbitlen]
  · rw [hsame, hpos]
  · rw [hsame]
    exact hflush

end

/-- Settles O32: from the entry state nothing is held, so the payload is the bits of pass 2 in whole bytes. -/
theorem packConcatenatesTheCodes : Obligations.PackConcatenatesTheCodes := by
  intro s bs hok hlen hpos hpay hbitlen hacc hnb hcoded hbs hfit
  have hrest : remaining .two s = s.host.in2 := by rw [remaining, hpos]; rfl
  have hzero : s.bitlen.toNat = 0 := by rw [hbitlen]; rfl
  have hpacker : PackOk s := by rw [PackOk, hacc, hnb]; decide
  have hheld : held s = [] := by rw [held, hpay, hacc, hnb]; rfl
  obtain rfl : bs = codedBits s.code s.host.in2 := hbs
  have hbits : pushedBits s.code (remaining .two s) s.bitlen.toNat =
      .ok (codedBits s.code s.host.in2) := by
    rw [hrest, hzero]
    exact pushedBits_eq_codedBits hcoded (by rwa [Nat.zero_add])
  obtain ⟨t, hdone, htpay, htacc, htnb, htbitlen, htpos, hframe⟩ :=
    packPhase_done hok hlen hpacker hbits
  rw [hheld, List.nil_append] at htpay
  have hbit (k : Nat) : payBit t.pay k =
      (payloadBits (packBytes (codedBits s.code s.host.in2)))[k]? := by rw [payBit_eq, htpay]
  have hbytes : t.pay.length = ((codedBits s.code s.host.in2).length + 7) / 8 := by
    rw [htpay, packBytes_length]
  simp only [payloadBits_packBytes] at hbit
  refine ⟨t, by rw [exec_pack, hdone, outcome_done], ?_, hbytes, fun k hk => ?_,
    fun k hk hk8 => ?_, ?_, ?_⟩
  · rw [htbitlen, hzero, Nat.zero_add]
  · rw [hbit, List.getElem?_append_left hk]
  · rw [hbit, List.getElem?_append_right hk, List.getElem?_replicate, if_pos (by omega)]
  · rw [htpos, hpos, hrest]
    exact Nat.zero_add _
  · rw [hrest, htacc.trans hacc.symm, htnb.trans hnb.symm] at hframe
    exact hframe

/-- Settles O33: the bits of the bytes before fit, and the byte without an entry ends the phase. -/
theorem packLookupMissFaults : Obligations.PackLookupMissFaults := by
  intro s before after b hok hlen hrest hmiss hcoded hfit
  refine exec_pack_raises (packPhase_raised hok hlen ?_)
  rw [hrest, pushedBits_append hcoded hfit, pushedBits_cons_of_miss hmiss]
  rfl

/-- Settles O34: the loop of PACK at the `Err` answer, and the bits of the rest of pass 2 where they do not fit. -/
theorem packInputFailsOrOverflows : Obligations.PackInputFailsOrOverflows := by
  intro s hlen hcoded
  constructor
  · intro k more hk hanswers hfit
    exact exec_pack_raises
      (packLoop_err rfl (by rw [remaining_length]; exact Nat.lt_succ_self _) hk hanswers hlen
        (fun b hb => hcoded b (List.mem_of_mem_take hb)) hfit)
  · intro hok hover
    exact exec_pack_raises (packPhase_raised hok hlen
      (pushedBits_overflow hcoded s.bitlen.isLt hover))

end Sys2Proof.Machine
end

section
/-! PROOFS. The frame of PACK, KEYWR, UNPACK and COMMIT in every state (43_bit_packer.md rule R171, 44_key_serializer.md
rule R186, 45_bit_unpacker.md rule R211, 46_commands.md rule R230, 60_exceptions.md rule R262). -/

namespace Sys2Proof.Machine

/-- PACK (rule R171). -/
theorem exec_pack_frame {s t : State} (h : exec .pack s = .next t) :
    KeepsOrFaults s t ∧ HostKept s t ∧
      t = { s with
        pay := t.pay, bitlen := t.bitlen, acc := t.acc, nb := t.nb, inPos := t.inPos, host := t.host,
        state := t.state, err := t.err, errclass := t.errclass, obuf := t.obuf, out := t.out } := by
  rcases outcome_next (packPhase_sat s) h with hpacked | ⟨e, u, ⟨-, hpacked⟩, rfl⟩
  · have hflags := hpacked.toKeeps.flags
    obtain ⟨hframe, hhost, -⟩ := hpacked
    refine ⟨.inl ⟨hflags, ?_⟩, hhost, ?_⟩ <;> rw [hframe]
  · have hflags := hpacked.toKeeps.flags
    obtain ⟨hframe, hhost, -⟩ := hpacked
    refine ⟨keepsOrFaults_raise e hflags, hhost, ?_⟩
    rw [hframe]
    rfl

/-- KEYWR raises no fault (rule R186). -/
theorem exec_keywr_frame {s t : State} (h : exec .keywr s = .next t) :
    s.obuf <+: t.obuf ∧ t = { s with obuf := t.obuf } := by
  obtain rfl : keywrPhase s = t := Host.Outcome.next.inj h
  exact ⟨List.prefix_append _ _, rfl⟩

/-- UNPACK (rule R211). -/
theorem exec_unpack_frame {s t : State} (h : exec .unpack s = .next t) :
    ((KeepsFlags s t ∧ s.obuf <+: t.obuf) ∨ ∃ e, Faulted e s t) ∧ HostKept s t ∧
      t = { s with
        cursor := t.cursor, walk := t.walk, inPos := t.inPos, host := t.host, state := t.state,
        err := t.err, errclass := t.errclass, obuf := t.obuf, out := t.out } := by
  rcases outcome_next (unpackPhase_sat s) h with hunpacked | ⟨e, u, ⟨-, hunpacked⟩, rfl⟩
  · have hflags := hunpacked.toKeeps.flags
    obtain ⟨hframe, hhost, hgrow⟩ := hunpacked
    refine ⟨.inl ⟨hflags, hgrow⟩, hhost, ?_⟩
    rw [hframe]
  · have hflags := hunpacked.toKeeps.flags
    obtain ⟨-, -, -, hphase, hcmd, -⟩ := hflags
    obtain ⟨hframe, hhost, -⟩ := hunpacked
    refine ⟨.inr ⟨e, faulted_raise e hphase hcmd⟩, hhost, ?_⟩
    rw [hframe]
    rfl

/-- What COMMIT does, by the host's answer to `OutCommit` (rule R230, 60_exceptions.md rule R253). -/
theorem commitPhase_cases (s : State) :
    (s.host.answers.head? ≠ some .err ∧
      commitPhase s = .done { answered 1 s with out := s.obuf, state := .done }) ∨
    (s.host.answers.head? = some .err ∧ commitPhase s = .raised .eIoOut (answered 1 s)) := by
  by_cases herr : s.host.answers.head? = some .err
  · exact .inr ⟨herr, by rw [commitPhase, outCommit_err herr, bind_raised]⟩
  · exact .inl ⟨herr, by rw [commitPhase, outCommit_ok herr, bind_done]⟩

theorem exec_commit (s : State) : exec .commit s = (commitPhase s).outcome := rfl

/-- COMMIT (rule R230). -/
theorem exec_commit_frame {s t : State} (h : exec .commit s = .next t) :
    HostKept s t ∧
      t = { s with
        host := t.host, state := t.state, err := t.err, errclass := t.errclass, obuf := t.obuf,
        out := t.out } := by
  rw [exec_commit] at h
  obtain ⟨-, hdone⟩ | ⟨-, hraised⟩ := commitPhase_cases s
  · rw [hdone] at h
    cases h
    exact ⟨.answered 1 s, rfl⟩
  · rw [hraised] at h
    cases h
    exact ⟨.answered 1 s, rfl⟩

/-- Settles O49, by the frame of each of the four. -/
theorem frameOfTheWriters : Obligations.FrameOfTheWriters := fun _ _ =>
  ⟨exec_pack_frame, exec_keywr_frame, exec_unpack_frame, exec_commit_frame⟩

end Sys2Proof.Machine
end

section
/-! PROOFS. The commands' functions on two passes that may differ (70_reset_and_hazards.md rule R285): where the bytes
of pass 2 occur in pass 1, `puff` undoes `huff` but for the empty pass 2 of 45_bit_unpacker.md rule R216. -/

namespace Sys2Proof.Machine

open Codec

/-- `CODE` is wide enough for every tree BUILD makes (41_tree_builder.md rule R149 item 5). -/
theorem build_depth_le {freq : Vector Word64 256} {tr : Tree} (h : build freq = .ok (some tr)) :
    tr.depth ≤ 255 := by
  obtain ⟨-, -, -, hdepth⟩ := builtTreeHasEachByteOnce freq tr h
  exact hdepth

/-- A code of a tree no deeper than 255 has at most 255 bits (42_code_assigner.md rule R162). -/
theorem assign_length_le {tr : Tree} (hdepth : tr.depth ≤ 255) (b : Byte) :
    (((Codec.assign (some tr)).lookup b).map Prod.snd).getD 0 ≤ 255 := by
  cases hlookup : (Codec.assign (some tr)).lookup b with
  | none => exact Nat.zero_le 255
  | some c =>
    obtain ⟨-, hlen, -⟩ := assign_range (lookup_mem hlookup)
    exact hlen.trans (max_le (by decide) hdepth)

/-- An input of fewer than `2^56` bytes that all have a code fits in `BITLEN`. -/
theorem encodeBits_fits {tr : Tree} {l : List Byte} (hdepth : tr.depth ≤ 255)
    (hcoded : ∀ b ∈ l, ∃ c, (Codec.assign (some tr)).lookup b = some c) (hlen : l.length < 2 ^ 56) :
    ∃ bs, encodeBits (Codec.assign (some tr)) l 0 = .ok bs ∧ bs.length < 2 ^ 64 := by
  have hsum := List.sum_le_card_nsmul
    (l.map fun b => (((Codec.assign (some tr)).lookup b).map Prod.snd).getD 0) 255
    (by simpa using fun b _ => assign_length_le hdepth b)
  rw [List.length_map, smul_eq_mul] at hsum
  obtain ⟨bs, henc, hbs⟩ := encodeBits_ok (n := 0) hcoded (by omega)
  exact ⟨bs, henc, by omega⟩

/-- Decoding the payload of an input gives the input; with no bits declared beside a tree, rule R216. -/
theorem unpack_packBytes {tr : Tree} {l : List Byte} {bs : List Bool}
    (henc : encodeBits (Codec.assign (some tr)) l 0 = .ok bs) :
    unpack (some tr) bs.length (packBytes bs) =
      if l = [] then .error .eFmtBitlen else .ok l := by
  rw [unpack, payloadBits_packBytes]
  split
  case isTrue hl =>
    subst hl
    cases henc
    rw [List.length_nil, decodeWalk]
  case isFalse hl => exact decode_encode henc hl _

/-- `puff` of a file of HUFF decodes its payload with the tree of the same table (44_key_serializer.md rule R201). -/
theorem puff_keyBytes {freq : Vector Word64 256} {tree : Option Tree} {n : Nat} (p : List Byte)
    (hbuild : build freq = .ok tree) (hn : n < 2 ^ 64) :
    puff (keyBytes freq (BitVec.ofNat 64 n) ++ p) = unpack tree n p := by
  simp only [puff, parse_keyBytes, hbuild, BitVec.toNat_ofNat, Nat.mod_eq_of_lt hn]

theorem keyBytes_packBytes_length_lt (freq : Vector Word64 256) (n : Word64) {bs : List Bool}
    (hbs : bs.length < 2 ^ 64) : (keyBytes freq n ++ packBytes bs).length < 2 ^ 64 := by
  have hkey := headerLengthFor_le freq
  rw [List.length_append, keyBytes_length, packBytes_length]
  omega

/-- Rule R285 on the functions, with the exception of rule R216. -/
theorem huff_then_puff {d e : List Byte} (hd : d.length < 2 ^ 64) (he : e.length < 2 ^ 56)
    (hsub : ∀ b ∈ e, b ∈ d) :
    ∃ file, huff d e = .ok file ∧ file.length < 2 ^ 64 ∧
      puff file = if e = [] ∧ d ≠ [] then .error .eFmtBitlen else .ok e := by
  obtain ⟨freq, hcount, -, hcase⟩ := build_of_input hd
  suffices h : ∃ tree bs, build freq = .ok tree ∧ encodeBits (Codec.assign tree) e 0 = .ok bs ∧
      bs.length < 2 ^ 64 ∧ unpack tree bs.length (packBytes bs) =
        if e = [] ∧ d ≠ [] then .error .eFmtBitlen else .ok e by
    obtain ⟨tree, bs, hbuild, henc, hbs, hunpack⟩ := h
    refine ⟨keyBytes freq (BitVec.ofNat 64 bs.length) ++ packBytes bs, ?_,
      keyBytes_packBytes_length_lt freq _ hbs, (puff_keyBytes _ hbuild hbs).trans hunpack⟩
    simp only [huff, hcount, hbuild, pack, henc]
  obtain ⟨rfl, hbuild⟩ | ⟨hne, tr, hbuild, hcoded⟩ := hcase
  · obtain rfl : e = [] := List.eq_nil_iff_forall_not_mem.mpr fun b hb => List.not_mem_nil (hsub b hb)
    exact ⟨none, [], hbuild, rfl, by decide, rfl⟩
  · obtain ⟨bs, henc, hbs⟩ :=
      encodeBits_fits (build_depth_le hbuild) (fun b hb => hcoded b (hsub b hb)) he
    refine ⟨some tr, bs, hbuild, henc, hbs, (unpack_packBytes henc).trans ?_⟩
    simp only [hne, ne_eq, not_false_eq_true, and_true]

end Sys2Proof.Machine
end

section
/-! PROOFS. The two commands on the machine are their functions (46_commands.md rule R227, rule R228, rule R234): what
a running command's phases find, one lemma a stage, and the stages in the order of the commands. -/

namespace Sys2Proof.Machine

open Codec

/-! ### A command that runs -/

/-- CORE is BUSY in a phase of a command that has not faulted and has staged nothing; the host lets it run and answers
no `Err`. -/
structure Running (word : BitVec 32) (p : BitVec 4) (s : State) : Prop where
  busy : s.state = .busy
  quiet : s.host.actions = []
  cmd : s.cmd = word
  phase : s.phase = p
  err : s.err = 0
  errclass : s.errclass = 0
  obuf : s.obuf = []
  served : NoErr s

/-- The packer is empty (43_bit_packer.md rule R170). -/
structure PackerEmpty (s : State) : Prop where
  pay : s.pay = []
  bitlen : s.bitlen = 0
  acc : s.acc = 0
  nb : s.nb = 0

/-- What the start of a command clears, as far as its phases rely on it (46_commands.md rule R226). -/
structure Cleared (s : State) : Prop where
  freq : s.freq = emptyTable
  pool : s.pool = []
  nextId : s.nextId = 256
  root : s.root = none
  code : ∀ b, entry s.code b = Code.none
  packer : PackerEmpty s
  cursor : s.cursor = 0
  inPos : s.inPos = 0

/-- `ROOT` and `NODE` hold a tree, or no tree. -/
def RootHolds (s : State) : Option Tree → Prop
  | none => s.root = none
  | some tree => ∃ r, s.root = some r ∧ Represents s.node r tree

section

variable {word : BitVec 32} {p : BitVec 4} {s t u : State} {tree : Tree}

theorem running_start (word : BitVec 32) (p : BitVec 4) (hok : NoErr s) :
    Running word p (setPhase p (startCommand word (withActions [] s))) :=
  ⟨rfl, rfl, rfl, rfl, rfl, rfl, rfl, hok⟩

theorem cleared_start (word : BitVec 32) (p : BitVec 4) (s : State) :
    Cleared (setPhase p (startCommand word s)) :=
  ⟨rfl, rfl, rfl, rfl, entry_replicate Code.none, ⟨rfl, rfl, rfl, rfl⟩, rfl, rfl⟩

theorem Running.atPhase (h : Running word p s) (q : BitVec 4) : Running word q (setPhase q s) :=
  ⟨h.busy, h.quiet, h.cmd, rfl, h.err, h.errclass, h.obuf, h.served⟩

/-- A phase that keeps the command running, and the one after it. -/
theorem Running.goto {q : BitVec 4} (h : Running word p s) (hp : 1 ≤ p.toNat ∧ p.toNat ≤ 8)
    (hdone : phaseWork p s = .done t) (ht : Running word p t) (hnext : nextPhase t = .goto q) :
    step s = .next (setPhase q t) :=
  step_goto h.busy h.quiet h.phase hp hdone ht.busy hnext

/-- The state in which PACK starts, the input rewound (20_memory.md rule R62). -/
def rewound (s : State) : State :=
  setPhase 4 { answered 1 s with inPass := .two, inPos := 0 }

theorem Running.afterRewind (h : Running word p s) : Running word 4 (rewound s) :=
  ⟨h.busy, h.quiet, h.cmd, rfl, h.err, h.errclass, h.obuf, h.served.answered 1⟩

/-- A phase that keeps the command running, and the rewind before PACK. -/
theorem Running.rewind (h : Running word p s) (hp : 1 ≤ p.toNat ∧ p.toNat ≤ 8)
    (hdone : phaseWork p s = .done t) (ht : Running word p t) (hnext : nextPhase t = .rewindThen 4) :
    step s = .next (rewound t) :=
  step_rewind h.busy h.quiet h.phase hp hdone ht.busy hnext ht.served.head?

/-- A fault of a phase ends the command. -/
theorem Running.ended_raised {e : ErrCode} (n : Nat) (h : Running word p s)
    (hp : 1 ≤ p.toNat ∧ p.toNat ≤ 8) (hraised : phaseWork p s = .raised e u) (hhost : HostKept s u) :
    ∃ t, Host.Core.run core (n + 1) s = .next t ∧ EndedAs (.error e) t :=
  Machine.ended_raised rfl h.busy h.quiet h.phase hp hraised (by rw [hhost.1]; exact h.quiet)

/-! ### BUILD and ASSIGN -/

theorem build_of_absent {freq : Vector Word64 256} (h : ∀ b, entry freq b = 0) :
    build freq = .ok none := by
  rw [build, leaves, (presentBytes_eq_nil freq).mpr h]
  rfl

/-- `t` is `s` after BUILD and ASSIGN of a table with the given tree. -/
def TreeMade (tree : Tree) (s t : State) : Prop :=
  t = { s with
    node := t.node, pool := t.pool, nextId := t.nextId, root := t.root,
    code := setCodes (Codec.assign (some tree)) s.code, phase := 3 } ∧
  RootHolds t (some tree)

theorem TreeMade.running (hmade : TreeMade tree s t) (h : Running word p s) : Running word 3 t := by
  rw [hmade.1]
  exact ⟨h.busy, h.quiet, h.cmd, rfl, h.err, h.errclass, h.obuf, h.served⟩

/-- The step of BUILD, after which ASSIGN writes the codes of the tree. -/
theorem Running.tree_stage (h : Running word 2 s) (hword : word = huffWord ∨ word = puffWord)
    (hpool : s.pool = []) (hnext : s.nextId = 256) (hbuild : build s.freq = .ok (some tree)) :
    ∃ u t, step s = .next u ∧ Running word 3 u ∧ phaseWork 3 u = .done t ∧ TreeMade tree s t := by
  have hphase := buildPhase_eq hpool hnext
  rw [hbuild] at hphase
  obtain ⟨r, u, hdone, hroot, -, htree, -, hframe⟩ := hphase
  have hu : Running word 2 u := by
    rw [hframe]
    exact ⟨h.busy, h.quiet, h.cmd, h.phase, h.err, h.errclass, h.obuf, h.served⟩
  have hgoto : nextPhase u = .goto 3 := by
    obtain rfl | rfl := hword
    · rw [nextPhase_huff hu.cmd, hu.phase]
      rfl
    · rw [nextPhase_puff hu.cmd, hu.phase]
      rfl
  have hassign := assignPhase_eq (s := setPhase 3 u) hroot (represents_shaped htree)
    (build_depth_le hbuild)
  refine ⟨setPhase 3 u, _, h.goto (by decide) hdone hu hgoto, hu.atPhase 3, hassign, ?_, r, hroot,
    htree⟩
  rw [hframe]
  rfl

end

/-! ### HUFF -/

/-- The file of a table and an input coded by the given codes (rule R234). -/
def packedFile (freq : Vector Word64 256) (cs : CodeTable) (l : List Byte) :
    Except ErrCode (List Byte) :=
  (pack cs l).map fun packed => keyBytes freq (BitVec.ofNat 64 packed.2) ++ packed.1

theorem huff_eq_packedFile {d e : List Byte} {freq : Vector Word64 256} {tree : Option Tree}
    (hcount : countTable d = .ok freq) (hbuild : build freq = .ok tree) :
    huff d e = packedFile freq (Codec.assign tree) e := by
  simp only [huff, hcount, hbuild, packedFile]
  cases pack (Codec.assign tree) e <;> rfl

theorem entry_emptyTable_toNat (b : Byte) : (entry emptyTable b).toNat = 0 := by
  rw [emptyTable, entry_replicate]
  rfl

theorem count_fits_emptyTable {l : List Byte} (h : l.length < 2 ^ 64) (b : Byte) :
    (entry emptyTable b).toNat + l.count b < 2 ^ 64 := by
  rw [entry_emptyTable_toNat, Nat.zero_add]
  exact List.count_le_length.trans_lt h

/-- On an input below `2^64` bytes `count` is COUNT's table from a clear one. -/
theorem countTable_eq_addCounts {l : List Byte} (h : l.length < 2 ^ 64) :
    countTable l = .ok (addCounts emptyTable l) := by
  obtain ⟨freq, hfreq, hcounts⟩ := countTable_ok h
  have hsame : freq = addCounts emptyTable l := table_ext fun b => BitVec.eq_of_toNat_eq (by
    rw [hcounts, entry_addCounts (count_fits_emptyTable h), entry_emptyTable_toNat, Nat.zero_add])
  rw [hfreq, hsame]

section

variable {s : State} (hlen2 : s.host.in2.length < 2 ^ 64)

include hlen2

/-- PACK, KEYWR and COMMIT. -/
theorem Running.pack_stage {cs : CodeTable} (n : Nat) (h : Running huffWord 4 s)
    (hpos : s.inPos = 0) (hempty : PackerEmpty s)
    (hcode : ∀ l k, pushedBits s.code l k = encodeBits cs l k) :
    ∃ t, Host.Core.run core (n + 3) s = .next t ∧
      EndedAs (packedFile s.freq cs s.host.in2) t := by
  obtain ⟨t, hrun, hended⟩ := Machine.pack_stage (n := n) h.busy h.quiet h.phase h.cmd h.err
    h.errclass h.served hlen2 hpos hempty.pay hempty.bitlen hempty.acc hempty.nb h.obuf hcode
  refine ⟨t, hrun, ?_⟩
  rw [packedFile]
  cases hpack : pack cs s.host.in2 <;> rw [hpack] at hended <;> exact hended

/-- HUFF from BUILD on. -/
theorem Running.huff_build_stage {tree : Tree} (n : Nat) (h : Running huffWord 2 s)
    (hpool : s.pool = []) (hnext : s.nextId = 256) (hempty : PackerEmpty s)
    (hclear : ∀ b, entry s.code b = Code.none) (hbuild : build s.freq = .ok (some tree)) :
    ∃ t, Host.Core.run core (n + 5) s = .next t ∧
      EndedAs (packedFile s.freq (Codec.assign (some tree)) s.host.in2) t := by
  obtain ⟨u, v, hstep, hu, hassign, hmade⟩ := h.tree_stage (.inl rfl) hpool hnext hbuild
  have hv := hmade.running h
  have hrewind := hu.rewind (by decide) hassign hv (by rw [nextPhase_huff hv.cmd, hv.phase]; rfl)
  have hkept : v.freq = s.freq ∧ v.host = s.host ∧ PackerEmpty v ∧
      v.code = setCodes (Codec.assign (some tree)) s.code := by
    rw [hmade.1]
    exact ⟨rfl, rfl, ⟨hempty.pay, hempty.bitlen, hempty.acc, hempty.nb⟩, rfl⟩
  obtain ⟨hfreq, hhost, hvempty, hcode⟩ := hkept
  rw [run_succ hstep, run_succ hrewind, ← hfreq, ← hhost]
  refine Running.pack_stage (s := rewound v) (show v.host.in2.length < 2 ^ 64 by rwa [hhost]) n
    hv.afterRewind rfl ⟨hvempty.pay, hvempty.bitlen, hvempty.acc, hvempty.nb⟩ fun l k => ?_
  exact (congrArg (pushedBits · l k) hcode).trans
    (pushedBits_assign (build_depth_le hbuild) (build_nodup hbuild) hclear l k)

/-- HUFF from COUNT on. -/
theorem Running.huff_count_stage (h : Running huffWord 1 s) (hc : Cleared s)
    (hlen1 : s.host.in1.length < 2 ^ 64) :
    ∃ t, Host.Core.run core 6 s = .next t ∧ EndedAs (huff s.host.in1 s.host.in2) t := by
  have hrest : remaining .one s = s.host.in1 := by rw [remaining, hc.inPos]; rfl
  have hcount : countTable s.host.in1 = .ok (addCounts s.freq s.host.in1) := by
    rw [hc.freq]
    exact countTable_eq_addCounts hlen1
  have hdone : countPhase s = .done (countedAll s.host.in1 s) := by
    rw [← hrest]
    refine countPhase_ok h.served hlen1 fun b => ?_
    rw [hrest, hc.freq]
    exact count_fits_emptyTable hlen1 b
  have hcounted : Running huffWord 1 (countedAll s.host.in1 s) :=
    ⟨h.busy, h.quiet, h.cmd, h.phase, h.err, h.errclass, h.obuf, h.served.answered _⟩
  have hempty : PackerEmpty (countedAll s.host.in1 s) :=
    ⟨hc.packer.pay, hc.packer.bitlen, hc.packer.acc, hc.packer.nb⟩
  have hnext : nextPhase (countedAll s.host.in1 s) =
      nextOfHuff (anyPresent (addCounts s.freq s.host.in1)) s.phase := nextPhase_huff h.cmd
  rw [h.phase] at hnext
  obtain ⟨freq, hfreq, hpresent, hcase⟩ := build_of_input hlen1
  obtain rfl : addCounts s.freq s.host.in1 = freq := Except.ok.inj (hcount.symm.trans hfreq)
  obtain ⟨hnil, hbuild⟩ | ⟨hne, tree, hbuild, -⟩ := hcase
  · have habsent : anyPresent (addCounts s.freq s.host.in1) = false :=
      (anyPresent_false_iff _).mpr fun b => by simpa [hnil] using hpresent b
    rw [habsent] at hnext
    rw [huff_eq_packedFile hcount hbuild, run_succ (h.rewind (by decide) hdone hcounted hnext)]
    exact Running.pack_stage (s := rewound (countedAll s.host.in1 s)) hlen2 2 hcounted.afterRewind rfl
      ⟨hempty.pay, hempty.bitlen, hempty.acc, hempty.nb⟩ (pushedBits_none hc.code)
  · have hany : anyPresent (addCounts s.freq s.host.in1) = true :=
      (anyPresent_iff _).mpr ((List.exists_mem_of_ne_nil _ hne).imp fun b => (hpresent b).mpr)
    rw [hany] at hnext
    rw [huff_eq_packedFile hcount hbuild, run_succ (h.goto (by decide) hdone hcounted hnext)]
    exact Running.huff_build_stage (s := setPhase 2 (countedAll s.host.in1 s)) hlen2 0
      (hcounted.atPhase 2) hc.pool hc.nextId ⟨hempty.pay, hempty.bitlen, hempty.acc, hempty.nb⟩
      hc.code hbuild

end

/-- HUFF computes `huff` (rule R234). -/
theorem run_huff {s : State} (hcmd : Commanded huffWord s) (hok : NoErr s)
    (hlen1 : s.host.in1.length < 2 ^ 64) (hlen2 : s.host.in2.length < 2 ^ 64) :
    ∃ t, Host.Core.run core 7 s = .next t ∧ EndedAs (huff s.host.in1 s.host.in2) t := by
  rw [run_succ (step_huff hcmd)]
  exact Running.huff_count_stage (s := setPhase 1 (startCommand huffWord (withActions [] s))) hlen2
    (running_start _ _ hok) (cleared_start _ _ _) hlen1

/-! ### PUFF -/

theorem puff_eq_error {d : List Byte} {e : ErrCode} (hparse : parse d = .error e) :
    puff d = .error e := by simp only [puff, hparse]

theorem puff_eq_bind {d p : List Byte} {freq : Vector Word64 256} {n : Nat}
    (hparse : parse d = .ok (freq, n, p)) :
    puff d = (build freq).bind fun tree => unpack tree n p := by
  simp only [puff, hparse]
  cases build freq <;> rfl

section

variable {s : State} (hlen1 : s.host.in1.length < 2 ^ 64)

include hlen1

/-- UNPACK with a tree or without one is `unpack` (45_bit_unpacker.md rule R211, rule R217). -/
theorem unpackPhase_of_rootHolds {tree : Option Tree} (hok : NoErr s) (hroot : RootHolds s tree)
    (hcursor : s.cursor = 0) (hpos : s.inPos.toNat = s.hdrlen.toNat) :
    match unpack tree s.bitlen.toNat (payload s) with
    | .error e => ∃ u, unpackPhase s = .raised e u
    | .ok out => ∃ u, unpackPhase s = .done u ∧ u.obuf = s.obuf ++ out := by
  cases tree with
  | none =>
    have hroot' : s.root = none := hroot
    by_cases hzero : s.bitlen = 0
    · have hdone : unpackPhase s = .done s := by simp only [unpackPhase, hroot', hzero, if_true]
      rw [hzero]
      exact ⟨s, hdone, (List.append_nil _).symm⟩
    · have hraised : unpackPhase s = .raised .eFmtBitlen s := by
        simp only [unpackPhase, hroot', if_neg hzero]
      have herror : unpack none s.bitlen.toNat (payload s) = .error .eFmtBitlen :=
        if_neg fun h => hzero (BitVec.eq_of_toNat_eq h)
      rw [herror]
      exact ⟨s, hraised⟩
  | some tree =>
    obtain ⟨r, hroot', htree⟩ := hroot
    have hphase := unpackPhase_eq hok hlen1 hroot' (represents_shaped htree) hcursor hpos
    revert hphase
    cases unpack (some tree) s.bitlen.toNat (payload s) with
    | error e => exact id
    | ok out => exact fun ⟨u, hdone, _, hobuf⟩ => ⟨u, hdone, hobuf⟩

/-- UNPACK and COMMIT. -/
theorem Running.unpack_stage {tree : Option Tree} (n : Nat) (h : Running puffWord 7 s)
    (hroot : RootHolds s tree) (hcursor : s.cursor = 0) (hpos : s.inPos.toNat = s.hdrlen.toNat) :
    ∃ t, Host.Core.run core (n + 2) s = .next t ∧
      EndedAs (unpack tree s.bitlen.toNat (payload s)) t := by
  have hphase := unpackPhase_of_rootHolds hlen1 h.served hroot hcursor hpos
  have hsat := unpackPhase_sat s
  revert hphase
  cases unpack tree s.bitlen.toNat (payload s) with
  | error e =>
    rintro ⟨u, hraised⟩
    rw [hraised] at hsat
    obtain ⟨-, -, hhost, -⟩ := hsat
    exact h.ended_raised (n + 1) (by decide) hraised hhost
  | ok out =>
    rintro ⟨u, hdone, hobuf⟩
    rw [hdone] at hsat
    obtain ⟨hframe, hhost, -⟩ := hsat
    have hquiet : u.host.actions = [] := by rw [hhost.1]; exact h.quiet
    have hserved : NoErr u := fun a ha => h.served a (hhost.2.subset ha)
    have hflags : u.state = .busy ∧ u.cmd = puffWord ∧ u.phase = 7 ∧ u.err = 0 ∧ u.errclass = 0 := by
      rw [hframe]
      exact ⟨h.busy, h.cmd, h.phase, h.err, h.errclass⟩
    obtain ⟨hbusy, hcmd, hphase, herr, hclass⟩ := hflags
    rw [h.obuf, List.nil_append] at hobuf
    rw [← hobuf, run_succ (step_goto h.busy h.quiet h.phase (by decide) (p := 8) hdone hbusy
      (by rw [nextPhase_puff hcmd, hphase]; rfl))]
    exact commit_stage (s := setPhase 8 u) hbusy hquiet rfl herr hclass hserved

/-- PUFF from BUILD on. -/
theorem Running.puff_build_stage (h : Running puffWord 2 s) (hpool : s.pool = [])
    (hnext : s.nextId = 256) (hpresent : ∃ b, entry s.freq b ≠ 0) (hcursor : s.cursor = 0)
    (hpos : s.inPos.toNat = s.hdrlen.toNat) :
    ∃ t, Host.Core.run core 4 s = .next t ∧
      EndedAs ((build s.freq).bind fun tree => unpack tree s.bitlen.toNat (payload s)) t := by
  have hphase := buildPhase_eq hpool hnext
  cases hbuild : build s.freq with
  | error e =>
    rw [hbuild] at hphase
    obtain ⟨-, u, hraised, hframe⟩ := hphase
    exact h.ended_raised 3 (by decide) hraised (by rw [hframe]; exact .refl s)
  | ok tree =>
    cases tree with
    | none =>
      rw [hbuild] at hphase
      obtain ⟨b, hb⟩ := hpresent
      exact absurd ((presentBytes_eq_nil _).mp hphase.1 b) hb
    | some tree =>
      obtain ⟨u, v, hstep, hu, hassign, hmade⟩ := h.tree_stage (.inr rfl) hpool hnext hbuild
      have hv := hmade.running h
      have hgoto := hu.goto (q := 7) (by decide) hassign hv
        (by rw [nextPhase_puff hv.cmd, hv.phase]; rfl)
      obtain ⟨hframe, hroot⟩ := hmade
      have hkept : v.host = s.host ∧ v.bitlen = s.bitlen ∧ v.hdrlen = s.hdrlen ∧
          v.inPos = s.inPos ∧ v.cursor = s.cursor := by
        rw [hframe]
        exact ⟨rfl, rfl, rfl, rfl, rfl⟩
      obtain ⟨hhost, hbitlen, hhdrlen, hinPos, hcur⟩ := hkept
      have hpayload : payload v = payload s := by rw [payload, payload, hhost, hhdrlen]
      rw [run_succ hstep, run_succ hgoto, ← hbitlen, ← hpayload]
      exact Running.unpack_stage (s := setPhase 7 v) (tree := some tree) (hhost ▸ hlen1) 0
        (hv.atPhase 7) hroot (hcur.trans hcursor)
        (by rw [setPhase_inPos, setPhase_hdrlen, hinPos, hhdrlen, hpos])

/-- PUFF from KEYRD on. -/
theorem Running.puff_key_stage (h : Running puffWord 6 s) (hc : Cleared s) :
    ∃ t, Host.Core.run core 5 s = .next t ∧ EndedAs (puff s.host.in1) t := by
  have hphase := keyrdPhase_eq h.served hc.inPos hc.freq
  cases hparse : parse s.host.in1 with
  | error e =>
    rw [hparse] at hphase
    obtain ⟨u, hraised⟩ := hphase
    have hsat := keyrdPhase_sat s
    rw [hraised] at hsat
    obtain ⟨-, -, hhost, -⟩ := hsat
    rw [puff_eq_error hparse]
    exact h.ended_raised 4 (by decide) hraised hhost
  | ok parsed =>
    obtain ⟨freq, n, p⟩ := parsed
    rw [hparse] at hphase
    obtain ⟨hdone, hn, hp, -⟩ := hphase
    have hnext : nextPhase (keyRead freq s) = nextOfPuff (anyPresent freq) s.phase :=
      nextPhase_puff h.cmd
    have hpos : (keyRead freq s).inPos.toNat = (keyRead freq s).hdrlen.toNat := by
      have := (headerLengthOf s.host.in1).isLt
      exact (BitVec.toNat_ofNat _ _).trans (Nat.mod_eq_of_lt (by omega))
    have hread : Running puffWord 6 (keyRead freq s) :=
      ⟨h.busy, h.quiet, h.cmd, h.phase, h.err, h.errclass, h.obuf, h.served.answered _⟩
    rw [h.phase] at hnext
    rw [puff_eq_bind hparse, hn, hp]
    cases hany : anyPresent freq with
    | false =>
      rw [hany] at hnext
      rw [build_of_absent ((anyPresent_false_iff freq).mp hany),
        run_succ (h.goto (by decide) hdone hread hnext)]
      exact Running.unpack_stage (s := setPhase 7 (keyRead freq s)) (tree := none) hlen1 2
        (hread.atPhase 7) hc.root hc.cursor hpos
    | true =>
      rw [hany] at hnext
      rw [run_succ (h.goto (by decide) hdone hread hnext)]
      exact Running.puff_build_stage (s := setPhase 2 (keyRead freq s)) hlen1 (hread.atPhase 2)
        hc.pool hc.nextId ((anyPresent_iff freq).mp hany) hc.cursor hpos

end

/-- PUFF computes `puff` (rule R234). -/
theorem run_puff {s : State} (hcmd : Commanded puffWord s) (hok : NoErr s)
    (hlen1 : s.host.in1.length < 2 ^ 64) :
    ∃ t, Host.Core.run core 6 s = .next t ∧ EndedAs (puff s.host.in1) t := by
  rw [run_succ (step_puff hcmd)]
  exact Running.puff_key_stage (s := setPhase 6 (startCommand puffWord (withActions [] s))) hlen1
    (running_start _ _ hok) (cleared_start _ _ _)

/-- Settles O55: each command is its function on the machine, and the functions meet rule R285 and rule R216. -/
theorem secondPassIsWhatIsEncoded : Obligations.SecondPassIsWhatIsEncoded := by
  intro d e s hd he hsub hcmd hok hin1 hin2
  obtain ⟨file, hhuff, hfile, hpuff⟩ := huff_then_puff hd he hsub
  obtain ⟨t, hrun, hended⟩ := run_huff hcmd hok (by rwa [hin1]) (by rw [hin2]; omega)
  rw [hin1, hin2, hhuff] at hended
  obtain ⟨hstate, -, -, -, hout⟩ := hended
  refine ⟨t, hrun, hstate, fun s' hcmd' hok' hin1' => ?_⟩
  rw [hout] at hin1'
  obtain ⟨t', hrun', hended'⟩ := run_puff hcmd' hok' (by rwa [hin1'])
  rw [hin1', hpuff] at hended'
  refine ⟨t', hrun', fun hcase => ?_, fun hnil hne => ?_⟩
  · rw [if_neg (by tauto)] at hended'
    obtain ⟨hstate', -, -, -, hout'⟩ := hended'
    exact ⟨hstate', hout'⟩
  · rw [if_pos ⟨hnil, hne⟩] at hended'
    obtain ⟨hstate', herr', -, hout'⟩ := hended'
    exact ⟨hstate', herr', hout'⟩

end Sys2Proof.Machine
end


section
/-! PROOFS. KEYWR, the length of its header, and KEYRD against `parse` and against KEYWR (44_key_serializer.md rule
R186 to rule R201). -/

namespace Sys2Proof.Machine

open Codec

/-! ### KEYWR -/

theorem exec_keywr (s : State) : exec .keywr s = .next (keywrPhase s) := rfl

/-- The key as rule R186 writes it out: the number of present bytes gives `header_length`. -/
theorem keyBytes_eq (freq : Vector Word64 256) (n : Word64) :
    keyBytes freq n =
      be16 (BitVec.ofNat 16 (10 + 9 * (allBytes.filter (presentIn freq)).length)) ++ be64 n ++
        (allBytes.filter (presentIn freq)).flatMap (fun b => b :: be64 (entry freq b)) := by
  rw [keyBytes, headerLengthFor_eq, presentBytes_eq_filter]
  rfl

/-- Settles O35: what KEYWR emits is the key, written out, and the payload. -/
theorem keywrWritesTheFile : Obligations.KeywrWritesTheFile := by
  intro s
  rw [exec_keywr, keywrPhase, keyBytes_eq]
  rfl

theorem headerLengthOf_keyBytes (freq : Vector Word64 256) (n : Word64) :
    (headerLengthOf (keyBytes freq n)).toNat = headerLengthFor freq := by
  rw [keyBytes, List.append_assoc, headerLengthOf_be16, headerLengthFor_toNat]

/-- Settles O36: a table has at most 256 present bytes, so the length fits the field it is written to. -/
theorem headerLengthFits : Obligations.HeaderLengthFits := by
  intro freq n
  have hcount : headerLengthFor freq = 10 + 9 * (allBytes.filter (presentIn freq)).length := by
    rw [headerLengthFor_eq, presentBytes_eq_filter]
  exact ⟨keyBytes_length freq n, headerLengthOf_keyBytes freq n, hcount, by omega,
    headerLengthFor_le freq, by omega⟩

/-! ### KEYRD -/

/-- The record counter holds every number of records a header length can declare. -/
theorem declaredRecords_toNat (d : List Byte) :
    (BitVec.ofNat 16 (declaredRecords d)).toNat = ((headerLengthOf d).toNat - 10) / 9 := by
  have hfield := (headerLengthOf d).isLt
  rw [BitVec.toNat_ofNat, declaredRecords, Nat.mod_eq_of_lt (by omega)]

/-- KEYRD leaves `IN_POS` at the end of the header, where the payload begins (rule R198). -/
theorem keyRead_inPos_toNat (freq : Vector Word64 256) (s : State) :
    (keyRead freq s).inPos.toNat = (headerLengthOf s.host.in1).toNat := by
  have hfield := (headerLengthOf s.host.in1).isLt
  rw [keyRead, BitVec.toNat_ofNat, Nat.mod_eq_of_lt (by omega)]

/-- Settles O39, by the two outcomes of `parse`: KEYRD raises the same fault, or ends in `keyRead`. -/
theorem keyrdParses : Obligations.KeyrdParses := by
  intro s hok hpos hclear
  have hphase := keyrdPhase_eq hok hpos hclear
  cases hparse : parse s.host.in1 with
  | error e =>
    rw [hparse] at hphase
    exact exec_keyrd_raises hphase
  | ok parsed =>
    obtain ⟨freq, n, p⟩ := parsed
    rw [hparse] at hphase
    obtain ⟨hdone, hbits, hpayload, -⟩ := hphase
    refine ⟨keyRead freq s, ?_, rfl, hbits.symm, hpayload.symm, rfl, declaredRecords_toNat _, rfl,
      keyRead_inPos_toNat freq s, rfl⟩
    rw [exec_keyrd, hdone, outcome_done]

/-- KEYRD on a pass 1 that parses: the parts are in their registers and no flag is written. -/
theorem exec_keyrd_of_parse {s : State} {freq : Vector Word64 256} {n : Word64} {p : List Byte}
    (hok : NoErr s) (hpos : s.inPos = 0) (hclear : s.freq = emptyTable)
    (hparse : parse s.host.in1 = .ok (freq, n.toNat, p)) :
    ∃ t, exec .keyrd s = .next t ∧ t.freq = freq ∧ t.bitlen = n ∧ payload t = p ∧ KeepsFlags s t := by
  have hread := keyrdParses s hok hpos hclear
  rw [hparse] at hread
  obtain ⟨t, hexec, hfreq, hbits, hpayload, -, -, -, -, hframe⟩ := hread
  refine ⟨t, hexec, hfreq, BitVec.eq_of_toNat_eq hbits, hpayload, ?_⟩
  rw [hframe]
  exact ⟨rfl, rfl, rfl, rfl, rfl, rfl⟩

/-- Settles O40: a key followed by any payload parses to its table and its bit length. -/
theorem keyrdUndoesKeywr : Obligations.KeyrdUndoesKeywr := by
  intro s freq n p hok hpos hclear hfile
  exact exec_keyrd_of_parse hok hpos hclear (hfile ▸ parse_keyBytes freq n p)

/-- Settles O41: the records of a table parse to the table in whatever order they stand. -/
theorem recordOrderIsFree : Obligations.RecordOrderIsFree := by
  intro s freq n order p hok hpos hclear horder hfile
  obtain ⟨t, hexec, hfreq, hbits, hpayload, -⟩ :=
    exec_keyrd_of_parse hok hpos hclear (hfile ▸ parse_order n p horder)
  exact ⟨t, hexec, hfreq, hbits, hpayload⟩

end Sys2Proof.Machine
end

section
/-! PROOFS. UNPACK as an operation: it is the walk of the tree (45_bit_unpacker.md rule R211), on a degenerate tree
copies of one byte (rule R213), and what it raises at the first bit and at an `Err` answer (rule R212, rule R215 to
rule R217). -/

namespace Sys2Proof.Machine

open Codec

theorem exec_unpack (s : State) : exec .unpack s = (unpackPhase s).outcome := rfl

theorem exec_unpack_raises {s : State} {e : ErrCode} (h : ∃ u, unpackPhase s = .raised e u) :
    RaisesFrom s e (exec .unpack s) :=
  raisesFrom_of_sat (unpackPhase_sat s) (fun _ _ hu => hu.2.toKeeps.flags) h

/-! ### The walk from the entry state -/

section

variable {s : State} {r : NodeId} {tree : Tree} (hok : NoErr s) (hlen : s.host.in1.length < 2 ^ 64)
  (hroot : s.root = some r) (hshape : Shaped s.node r tree) (hcursor : s.cursor = 0)
  (hpos : s.inPos.toNat = s.hdrlen.toNat)

include hok hlen hroot hshape hcursor hpos

/-- UNPACK raises the fault of the walk; of the node table only the shape of the tree is read. -/
theorem exec_unpack_of_unpack_error {e : ErrCode}
    (hwalk : unpack (some tree) s.bitlen.toNat (payload s) = .error e) :
    RaisesFrom s e (exec .unpack s) := by
  have hphase := unpackPhase_eq hok hlen hroot hshape hcursor hpos
  rw [hwalk] at hphase
  exact exec_unpack_raises hphase

/-- UNPACK emits the bytes of the walk and takes one answer for each payload byte begun (rule R220). -/
theorem exec_unpack_of_unpack_ok {bytes : List Byte}
    (hwalk : unpack (some tree) s.bitlen.toNat (payload s) = .ok bytes) :
    ∃ t, exec .unpack s = .next t ∧ t.obuf = s.obuf ++ bytes ∧ t.cursor = s.bitlen ∧
      t = { answered ((s.bitlen.toNat + 7) / 8) s with
        cursor := t.cursor, walk := t.walk, inPos := t.inPos, obuf := t.obuf } := by
  have hphase := unpackPhase_eq hok hlen hroot hshape hcursor hpos
  rw [hwalk] at hphase
  obtain ⟨t, hdone, ⟨hframe, hcur, -⟩, hobuf⟩ := hphase
  exact ⟨t, by rw [exec_unpack, hdone, outcome_done], hobuf, BitVec.eq_of_toNat_eq hcur, hframe⟩

end

/-- Settles O42, by the two outcomes of the walk. -/
theorem unpackWalksTheTree : Obligations.UnpackWalksTheTree := by
  intro s r tree hok hlen hroot htree hcursor hpos
  have hshape := represents_shaped htree
  cases hwalk : unpack (some tree) s.bitlen.toNat (payload s) with
  | error e => exact exec_unpack_of_unpack_error hok hlen hroot hshape hcursor hpos hwalk
  | ok bytes => exact exec_unpack_of_unpack_ok hok hlen hroot hshape hcursor hpos hwalk

/-! ### The degenerate tree -/

/-- On a leaf the walk needs as many bits as are declared. -/
theorem decodeWalk_leaf_of_short {b : Byte} {f left : Nat} {bs : List Bool} (hshort : bs.length < left) :
    decodeWalk (.leaf b f) (.leaf b f) left bs = .error .eFmtTrunc := by
  induction left generalizing bs with
  | zero => omega
  | succ left ih =>
    cases bs with
    | nil => rfl
    | cons bit more =>
      rw [List.length_cons] at hshort
      have hleft : left ≠ 0 := by omega
      simp only [decodeWalk, descend, if_neg hleft, ih (bs := more) (by omega)]

/-- Where the declared bits are there, the walk on a leaf gives its byte once for each (rule R213). -/
theorem decodeWalk_leaf_of_le {b : Byte} {f left : Nat} {bs : List Bool} (hpos : left ≠ 0)
    (hle : left ≤ bs.length) :
    decodeWalk (.leaf b f) (.leaf b f) left bs = .ok (List.replicate left b) := by
  induction left generalizing bs with
  | zero => contradiction
  | succ left ih =>
    cases bs with
    | nil => contradiction
    | cons bit more =>
      rw [List.length_cons] at hle
      by_cases hlast : left = 0
      · subst hlast
        rfl
      · simp only [decodeWalk, descend, if_neg hlast, ih hlast (bs := more) (by omega),
          List.replicate_succ]

/-- Settles O43, by the walk on a leaf in its three cases. -/
theorem unpackDegenerateTree : Obligations.UnpackDegenerateTree := by
  intro s r hok hlen hroot hleaf hcursor hpos
  have hshape : Shaped s.node r (.leaf (nodeAt s.node r).byte 0) := ⟨hleaf, rfl⟩
  refine ⟨fun hzero => ?_, fun hshort => ?_, fun hbits hle => ?_⟩
  · refine exec_unpack_of_unpack_error hok hlen hroot hshape hcursor hpos ?_
    rw [hzero]
    rfl
  · exact exec_unpack_of_unpack_error hok hlen hroot hshape hcursor hpos
      (decodeWalk_leaf_of_short (by rwa [payloadBits_length]))
  · have hwalk : unpack (some (.leaf (nodeAt s.node r).byte 0)) s.bitlen.toNat (payload s) =
        .ok (List.replicate s.bitlen.toNat (nodeAt s.node r).byte) :=
      decodeWalk_leaf_of_le (fun h => hbits (BitVec.eq_of_toNat_eq h)) (by rwa [payloadBits_length])
    obtain ⟨t, hnext, hobuf, hcur, -⟩ :=
      exec_unpack_of_unpack_ok hok hlen hroot hshape hcursor hpos hwalk
    exact ⟨t, hnext, hcur, hobuf⟩

/-! ### The first bit -/

/-- Without a tree only an empty output can be declared (rule R217). -/
theorem unpackPhase_of_root_none {s : State} (hroot : s.root = none) :
    unpackPhase s = if s.bitlen = 0 then .done s else .raised .eFmtBitlen s := by
  rw [unpackPhase, hroot]

/-- The declared length is tested before the stream is read (rule R212). -/
theorem consumeBit_of_bitlen_zero {s : State} (hzero : s.bitlen = 0) :
    consumeBit s = .ended (.raised .eFmtBitlen s) := by
  have hnone : s.cursor.toNat ≥ s.bitlen.toNat := by
    rw [hzero]
    exact Nat.zero_le _
  rw [consumeBit, if_pos hnone]

/-- Where a bit is declared, a fault of the stream read ends the first `ConsumeBit`. -/
theorem consumeBit_of_fetch_raised {s u : State} {e : ErrCode} (hcursor : s.cursor = 0)
    (hbits : s.bitlen ≠ 0) (hfetch : fetchPayload s = .raised e u) :
    consumeBit s = .ended (.raised e u) := by
  have hleft : ¬ s.cursor.toNat ≥ s.bitlen.toNat := by
    rw [hcursor]
    exact fun h => hbits (BitVec.eq_of_toNat_eq (Nat.le_zero.mp h))
  rw [consumeBit, if_neg hleft, hfetch]

/-- Where a payload byte is begun the host is asked (rule R220); here it answers `Err`. -/
theorem fetchPayload_of_err {s : State} (hbegun : s.cursor.toNat % 8 = 0)
    (herr : s.host.answers.head? = some .err) : fetchPayload s = .raised .eIoIn (answered 1 s) := by
  rw [fetchPayload, if_pos hbegun, inNext_err .one herr]

/-- The payload byte begun is not there (rule R215). -/
theorem fetchPayload_of_eos {s : State} (hbegun : s.cursor.toNat % 8 = 0)
    (hok : s.host.answers.head? ≠ some .err) (hend : s.host.in1.length ≤ s.inPos.toNat) :
    fetchPayload s = .raised .eFmtTrunc (answered 1 s) := by
  rw [fetchPayload, if_pos hbegun, inNext_eos .one hok hend]

/-- A fault of the first `ConsumeBit` is the fault of UNPACK, whatever node the root is. -/
theorem unpackPhase_of_first_bit_raised {s u : State} {r : NodeId} {e : ErrCode} (hroot : s.root = some r)
    (hbit : consumeBit { s with walk := r } = .ended (.raised e u)) : unpackPhase s = .raised e u := by
  have hcode : walkCode r s = .raised e u := by
    cases hleaf : (nodeAt s.node r).leaf with
    | true => simp only [walkCode, hleaf, if_true, hbit]
    | false =>
      have hwalk : walkBody { s with walk := r } = .leave (.raised e u) := by
        simp only [walkBody, hleaf, Bool.false_eq_true, if_false, hbit]
      simp only [walkCode, hleaf, Bool.false_eq_true, if_false, iterate_leave hwalk]
  have hbody : symbolBody r s = .leave (.raised e u) := by simp only [symbolBody, hcode]
  simp only [unpackPhase, hroot, iterate_leave hbody]

/-- Settles O44: no tree, the three faults of the first `ConsumeBit`, and an `Err` at a byte the walk needs. -/
theorem unpackFirstBit : Obligations.UnpackFirstBit := by
  intro s
  refine ⟨fun hroot => ?_, fun r hroot hcursor => ?_, ?_⟩
  · have hphase := unpackPhase_of_root_none hroot
    refine ⟨fun hzero => ?_, fun hbits => ?_⟩
    · rw [exec_unpack, hphase, if_pos hzero, outcome_done]
    · exact exec_unpack_raises ⟨s, hphase.trans (if_neg hbits)⟩
  · have raises {e : ErrCode} {u : State}
        (hbit : consumeBit { s with walk := r } = .ended (.raised e u)) :
        RaisesFrom s e (exec .unpack s) :=
      exec_unpack_raises ⟨u, unpackPhase_of_first_bit_raised hroot hbit⟩
    have hbegun : s.cursor.toNat % 8 = 0 := by rw [hcursor]; rfl
    exact ⟨fun hzero => raises (consumeBit_of_bitlen_zero hzero),
      fun hbits herr => raises (consumeBit_of_fetch_raised hcursor hbits (fetchPayload_of_err hbegun herr)),
      fun hbits hok hend =>
        raises (consumeBit_of_fetch_raised hcursor hbits (fetchPayload_of_eos hbegun hok hend))⟩
  · intro r tree k more hroot htree hcursor hpos hlen hanswers hk htrunc
    exact exec_unpack_raises
      (unpackPhase_err hanswers hk hlen hroot (represents_shaped htree) hcursor hpos htrunc)

end Sys2Proof.Machine
end

section
/-! PROOFS. The step by what it has selected (46_commands.md rule R229, rule R237, 70_reset_and_hazards.md rule R291):
CORE's own phase, the operation the host asks for, and the moves that leave CORE as it is. -/

namespace Sys2Proof.Machine

/-! ### What a step selects -/

theorem step_of_no_action {s : State} (ha : s.host.actions = []) :
    step s = (selectPhase s).outcome := by
  rw [step_eq_outcome, select, ha]

theorem step_of_action {s : State} {a : HostAction} {rest : List HostAction}
    (ha : s.host.actions = a :: rest) : step s = (selectAction a (withActions rest s)).outcome := by
  rw [step_eq_outcome, select, ha]

/-- A BUSY machine has selected the phase in `PHASE` (30_encoding.md rule R94). -/
theorem selectPhase_busy {s : State} {i : Instr} (hb : s.state = .busy)
    (hi : decode (.phase s.phase) = .instr i) : selectPhase s = .phase i s := by
  rw [selectPhase, if_pos hb, hi]

/-- A legal word selects its operation (46_commands.md rule R225). -/
theorem selectCommand_instr {s : State} {w : BitVec 32} {i : Instr} (hi : decode (.cmd w) = .instr i) :
    selectCommand w s = .operation i s := by
  rw [selectCommand, hi]

/-- Settles O5: with or without `letRun` at its head, the queue leaves the step to the phase in `PHASE`. -/
theorem stepRunsThePhase : Obligations.StepRunsThePhase := by
  intro s i hb hi
  refine ⟨fun ha => ?_, fun rest ha => ?_⟩
  · rw [step_of_no_action ha, selectPhase_busy hb hi, Selected.outcome]
  · rw [step_of_action ha, selectAction, selectPhase_busy (s := withActions rest s) hb hi,
      Selected.outcome]

/-- Settles O6: the word's operation is the one selected, and the reset input selects RESET. -/
theorem stepRunsTheHostsOperation : Obligations.StepRunsTheHostsOperation := by
  intro s rest
  refine ⟨fun w i ha hi => ?_, step_of_action⟩
  rw [step_of_action ha, selectAction, selectCommand_instr hi, Selected.outcome]

/-- Settles O10: outside BUSY CORE's own step waits. -/
theorem coreWaitsForTheHost : Obligations.CoreWaitsForTheHost := fun _ => step_waiting

/-- Settles O17: reading `STATUS` writes the host's side alone, and the queue of moves is no part of the word. -/
theorem readingStatusChangesNothing : Obligations.ReadingStatusChangesNothing := fun s rest ha =>
  ⟨hostReadsStatus (withActions rest s), step_of_action ha, rfl, rfl⟩

/-! ### A write to `CMD` while BUSY -/

theorem acceptCommand_busy {s : State} (hb : s.state = .busy) (word : BitVec 32) (first : BitVec 4) :
    acceptCommand word first s = s := if_pos hb

theorem rejectCommand_busy {s : State} (hb : s.state = .busy) (word : BitVec 32) :
    rejectCommand word s = s := if_pos hb

/-- Each of the two commands, and the rejection of any other word, does nothing while BUSY (46_commands.md rule
R231). -/
theorem selectCommand_busy {s : State} (hb : s.state = .busy) (w : BitVec 32) :
    (selectCommand w s).outcome = .next s := by
  by_cases hhuff : w = huffWord
  · rw [hhuff]
    exact congrArg Host.Outcome.next (acceptCommand_busy hb huffWord 1)
  by_cases hpuff : w = puffWord
  · rw [hpuff]
    exact congrArg Host.Outcome.next (acceptCommand_busy hb puffWord 6)
  · simp only [selectCommand, decode, decodeCommand_illegal hhuff hpuff, Selected.outcome,
      rejectCommand_busy hb]

/-- Settles O13: the write is taken off the queue and nothing else is done. -/
theorem writeWhileBusyIgnored : Obligations.WriteWhileBusyIgnored := fun s w rest hb ha =>
  (step_of_action ha).trans (selectCommand_busy (s := withActions rest s) hb w)

end Sys2Proof.Machine
end

section
/-! PROOFS. The start of a command (46_commands.md rule R225 to rule R228, rule R236): the state a write to `CMD` leaves
outside BUSY depends on the word and the host alone. -/

namespace Sys2Proof.Machine

/-- A started command is the cleared machine but for `CMD` and `STATE` (rule R225, rule R226). -/
theorem startCommand_eq (word : BitVec 32) (s : State) :
    startCommand word s = { resetWith s.host with cmd := word, state := .busy } := rfl

theorem exec_huff_of_not_busy {s : State} (hidle : s.state ≠ .busy) :
    exec .huff s = .next (setPhase 1 (startCommand huffWord s)) :=
  congrArg Host.Outcome.next (if_neg hidle)

theorem exec_puff_of_not_busy {s : State} (hidle : s.state ≠ .busy) :
    exec .puff s = .next (setPhase 6 (startCommand puffWord s)) :=
  congrArg Host.Outcome.next (if_neg hidle)

/-- Settles O11: both commands start, HUFF in COUNT and PUFF in KEYRD. -/
theorem commandsStart : Obligations.CommandsStart := fun _ hidle =>
  ⟨exec_huff_of_not_busy hidle, exec_puff_of_not_busy hidle⟩

/-- What a write of `word` to `CMD` outside BUSY makes of a state: the command is started in its first phase, or
`E_CMD` is raised (rule R225, 60_exceptions.md rule R251). -/
def afterWrite (word : BitVec 32) (s : State) : State :=
  if word = huffWord then setPhase 1 (startCommand word s)
  else if word = puffWord then setPhase 6 (startCommand word s)
  else raise .eCmd (startCommand word s)

theorem step_writeCmd {s : State} {w : BitVec 32} {rest : List HostAction} (hidle : s.state ≠ .busy)
    (ha : s.host.actions = .writeCmd w :: rest) :
    step s = .next (afterWrite w (withActions rest s)) := by
  unfold afterWrite
  obtain ⟨hlegal, -⟩ := stepRunsTheHostsOperation s rest
  split_ifs with hhuff hpuff
  · subst hhuff
    rw [hlegal huffWord .huff ha rfl, exec_huff_of_not_busy (s := withActions rest s) hidle]
  · subst hpuff
    rw [hlegal puffWord .puff ha rfl, exec_puff_of_not_busy (s := withActions rest s) hidle]
  · exact step_illegalCommand hidle hhuff hpuff ha

/-- Whatever the word, the write leaves the cleared machine but for `CMD` and the fields of `STATUS`. -/
theorem afterWrite_cleared (word : BitVec 32) (s : State) :
    ∃ run phase err errclass, afterWrite word s =
      { resetWith s.host with
        cmd := word, state := run, phase := phase, err := err, errclass := errclass } := by
  unfold afterWrite
  split_ifs
  · exact ⟨.busy, 1, 0, 0, rfl⟩
  · exact ⟨.busy, 6, 0, 0, rfl⟩
  · exact ⟨.fault, 0, errCode .eCmd, errClass .eCmd, rfl⟩

theorem afterWrite_congr {s t : State} (word : BitVec 32) (hhost : s.host = t.host) :
    afterWrite word s = afterWrite word t := by
  simp only [afterWrite, startCommand_eq, hhost]

theorem nodeAt_reset (i : NodeId) : nodeAt State.reset.node i = Node.zero :=
  Vector.getElem_replicate _

/-- Settles O12: the write leaves the cleared machine, whose items are at their reset values. -/
theorem commandStartClears : Obligations.CommandStartClears := by
  intro s w rest hidle ha
  obtain ⟨run, phase, err, errclass, hcleared⟩ := afterWrite_cleared w (withActions rest s)
  refine ⟨_, step_writeCmd hidle ha, ?_⟩
  rw [hcleared]
  exact ⟨rfl, entry_replicate 0, nodeAt_reset, rfl, rfl, rfl, entry_replicate Code.none, rfl, rfl, rfl,
    rfl, rfl, rfl, rfl, rfl, rfl, rfl, rfl, rfl, rfl⟩

/-- Settles O56: after the first step the two runs are in the same state. -/
theorem commandSeesOnlyItsInput : Obligations.CommandSeesOnlyItsInput := by
  rintro w s s' n ⟨hidle, ha⟩ ⟨hidle', ha'⟩ hhost
  have hsame : afterWrite w (withActions [] s) = afterWrite w (withActions [] s') :=
    afterWrite_congr w (by rw [withActions_host, withActions_host, hhost])
  rw [run_succ (step_writeCmd hidle ha), run_succ (step_writeCmd hidle' ha'), hsame]

end Sys2Proof.Machine
end

section
/-! PROOFS. The order of the phases in each command (46_commands.md rule R227, rule R228), and COMMIT, which ends it
(rule R230). -/

namespace Sys2Proof.Machine

/-! ### The sequencer -/

/-- A phase without a fault, and no rewind before the next (rule R229). -/
theorem afterPhase_goto {s : State} {p : BitVec 4} (hb : s.state = .busy) (hn : nextPhase s = .goto p) :
    afterPhase (.next s) = .next (setPhase p s) := by
  simp only [afterPhase, advance, hb, ↓reduceIte, hn]

/-- A phase without a fault, and the rewind before the next, which the host serves (20_memory.md rule R62). -/
theorem afterPhase_rewind_ok {s : State} {p : BitVec 4} (hb : s.state = .busy)
    (hn : nextPhase s = .rewindThen p) (hok : s.host.answers.head? ≠ some .err) :
    afterPhase (.next s) = .next (setPhase p { answered 1 s with inPass := .two, inPos := 0 }) := by
  simp only [afterPhase, advance, hb, ↓reduceIte, hn, inRewind_ok hok, bind_done, outcome_done]

theorem afterPhase_huff {s : State} {p q : BitVec 4} (hb : s.state = .busy) (hcmd : s.cmd = huffWord)
    (hphase : s.phase = p) (hn : nextOfHuff (anyPresent s.freq) p = .goto q) :
    afterPhase (.next s) = .next (setPhase q s) :=
  afterPhase_goto hb (by rw [nextPhase_huff hcmd, hphase, hn])

theorem afterPhase_puff {s : State} {p q : BitVec 4} (hb : s.state = .busy) (hcmd : s.cmd = puffWord)
    (hphase : s.phase = p) (hn : nextOfPuff (anyPresent s.freq) p = .goto q) :
    afterPhase (.next s) = .next (setPhase q s) :=
  afterPhase_goto hb (by rw [nextPhase_puff hcmd, hphase, hn])

/-- Settles O7, by the order of HUFF; COUNT is followed by what its test of `FREQ` says. -/
theorem orderOfHuff : Obligations.OrderOfHuff := by
  intro s hb hcmd
  refine ⟨fun hphase hpresent => ?count, fun hphase => ?build, fun hphase hok => ?rewind,
    fun hphase => ?pack, fun hphase => ?keywr⟩
  case count => exact afterPhase_huff hb hcmd hphase (by rw [(anyPresent_iff s.freq).mpr hpresent]; rfl)
  case build => exact afterPhase_huff hb hcmd hphase rfl
  case rewind => exact afterPhase_rewind_ok hb (nextPhase_huff_rewind hcmd hphase) hok
  case pack => exact afterPhase_huff hb hcmd hphase rfl
  case keywr => exact afterPhase_huff hb hcmd hphase rfl

/-- Settles O8, by the order of PUFF; KEYRD is followed by what its test of `FREQ` says. -/
theorem orderOfPuff : Obligations.OrderOfPuff := by
  intro s hb hcmd
  refine ⟨fun hphase hpresent => ?keyrd, fun hphase habsent => ?keyrdEmpty, fun hphase => ?build,
    fun hphase => ?assign, fun hphase => ?unpack⟩
  case keyrd => exact afterPhase_puff hb hcmd hphase (by rw [(anyPresent_iff s.freq).mpr hpresent]; rfl)
  case keyrdEmpty =>
    exact afterPhase_puff hb hcmd hphase (by rw [(anyPresent_false_iff s.freq).mpr habsent]; rfl)
  case build => exact afterPhase_puff hb hcmd hphase rfl
  case assign => exact afterPhase_puff hb hcmd hphase rfl
  case unpack => exact afterPhase_puff hb hcmd hphase rfl

/-! ### COMMIT -/

/-- COMMIT ends the command, in DONE or in FAULT (rule R230, 60_exceptions.md rule R253). -/
theorem exec_commit_not_busy {s t : State} (h : exec .commit s = .next t) : t.state ≠ .busy := by
  rw [exec_commit] at h
  obtain ⟨-, hdone⟩ | ⟨-, hraised⟩ := commitPhase_cases s
  · rw [hdone] at h
    cases h
    exact RunState.noConfusion
  · rw [hraised] at h
    cases h
    exact RunState.noConfusion

/-- Settles O45, by the host's answer to `OutCommit`; after either end CORE waits. -/
theorem commitHandsOver : Obligations.CommitHandsOver := by
  intro s
  refine ⟨fun hok => ?_, fun hphase herr => ?_, fun t h => step_waiting (exec_commit_not_busy h)⟩
  · obtain ⟨-, hdone⟩ | ⟨herr, -⟩ := commitPhase_cases s
    · rw [exec_commit, hdone, outcome_done]
    · exact absurd herr hok
  · obtain ⟨hok, -⟩ | ⟨-, hraised⟩ := commitPhase_cases s
    · exact absurd herr hok
    · exact ⟨raise .eIoOut (answered 1 s), by rw [exec_commit, hraised, outcome_raised], rfl, rfl, rfl,
        hphase, rfl⟩

end Sys2Proof.Machine
end

section
/-! PROOFS. HUFF and PUFF as functions (46_commands.md rule R234), and the round trip (rule R235): on the functions
first, then on the machine, which computes them. -/

namespace Sys2Proof.Machine

open Codec

/-- Settles O52, by the stages of HUFF. -/
theorem huffIsItsFunction : Obligations.HuffIsItsFunction := fun _ => run_huff

/-- Settles O53, by the stages of PUFF. -/
theorem puffIsItsFunction : Obligations.PuffIsItsFunction := fun _ => run_puff

/-- Rule R235 on the functions. With a tree every byte of the input has a code, and `encodedLength` is the number of
the codes' bits, so they fit in `BITLEN`; the empty input is rule R285's case of two empty passes. -/
theorem puff_huff {d : List Byte} (hd : d.length < 2 ^ 64) (hbits : encodedLength d < 2 ^ 64) :
    ∃ file, huff d d = .ok file ∧ file.length < 2 ^ 64 ∧ puff file = .ok d := by
  obtain ⟨freq, hcount, -, ⟨rfl, -⟩ | ⟨hne, tree, hbuild, hcoded⟩⟩ := build_of_input hd
  · exact huff_then_puff (d := []) (e := []) (by decide) (by decide) fun _ => id
  · simp only [encodedLength, hcount, hbuild] at hbits
    obtain ⟨bs, henc, hlen⟩ := encodeBits_ok (n := 0) hcoded (by rwa [Nat.zero_add])
    rw [← hlen] at hbits
    refine ⟨keyBytes freq (BitVec.ofNat 64 bs.length) ++ packBytes bs, ?_,
      keyBytes_packBytes_length_lt freq _ hbits, ?_⟩
    · simp only [huff, hcount, hbuild, pack, henc]
    · rw [puff_keyBytes _ hbuild hbits, unpack_packBytes henc, if_neg hne]

/-- Settles O54: each command is its function on the machine, and the functions meet rule R235. -/
theorem roundTrip : Obligations.RoundTrip := by
  intro d s hd hbits hcmd hok hin1 hin2
  obtain ⟨file, hhuff, hfile, hpuff⟩ := puff_huff hd hbits
  obtain ⟨t, hrun, hended⟩ := run_huff hcmd hok (by rwa [hin1]) (by rwa [hin2])
  rw [hin1, hin2, hhuff] at hended
  obtain ⟨hstate, -, -, -, hout⟩ := hended
  refine ⟨t, hrun, hstate, fun s' hcmd' hok' hin1' => ?_⟩
  rw [hout] at hin1'
  obtain ⟨t', hrun', hended'⟩ := run_puff hcmd' hok' (by rwa [hin1'])
  rw [hin1', hpuff] at hended'
  obtain ⟨hstate', -, -, -, hout'⟩ := hended'
  exact ⟨t', hrun', hstate', hout'⟩

end Sys2Proof.Machine
end

section
/-! PROOFS. RESET, and the host's moves beside a running command (70_reset_and_hazards.md rule R280, rule R281,
46_commands.md rule R231, rule R232). -/

namespace Sys2Proof.Machine

/-- Settles O51: the state after reset is cleared, with `STATUS` of IDLE. -/
theorem invariantAfterReset : Obligations.InvariantAfterReset := resetWith_inv

/-- Settles O15: RESET answers the state after reset beside the host there is, and in IDLE CORE waits. -/
theorem resetRestoresEverything : Obligations.ResetRestoresEverything := by
  intro s
  refine ⟨resetWith s.host, rfl, rfl, rfl, rfl, rfl, rfl, rfl, entry_replicate 0, nodeAt_reset, rfl, rfl,
    rfl, entry_replicate Code.none, rfl, rfl, rfl, rfl, rfl, rfl, rfl, rfl, rfl, rfl, rfl, rfl, rfl, ?_,
    step_waiting (s := resetWith s.host) RunState.noConfusion⟩
  apply BitVec.eq_of_toNat_eq
  rw [statusWord_toNat]
  rfl

/-- Settles O18: a write while BUSY is ignored, a read of `STATUS` writes the host's side alone, and the host may
neither take `OUT` nor change the input while BUSY (rule R288). -/
theorem onlyResetStopsACommand : Obligations.OnlyResetStopsACommand := by
  intro s t a rest hb ha hrun hreset h
  rw [step_of_action ha] at h
  have hb' : (withActions rest s).state = .busy := hb
  cases a with
  | letRun => contradiction
  | reset => contradiction
  | writeCmd w =>
    obtain rfl := Host.Outcome.next.inj ((selectCommand_busy hb' w).symm.trans h)
    rfl
  | readStatus =>
    cases h
    rfl
  | takeOut => simp [selectAction, Selected.outcome, hostTakesOut, hb] at h
  | offer in1 in2 answers => simp [selectAction, Selected.outcome, hostOffers, hb] at h

end Sys2Proof.Machine
end

section
/-! PROOFS. What the step of a BUSY machine can do, said once: what the sequencer answers after a phase
(46_commands.md rule R227 to rule R229), and the next states of a phase with the sequencer's part after it. -/

namespace Sys2Proof.Machine

/-! ### The order of the phases -/

/-- The phase `p` stands after the phase `q` in one of the two commands (rule R227, rule R228), `present` being the
test of `FREQ`; a rewind lies between them or not. -/
def Follows (present : Bool) (q p : BitVec 4) : Prop :=
  (p = 2 ∧ (q = 1 ∨ q = 6) ∧ present = true) ∨ (p = 3 ∧ q = 2) ∨ (p = 4 ∧ (q = 1 ∨ q = 3)) ∨
    (p = 5 ∧ q = 4) ∨ (p = 7 ∧ (q = 3 ∨ q = 6)) ∨ (p = 8 ∧ (q = 5 ∨ q = 7))

theorem not_follows_first {b : Bool} {q p : BitVec 4} (hp : p = 1 ∨ p = 6) : ¬ Follows b q p := by
  rcases hp with rfl | rfl <;> simp [Follows]

/-- BUILD runs after COUNT or KEYRD of a table that is not empty. -/
theorem Follows.of_build {b : Bool} {q : BitVec 4} (h : Follows b q 2) :
    (q = 1 ∨ q = 6) ∧ b = true := by simpa [Follows] using h

/-- ASSIGN runs after BUILD. -/
theorem Follows.of_assign {b : Bool} {q : BitVec 4} (h : Follows b q 3) : q = 2 := by
  simpa [Follows] using h

theorem nextOfHuff_goto :
    ∀ (b : Bool) (q p : BitVec 4), nextOfHuff b q = .goto p → Follows b q p := by
  unfold Follows
  decide

theorem nextOfPuff_goto :
    ∀ (b : Bool) (q p : BitVec 4), nextOfPuff b q = .goto p → Follows b q p := by
  unfold Follows
  decide

theorem nextPhase_goto {s : State} {p : BitVec 4} (h : nextPhase s = .goto p) :
    Follows (anyPresent s.freq) s.phase p := by
  unfold nextPhase at h
  split_ifs at h
  · exact nextOfHuff_goto _ _ _ h
  · exact nextOfPuff_goto _ _ _ h

theorem nextOfHuff_rewind :
    ∀ (b : Bool) (q p : BitVec 4), nextOfHuff b q = .rewindThen p → p = 4 := by decide

theorem nextOfPuff_no_rewind :
    ∀ (b : Bool) (q p : BitVec 4), nextOfPuff b q ≠ .rewindThen p := by decide

/-- Only HUFF rewinds, before PACK. -/
theorem nextPhase_rewind {s : State} {p : BitVec 4} (h : nextPhase s = .rewindThen p) :
    p = 4 ∧ Follows (anyPresent s.freq) s.phase p := by
  obtain ⟨-, hafter⟩ := (nextPhase_mem s).2 p h
  unfold nextPhase at h
  split_ifs at h
  · have hp := nextOfHuff_rewind _ _ _ h
    exact ⟨hp, .inr (.inr (.inl ⟨hp, hafter⟩))⟩
  · exact absurd h (nextOfPuff_no_rewind _ _ _)

theorem nextOfHuff_some : ∀ b, ∀ q ∈ [1#4, 2, 3, 4, 5, 8], q ≠ 8 → nextOfHuff b q ≠ .nothing := by
  decide

theorem nextOfPuff_some : ∀ b, ∀ q ∈ [6#4, 2, 3, 7, 8], q ≠ 8 → nextOfPuff b q ≠ .nothing := by
  decide

/-- A phase of the command other than COMMIT has one after it. -/
theorem nextPhase_ne_nothing {s : State} (hmem : s.phase ∈ phasesOf s.cmd) (hlast : s.phase ≠ 8) :
    nextPhase s ≠ .nothing := by
  unfold nextPhase
  unfold phasesOf at hmem
  split_ifs at hmem ⊢
  · exact nextOfHuff_some _ _ hmem hlast
  · exact nextOfPuff_some _ _ hmem hlast
  · exact absurd hmem List.not_mem_nil

/-! ### The sequencer -/

/-- Everything the sequencer can answer after a phase that left `u`. -/
inductive AdvanceCase (u : State) : Host.Outcome State Fault Refusal → Prop
  /-- The command has ended. -/
  | ended (finished : u.state ≠ .busy) : AdvanceCase u (.next u)
  /-- The next phase, without a rewind. -/
  | goes (p : BitVec 4) (order : nextPhase u = .goto p) : AdvanceCase u (.next (setPhase p u))
  /-- PACK, the input rewound. -/
  | rewinds (order : nextPhase u = .rewindThen 4) : AdvanceCase u (.next (rewound u))
  /-- The fault of `InRewind` (20_memory.md rule R62). -/
  | fails (busy : u.state = .busy) : AdvanceCase u (.next (raise .eIoIn (answered 1 u)))
  /-- The command has no phase after this one (notes/assumptions/6.md). -/
  | outside (busy : u.state = .busy) (order : nextPhase u = .nothing) :
      AdvanceCase u (.refused (.phaseOutsideCommand u.cmd u.phase))

theorem advance_case (u : State) : AdvanceCase u (advance u) := by
  unfold advance
  split
  case isFalse finished => exact .ended finished
  case isTrue busy =>
    cases order : nextPhase u with
    | goto p => exact .goes p order
    | rewindThen p =>
      obtain ⟨rfl, -⟩ := nextPhase_rewind order
      by_cases herr : u.host.answers.head? = some .err
      · simp only [inRewind_err herr, bind_raised, outcome_raised]
        exact .fails busy
      · simp only [inRewind_ok herr, bind_done, outcome_done]
        exact .rewinds order
    | nothing => exact .outside busy order

/-- The sequencer does nothing after a command has ended. -/
theorem afterPhase_of_not_busy {u : State} (finished : u.state ≠ .busy) :
    afterPhase (.next u) = .next u := if_neg finished

/-! ### A phase, and the sequencer after it -/

/-- The codes of the eight phases (30_encoding.md rule R94). -/
theorem phase_eq_of_range : ∀ {p : BitVec 4}, 1 ≤ p.toNat ∧ p.toNat ≤ 8 →
    p = 1 ∨ p = 2 ∨ p = 3 ∨ p = 4 ∨ p = 5 ∨ p = 6 ∨ p = 7 ∨ p = 8 := by
  decide

/-- No phase touches the host's side but for the answers it takes (10_state.md rule R35). -/
theorem phaseWork_hostKept {p : BitVec 4} (s : State) (range : 1 ≤ p.toNat ∧ p.toNat ≤ 8) :
    (phaseWork p s).Sat (HostKept s) (fun _ t => HostKept s t) := by
  have built {t : State} (h : BuildKeeps s t) : HostKept s t := by
    rw [h.1]
    exact .refl s
  rcases phase_eq_of_range range with rfl | rfl | rfl | rfl | rfl | rfl | rfl | rfl
  · exact (countPhase_sat s).mono (fun _ ⟨_, hhost, _⟩ => hhost) (fun _ _ ⟨_, _, hhost, _⟩ => hhost)
  · exact (buildPhase_sat s).mono (fun _ => built) (fun _ _ h => built h.2)
  · refine (assignPhase_sat s).mono (fun _ h => ?_) (fun _ _ => False.elim)
    rw [h.1]
    exact .refl s
  · exact (packPhase_sat s).mono (fun _ ⟨_, hhost, _⟩ => hhost) (fun _ _ ⟨_, _, hhost, _⟩ => hhost)
  · exact HostKept.refl s
  · exact (keyrdPhase_sat s).mono (fun _ ⟨_, hhost, _⟩ => hhost) (fun _ _ ⟨_, _, hhost, _⟩ => hhost)
  · exact (unpackPhase_sat s).mono (fun _ ⟨_, hhost, _⟩ => hhost) (fun _ _ ⟨_, _, hhost, _⟩ => hhost)
  · show (commitPhase s).Sat _ _
    obtain ⟨-, h⟩ | ⟨-, h⟩ := commitPhase_cases s <;> rw [h] <;> exact HostKept.answered 1 s

theorem Keeps.state_eq {s u : State} (h : Keeps s u) : u.state = s.state := h.flags.1

theorem Keeps.phase_eq {s u : State} (h : Keeps s u) : u.phase = s.phase := by
  obtain ⟨-, -, -, hphase, -⟩ := h.flags
  exact hphase

/-- A phase other than COMMIT that is done has kept the flags and the invariant's parts. -/
theorem phaseWork_done_keeps {s u : State} {p : BitVec 4} (range : 1 ≤ p.toNat ∧ p.toNat ≤ 8)
    (hlast : p ≠ 8) (work : phaseWork p s = .done u) : Keeps s u := by
  have h := phaseWork_sat p s range.1 (by bv_omega)
  rwa [work] at h

/-- The next states of a BUSY machine's own step. -/
inductive PhaseCase (s : State) : State → Prop
  /-- The phase, or the rewind after it, raised a fault. -/
  | faults (e : ErrCode) (u : State) (host : HostKept s u) : PhaseCase s (raise e u)
  /-- The phase is done, and the next begins. -/
  | goes (u : State) (p : BitVec 4) (work : phaseWork s.phase s = .done u) (keeps : Keeps s u)
      (host : HostKept s u) (order : nextPhase u = .goto p) : PhaseCase s (setPhase p u)
  /-- The phase is done, the input is rewound and PACK begins. -/
  | rewinds (u : State) (keeps : Keeps s u) (host : HostKept s u)
      (order : nextPhase u = .rewindThen 4) : PhaseCase s (rewound u)
  /-- COMMIT has handed the output over (rule R230). -/
  | commits (last : s.phase = 8) : PhaseCase s { answered 1 s with out := s.obuf, state := .done }

/-- COMMIT, which the sequencer leaves as it ended. -/
theorem phase_case_commit {s t : State} (last : s.phase = 8)
    (h : afterPhase (commitPhase s).outcome = .next t) : PhaseCase s t := by
  obtain ⟨-, hend⟩ | ⟨-, hend⟩ := commitPhase_cases s
  · rw [hend, outcome_done, afterPhase_of_not_busy RunState.noConfusion] at h
    cases h
    exact .commits last
  · rw [hend, outcome_raised, afterPhase_of_not_busy RunState.noConfusion] at h
    cases h
    exact .faults .eIoOut _ (.answered 1 s)

theorem phase_case {s t : State} (busy : s.state = .busy)
    (range : 1 ≤ s.phase.toNat ∧ s.phase.toNat ≤ 8)
    (h : afterPhase (phaseWork s.phase s).outcome = .next t) : PhaseCase s t := by
  by_cases last : s.phase = 8
  · rw [last] at h
    exact phase_case_commit last h
  have hhost := phaseWork_hostKept s range
  cases work : phaseWork s.phase s with
  | done u =>
    have keeps := phaseWork_done_keeps range last work
    have hbusy : u.state = .busy := keeps.state_eq.trans busy
    rw [work] at h hhost
    have hadvance : AdvanceCase u (.next t) := h ▸ advance_case u
    cases hadvance with
    | ended finished => contradiction
    | goes p order => exact .goes u p work keeps hhost order
    | rewinds order => exact .rewinds u keeps hhost order
    | fails => exact .faults .eIoIn _ (hhost.trans (.answered 1 u))
  | raised e u =>
    rw [work, outcome_raised, afterPhase_of_not_busy RunState.noConfusion] at h
    rw [work] at hhost
    cases h
    exact .faults e u hhost
  | stuck f => simp [work, afterPhase] at h
  | refused r => simp [work, afterPhase] at h

/-! ### Runs -/

theorem run_fault {n : Nat} {s : State} {f : Fault} (h : step s = .fault f) :
    Host.Core.run core (n + 1) s = .fault f := by
  have hstop : core.step s = .fault f := h
  simp only [Host.Core.run, hstop]

theorem run_refused {n : Nat} {s : State} {r : Refusal} (h : step s = .refused r) :
    Host.Core.run core (n + 1) s = .refused r := by
  have hstop : core.step s = .refused r := h
  simp only [Host.Core.run, hstop]

/-- What steps keep, and what it gives of a step, hold of every run (rule R237). -/
theorem run_induction {P : State → Prop} {Q : Host.Outcome State Fault Refusal → Prop}
    (keeps : ∀ s t, P s → step s = .next t → P t) (here : ∀ s, P s → Q (.next s))
    (stops : ∀ s, P s → Q (step s)) (n : Nat) {s : State} (hs : P s) :
    Q (Host.Core.run core n s) := by
  induction n generalizing s with
  | zero => exact here s hs
  | succ n ih =>
    have hq := stops s hs
    cases hstep : step s with
    | next t =>
      rw [run_succ hstep]
      exact ih (keeps s t hs hstep)
    | fault f =>
      rw [hstep] at hq
      rwa [run_fault hstep]
    | refused r =>
      rw [hstep] at hq
      rwa [run_refused hstep]

end Sys2Proof.Machine
end

section
/-! PROOFS. The output is complete in DONE and empty elsewhere (60_exceptions.md rule R263, 10_state.md rule R34). -/

namespace Sys2Proof.Machine

/-- A phase leads to DONE only as COMMIT, which hands the staged output over (46_commands.md rule R230). -/
theorem PhaseCase.output_of_done {s t : State} (h : PhaseCase s t) (busy : s.state = .busy)
    (hdone : t.state = .done) : s.phase = 8 ∧ t.out = s.obuf ∧ t.obuf = s.obuf := by
  cases h with
  | faults e u => cases hdone
  | goes u p work keeps => cases (keeps.state_eq.trans busy).symm.trans hdone
  | rewinds u keeps => cases (keeps.state_eq.trans busy).symm.trans hdone
  | commits last => exact ⟨last, rfl, rfl⟩

/-- The output in DONE after one step: it was there before, or COMMIT has just handed it over. -/
theorem step_output_of_done {s t : State} (hs : Delivered s) (h : step s = .next t)
    (hdone : t.state = .done) :
    t.out = t.obuf ∧ ((s.state = .done ∧ t.out = s.out) ∨
      (s.state = .busy ∧ s.phase = 8 ∧ t.out = s.obuf)) := by
  cases step_case h with
  | waits host => exact ⟨hs.complete hdone, .inl ⟨hdone, rfl⟩⟩
  | resets | startsHuff | startsPuff | rejects => cases hdone
  | runs acts _ busy range work =>
    have hphase := phase_case (s := withActions acts s) busy range work
    obtain ⟨last, hout, hobuf⟩ := hphase.output_of_done busy hdone
    exact ⟨hout.trans hobuf.symm, .inr ⟨busy, last, hout⟩⟩

theorem Delivered.step {s t : State} (hs : Delivered s) (h : step s = .next t) : Delivered t :=
  ⟨everyStepKeepsTheInvariant s t hs.inv h, fun hdone => (step_output_of_done hs h hdone).1⟩

theorem delivered_reset (h : HostSide) : Delivered (resetWith h) :=
  ⟨resetWith_inv h, fun hdone => by cases hdone⟩

/-- Settles O58, by the cases of a step; of a run from reset, by induction. -/
theorem noPartialOutput : Obligations.NoPartialOutput := by
  refine ⟨fun s t hs h => ⟨hs.step h, (hs.step h).inv.output, step_output_of_done hs h⟩,
    delivered_reset, fun h n t hrun => ?_⟩
  have ht : Delivered t := run_induction (P := Delivered) (Q := fun o => ∀ t, o = .next t → Delivered t)
    (fun _ _ => Delivered.step) (fun _ hs _ h => Host.Outcome.next.inj h ▸ hs)
    (fun _ hs _ => hs.step) n (delivered_reset h) t hrun
  exact ⟨ht.inv.output, ht.complete⟩

end Sys2Proof.Machine
end

section
/-! PROOFS. What BUILD and ASSIGN need is there when they run (41_tree_builder.md rule R140, 42_code_assigner.md rule
R160, rule R162), so no run meets a stuck state of the model (70_reset_and_hazards.md rule R289). -/

namespace Sys2Proof.Machine

open Codec

/-! ### The invariant is kept -/

/-- A BUSY machine is in a phase of its command. -/
theorem Inv.phase_mem {s : State} (hi : Inv s) (busy : s.state = .busy) : s.phase ∈ phasesOf s.cmd := by
  have hstatus := hi.status
  simp only [StatusOk, busy] at hstatus
  obtain ⟨-, -, hmem⟩ := hstatus
  exact hmem

theorem Inv.phase_range {s : State} (hi : Inv s) (busy : s.state = .busy) :
    1 ≤ s.phase.toNat ∧ s.phase.toNat ≤ 8 := phasesOf_range (hi.phase_mem busy)

/-- Outside BUSY nothing runs next. -/
theorem Inv.entry_of_not_busy {s : State} (hi : Inv s) (hidle : s.state ≠ .busy) : EntryInv s :=
  ⟨hi, fun busy => absurd busy hidle, fun busy => absurd busy hidle, fun busy => absurd busy hidle⟩

theorem EntryInv.setHost {s : State} (hs : EntryInv s) (h : HostSide) :
    EntryInv { s with host := h } :=
  ⟨hs.inv.setHost h, hs.fresh, hs.present, hs.tree⟩

/-- Both commands start with nothing merged, in COUNT or in KEYRD (46_commands.md rule R226). -/
theorem startCommand_entryInv {word : BitVec 32} {p : BitVec 4} (hp : p ∈ phasesOf word)
    (hfirst : p = 1 ∨ p = 6) (s : State) : EntryInv (setPhase p (startCommand word s)) where
  inv := startCommand_inv hp s
  fresh := fun _ _ => ⟨rfl, rfl⟩
  present := fun _ h2 => by
    have h2' : p = 2 := h2
    simp [h2'] at hfirst
  tree := fun _ h3 => by
    have h3' : p = 3 := h3
    simp [h3'] at hfirst

section

variable {s u : State} (hs : EntryInv s) (busy : s.state = .busy)

include hs busy

/-- COUNT and KEYRD merge no node. -/
theorem EntryInv.fresh_after (hphase : s.phase = 1 ∨ s.phase = 6) (work : phaseWork s.phase s = .done u) :
    u.pool = [] ∧ u.nextId = 256 := by
  have kept : (phaseWork s.phase s).Sat (fun t => t.pool = s.pool ∧ t.nextId = s.nextId)
      fun _ _ => True := by
    rcases hphase with hphase | hphase <;> rw [hphase]
    · exact (countPhase_sat s).mono (fun t ⟨hframe, _⟩ => by rw [hframe]; exact ⟨rfl, rfl⟩)
        fun _ _ _ => trivial
    · exact (keyrdPhase_sat s).mono (fun t ⟨hframe, _⟩ => by rw [hframe]; exact ⟨rfl, rfl⟩)
        fun _ _ _ => trivial
  rw [work] at kept
  obtain ⟨hpool, hnext⟩ := hs.fresh busy (by tauto)
  exact ⟨kept.1.trans hpool, kept.2.trans hnext⟩

/-- BUILD of a table that is not empty: its tree, or the overflow (41_tree_builder.md rule R147, rule R148). -/
theorem EntryInv.buildPhase_cases (hphase : s.phase = 2) :
    (∃ t, buildPhase s = .raised .eOverflow t) ∨
    ∃ t r tree, buildPhase s = .done t ∧ t.root = some r ∧ Represents t.node r tree ∧
      tree.depth ≤ 255 := by
  obtain ⟨hpool, hnext⟩ := hs.fresh busy (.inr (.inl hphase))
  obtain ⟨b, hb⟩ := hs.present busy hphase
  have hbuilt := buildPhase_eq hpool hnext
  cases hbuild : build s.freq with
  | error e =>
    rw [hbuild] at hbuilt
    obtain ⟨rfl, t, hraised, -⟩ := hbuilt
    exact .inl ⟨t, hraised⟩
  | ok tree =>
    cases tree with
    | none =>
      rw [hbuild] at hbuilt
      exact absurd ((presentBytes_eq_nil _).mp hbuilt.1 b) hb
    | some tree =>
      rw [hbuild] at hbuilt
      obtain ⟨r, t, hdone, hroot, -, htree, -⟩ := hbuilt
      exact .inr ⟨t, r, tree, hdone, hroot, htree, build_depth_le hbuild⟩

/-- The phase that follows finds what it needs. -/
theorem EntryInv.goes {p : BitVec 4} (work : phaseWork s.phase s = .done u) (keeps : Keeps s u)
    (order : nextPhase u = .goto p) (hinv : Inv (setPhase p u)) : EntryInv (setPhase p u) := by
  have hfollows := nextPhase_goto order
  rw [keeps.phase_eq] at hfollows
  refine ⟨hinv, fun _ hp => ?fresh, fun _ hp => ?present, fun _ hp => ?tree⟩
  case fresh =>
    obtain rfl | rfl | rfl : p = 1 ∨ p = 2 ∨ p = 6 := hp
    · exact absurd hfollows (not_follows_first (.inl rfl))
    · exact hs.fresh_after (u := u) busy hfollows.of_build.1 work
    · exact absurd hfollows (not_follows_first (.inr rfl))
  case present =>
    obtain rfl : p = 2 := hp
    exact (anyPresent_iff u.freq).mp hfollows.of_build.2
  case tree =>
    obtain rfl : p = 3 := hp
    have hphase := hfollows.of_assign
    rw [hphase] at work
    obtain ⟨t, hraised⟩ | ⟨t, r, tree, hdone, hroot, htree, hdepth⟩ := hs.buildPhase_cases busy hphase
    · cases hraised.symm.trans work
    · obtain rfl : t = u := Ended.done.inj (hdone.symm.trans work)
      exact ⟨r, tree, hroot, htree, hdepth⟩

theorem EntryInv.phase {t : State} (h : PhaseCase s t) (hinv : Inv t) : EntryInv t := by
  cases h with
  | faults e u => exact hinv.entry_of_not_busy RunState.noConfusion
  | goes u p work keeps host order => exact hs.goes busy work keeps order hinv
  | rewinds u =>
    have hpack : (rewound u).phase = 4 := rfl
    refine ⟨hinv, ?_, ?_, ?_⟩ <;> simp [hpack]
  | commits => exact hinv.entry_of_not_busy RunState.noConfusion

end

theorem EntryInv.step {s t : State} (hs : EntryInv s) (h : step s = .next t) : EntryInv t := by
  have hinv := everyStepKeepsTheInvariant s t hs.inv h
  cases step_case h with
  | waits host => exact hs.setHost host
  | resets | rejects => exact hinv.entry_of_not_busy RunState.noConfusion
  | startsHuff acts _ => exact startCommand_entryInv (by decide) (.inl rfl) _
  | startsPuff acts _ => exact startCommand_entryInv (by decide) (.inr rfl) _
  | runs acts _ busy range work =>
    exact EntryInv.phase (s := withActions acts s) (hs.setHost _) busy
      (phase_case (s := withActions acts s) busy range work) hinv

/-! ### Where a step can stop -/

/-- The outcome is a next state, or a refusal of the given kind. -/
def StopsAt (R : Refusal → Prop) : Host.Outcome State Fault Refusal → Prop
  | .next _ => True
  | .fault _ => False
  | .refused r => R r

theorem StopsAt.mono {R R' : Refusal → Prop} {o : Host.Outcome State Fault Refusal} (h : StopsAt R o)
    (hR : ∀ r, R r → R' r) : StopsAt R' o := by
  cases o with
  | next t => trivial
  | fault f => exact h
  | refused r => exact hR r h

/-- The input of a pass is longer than `IN_POS` can count (notes/assumptions/5.md). -/
def InputTooLong (s : State) : Prop := TooLong .one s ∨ TooLong .two s

theorem Ended.Own.mono {long long' : Prop} {e : Ended} (h : e.Own long) (hlong : long → long') :
    e.Own long' := by
  cases e with
  | refused r => exact ⟨h.1, hlong h.2⟩
  | done | raised => trivial
  | stuck f => exact h

section

variable {s : State} (hs : EntryInv s) (busy : s.state = .busy)

include hs busy

/-- Whatever phase runs next ends by itself, but for an input too long. -/
theorem EntryInv.phaseWork_own : (phaseWork s.phase s).Own (InputTooLong s) := by
  rcases phase_eq_of_range (hs.inv.phase_range busy) with
    hp | hp | hp | hp | hp | hp | hp | hp <;> rw [hp]
  · exact (countPhase_own s).mono .inl
  · show (buildPhase s).Own _
    obtain ⟨t, h⟩ | ⟨t, r, tree, h, -⟩ := hs.buildPhase_cases busy hp <;> rw [h] <;> trivial
  · obtain ⟨r, tree, hroot, htree, hdepth⟩ := hs.tree busy hp
    show (assignPhase s).Own _
    rw [assignPhase_eq hroot (represents_shaped htree) hdepth]
    trivial
  · exact (packPhase_own s).mono .inr
  · trivial
  · exact (keyrdPhase_own s).mono .inl
  · exact (unpackPhase_own s).mono .inl
  · show (commitPhase s).Own _
    obtain ⟨-, h⟩ | ⟨-, h⟩ := commitPhase_cases s <;> rw [h] <;> trivial

/-- A command that goes on after a phase has a next phase. -/
theorem EntryInv.nextPhase_ne_nothing {u : State} (work : phaseWork s.phase s = .done u)
    (hbusy : u.state = .busy) : nextPhase u ≠ .nothing := by
  by_cases last : s.phase = 8
  · rw [last] at work
    obtain ⟨-, h⟩ | ⟨-, h⟩ := commitPhase_cases s
    · cases h.symm.trans work
      cases hbusy
    · cases h.symm.trans work
  · obtain ⟨-, -, -, hphase, hcmd, -⟩ :=
      (phaseWork_done_keeps (hs.inv.phase_range busy) last work).flags
    refine Machine.nextPhase_ne_nothing ?_ ?_ <;> rw [hphase]
    · rw [hcmd]
      exact hs.inv.phase_mem busy
    · exact last

theorem EntryInv.afterPhase_stops :
    StopsAt (fun r => r = .inputBeyondCapacity ∧ InputTooLong s)
      (afterPhase (phaseWork s.phase s).outcome) := by
  have hown := hs.phaseWork_own busy
  cases work : phaseWork s.phase s with
  | done u =>
    show StopsAt _ (advance u)
    have hadvance := advance_case u
    generalize advance u = answer at hadvance ⊢
    cases hadvance with
    | ended | goes | rewinds | fails => trivial
    | outside hbusy order => exact absurd order (hs.nextPhase_ne_nothing busy work hbusy)
  | raised e u =>
    rw [outcome_raised, afterPhase_of_not_busy RunState.noConfusion]
    trivial
  | stuck f =>
    rw [work] at hown
    exact hown
  | refused r =>
    rw [work] at hown
    exact hown

end

/-- The stops of a step that are the host's own breaches (rule R288, notes/assumptions/5.md and 8.md). -/
def HostBreach (r : Refusal) : Prop :=
  r = .inputBeyondCapacity ∨ r = .outTakenBeforeDone ∨ r = .inputChangedWhileBusy

/-- The code of a phase decodes (30_encoding.md rule R94). -/
theorem selectPhase_outcome {s : State} (busy : s.state = .busy)
    (range : 1 ≤ s.phase.toNat ∧ s.phase.toNat ≤ 8) :
    (selectPhase s).outcome = afterPhase (phaseWork s.phase s).outcome := by
  have hdecode : ∃ i, decodePhase s.phase = .instr i := by
    rcases phase_eq_of_range range with hp | hp | hp | hp | hp | hp | hp | hp <;> rw [hp] <;>
      exact ⟨_, rfl⟩
  obtain ⟨i, hi⟩ := hdecode
  obtain ⟨-, hexec⟩ := decodePhase_instr hi
  rw [selectPhase_busy busy hi, Selected.outcome, hexec]

theorem EntryInv.selectPhase_stops {s : State} (hs : EntryInv s) :
    StopsAt HostBreach (selectPhase s).outcome := by
  by_cases busy : s.state = .busy
  · rw [selectPhase_outcome busy (hs.inv.phase_range busy)]
    exact (hs.afterPhase_stops busy).mono fun r h => .inl h.1
  · rw [selectPhase, if_neg busy]
    trivial

/-- A write to `CMD` always has a next state (46_commands.md rule R225, rule R231). -/
theorem selectCommand_stops (R : Refusal → Prop) (w : BitVec 32) (s : State) :
    StopsAt R (selectCommand w s).outcome := by
  simp only [selectCommand, decode, decodeCommand]
  split_ifs <;> trivial

theorem EntryInv.step_stops {s : State} (hs : EntryInv s) : StopsAt HostBreach (Machine.step s) := by
  cases ha : s.host.actions with
  | nil =>
    rw [step_of_no_action ha]
    exact hs.selectPhase_stops
  | cons a rest =>
    rw [step_of_action ha]
    cases a with
    | letRun => exact EntryInv.selectPhase_stops (s := withActions rest s) (hs.setHost _)
    | reset => trivial
    | writeCmd w => exact selectCommand_stops _ w _
    | readStatus => trivial
    | takeOut =>
      simp only [selectAction, Selected.outcome, hostTakesOut]
      split
      · trivial
      · exact .inr (.inl rfl)
    | offer in1 in2 answers =>
      simp only [selectAction, Selected.outcome, hostOffers]
      split
      · exact .inr (.inr rfl)
      · trivial

/-- The host's own breaches are none of the model's stuck states and none of its refusals by name. -/
theorem StopsAt.not_stuck {o : Host.Outcome State Fault Refusal} (h : StopsAt HostBreach o) :
    (∀ f, o ≠ .fault f) ∧ (∀ p, o ≠ .refused (.phaseNotStarted p)) ∧
      (∀ w p, o ≠ .refused (.phaseOutsideCommand w p)) ∧ (∀ m, o ≠ .refused (.notModelled m)) := by
  cases o with
  | next t => exact ⟨nofun, nofun, nofun, nofun⟩
  | fault f => exact h.elim
  | refused r =>
    obtain rfl | rfl | rfl := h <;> exact ⟨nofun, nofun, nofun, nofun⟩

theorem entryInv_reset (h : HostSide) : EntryInv (resetWith h) :=
  (resetWith_inv h).entry_of_not_busy RunState.noConfusion

/-- Settles O59: a step keeps `EntryInv` and stops only at a breach of the host; of a run from reset, by induction. -/
theorem noRunGetsStuck : Obligations.NoRunGetsStuck :=
  ⟨fun _ hs => ⟨fun _ => hs.step, hs.step_stops.not_stuck⟩, entryInv_reset, fun h n =>
    (run_induction (P := EntryInv) (Q := StopsAt HostBreach) (fun _ _ => EntryInv.step)
      (fun _ _ => trivial) (fun _ => EntryInv.step_stops) n (entryInv_reset h)).not_stuck⟩

end Sys2Proof.Machine
end

section
/-! PROOFS. Every loop and every command ends (70_reset_and_hazards.md rule R289). -/

namespace Sys2Proof.Machine

/-! ### Loops -/

theorem outcome_ne_fault {w : Ended} {f : Fault} (h : w ≠ .stuck f) : w.outcome ≠ .fault f := by
  cases w with
  | stuck g => exact fun hf => h (congrArg Ended.stuck (Host.Outcome.fault.inj hf))
  | done | raised | refused => exact nofun

theorem Ended.Own.ne_stuck {long : Prop} {w : Ended} (h : w.Own long) (f : Fault) : w ≠ .stuck f := by
  rintro rfl
  exact h

/-- Settles O60, by the operation: a loop's measure falls at every iteration, and the rest have no loop. -/
theorem everyLoopEnds : Obligations.EveryLoopEnds := by
  intro i s
  cases i with
  | huff | puff | reset | keywr => exact nofun
  | count => exact outcome_ne_fault ((countPhase_own s).ne_stuck _)
  | build => exact outcome_ne_fault (buildPhase_not_bound s)
  | assign => exact outcome_ne_fault (assignPhase_not_bound s)
  | pack => exact outcome_ne_fault ((packPhase_own s).ne_stuck _)
  | keyrd => exact outcome_ne_fault ((keyrdPhase_own s).ne_stuck _)
  | unpack => exact outcome_ne_fault ((unpackPhase_own s).ne_stuck _)
  | commit =>
    rw [exec_commit]
    obtain ⟨-, h⟩ | ⟨-, h⟩ := commitPhase_cases s <;> rw [h] <;> exact nofun
  | keyHeader h n =>
    rw [exec_keyHeader]
    obtain ⟨-, he⟩ | ⟨-, he⟩ := takeHeader_cases h n s <;> rw [he] <;> exact nofun
  | keyRecord b f =>
    rw [exec_keyRecord]
    obtain ⟨-, he⟩ | ⟨-, he⟩ := takeRecord_cases b f s <;> rw [he] <;> exact nofun

/-! ### Commands -/

/-- A bound on the phases still to run, that of a phase included. -/
def phasesLeft (p : BitVec 4) : Nat :=
  match p.toNat with
  | 1 => 6
  | 6 => 6
  | 2 => 5
  | 3 => 4
  | 4 => 3
  | 7 => 3
  | 5 => 2
  | 8 => 1
  | _ => 0

theorem Follows.phasesLeft_lt {b : Bool} {q p : BitVec 4} (h : Follows b q p) :
    phasesLeft p < phasesLeft q := by
  rcases h with ⟨rfl, rfl | rfl, -⟩ | ⟨rfl, rfl⟩ | ⟨rfl, rfl | rfl⟩ | ⟨rfl, rfl⟩ |
    ⟨rfl, rfl | rfl⟩ | ⟨rfl, rfl | rfl⟩ <;> decide

theorem phasesLeft_pos {p : BitVec 4} (range : 1 ≤ p.toNat ∧ p.toNat ≤ 8) : 0 < phasesLeft p := by
  rcases phase_eq_of_range range with rfl | rfl | rfl | rfl | rfl | rfl | rfl | rfl <;> decide

/-- A command runs, the host lets it, and its inputs are short enough. -/
structure InCommand (s : State) : Prop where
  entry : EntryInv s
  busy : s.state = .busy
  quiet : s.host.actions = []
  short : ¬ InputTooLong s

/-- A command has ended, and the host does nothing more. -/
structure CommandOver (s : State) : Prop where
  finished : s.state = .done ∨ s.state = .fault
  quiet : s.host.actions = []

theorem CommandOver.run {s : State} (h : CommandOver s) (n : Nat) : Host.Core.run core n s = .next s :=
  run_waiting (by rcases h.finished with h | h <;> simp [h]) h.quiet n

/-- A running command takes a step, to a later phase or to its end. -/
theorem InCommand.step {s : State} (hs : InCommand s) : ∃ t, step s = .next t ∧
    (CommandOver t ∨ InCommand t ∧ phasesLeft t.phase < phasesLeft s.phase) := by
  have range := hs.entry.inv.phase_range hs.busy
  have hstep := step_busy hs.busy hs.quiet rfl range
  have hstops := hs.entry.afterPhase_stops hs.busy
  rw [← hstep] at hstops
  cases h : Machine.step s with
  | fault f =>
    rw [h] at hstops
    exact hstops.elim
  | refused r =>
    rw [h] at hstops
    exact absurd hstops.2 hs.short
  | next t =>
    have hentry := hs.entry.step h
    have quiet {u : State} (host : HostKept s u) : u.host.actions = [] := by
      rw [host.1]
      exact hs.quiet
    have short {u : State} (host : HostKept s u) : ¬ InputTooLong u := fun hlong =>
      hs.short (hlong.imp host.tooLong host.tooLong)
    refine ⟨t, rfl, ?_⟩
    cases phase_case hs.busy range (hstep.symm.trans h) with
    | faults e u host => exact .inl ⟨.inr rfl, quiet host⟩
    | goes u p work keeps host order =>
      have hfollows := nextPhase_goto order
      rw [keeps.phase_eq] at hfollows
      exact .inr ⟨⟨hentry, keeps.state_eq.trans hs.busy, quiet host, short host⟩, hfollows.phasesLeft_lt⟩
    | rewinds u keeps host order =>
      obtain ⟨-, hfollows⟩ := nextPhase_rewind order
      rw [keeps.phase_eq] at hfollows
      have hhost : HostKept s (rewound u) := host.trans (.answered 1 u)
      exact .inr ⟨⟨hentry, keeps.state_eq.trans hs.busy, quiet hhost, short hhost⟩, hfollows.phasesLeft_lt⟩
    | commits => exact .inl ⟨.inl rfl, hs.quiet⟩

/-- A running command ends within the bound on its phases. -/
theorem InCommand.run {n : Nat} {s : State} (hs : InCommand s) (hn : phasesLeft s.phase ≤ n) :
    ∃ t, Host.Core.run core n s = .next t ∧ (t.state = .done ∨ t.state = .fault) := by
  induction n generalizing s with
  | zero =>
    have := phasesLeft_pos (hs.entry.inv.phase_range hs.busy)
    omega
  | succ n ih =>
    obtain ⟨t, hstep, hover | ⟨hin, hlt⟩⟩ := hs.step
    · exact ⟨t, by rw [run_succ hstep, hover.run], hover.finished⟩
    · rw [run_succ hstep]
      exact ih hin (by omega)

/-- A command that has just started (46_commands.md rule R225). -/
theorem inCommand_start {s : State} {word : BitVec 32} {p : BitVec 4} (hp : p ∈ phasesOf word)
    (hfirst : p = 1 ∨ p = 6) (hlen1 : s.host.in1.length < 2 ^ 64) (hlen2 : s.host.in2.length < 2 ^ 64) :
    InCommand (setPhase p (startCommand word (withActions [] s))) :=
  ⟨startCommand_entryInv hp hfirst _, rfl, rfl, fun hlong =>
    hlong.elim (Nat.not_le.mpr hlen1) (Nat.not_le.mpr hlen2)⟩

/-- Settles O57: an illegal word ends in FAULT at once, and the two commands have at most six phases. -/
theorem everyCommandEnds : Obligations.EveryCommandEnds := by
  rintro w s ⟨hidle, ha⟩ hlen1 hlen2
  rw [run_succ (step_writeCmd hidle ha), afterWrite]
  split_ifs with hhuff hpuff
  · subst hhuff
    exact (inCommand_start (by decide) (.inl rfl) hlen1 hlen2).run le_rfl
  · subst hpuff
    exact (inCommand_start (by decide) (.inr rfl) hlen1 hlen2).run le_rfl
  · exact ⟨_, run_waiting RunState.noConfusion rfl 6, .inr rfl⟩

end Sys2Proof.Machine
end

section
/-! PROOFS. Which operation raises which fault (60_exceptions.md rule R260): what each phase's own law says it can
raise, and the rewind's fault. -/

namespace Sys2Proof.Machine

/-- A FAULT after work that keeps the flags of a BUSY state is one of those the work can raise. -/
theorem faulted_of_sat {s t : State} {w : Ended} {D : State → Prop} {R : ErrCode → State → Prop}
    (hb : s.state = .busy) (hf : t.state = .fault) (hsat : w.Sat D R) (done : ∀ u, D u → Keeps s u)
    (raised : ∀ c u, R c u → Keeps s u) (h : w.outcome = .next t) : ∃ c u, R c u ∧ Faulted c s t := by
  rcases outcome_next hsat h with hd | ⟨c, u, hr, rfl⟩
  · cases ((done t hd).state_eq.trans hb).symm.trans hf
  · obtain ⟨-, -, -, hphase, hcmd, -⟩ := (raised c u hr).flags
    exact ⟨c, u, hr, faulted_raise c hphase hcmd⟩

section

variable {s t : State} (hb : s.state = .busy) (hf : t.state = .fault)

include hb hf

theorem exec_count_faults (h : exec .count s = .next t) : Faulted .eIoIn s t ∨ Faulted .eOverflow s t := by
  obtain ⟨c, u, ⟨rfl | rfl, -⟩, hfault⟩ := faulted_of_sat hb hf (countPhase_sat s)
    (fun _ h => h.toKeeps) (fun _ _ h => h.2.toKeeps) h
  · exact .inl hfault
  · exact .inr hfault

theorem exec_build_faults (h : exec .build s = .next t) : Faulted .eOverflow s t := by
  obtain ⟨c, u, ⟨rfl, -⟩, hfault⟩ := faulted_of_sat hb hf (buildPhase_sat s)
    (fun _ h => h.toKeeps) (fun _ _ h => h.2.toKeeps) h
  exact hfault

theorem exec_assign_no_fault : exec .assign s ≠ .next t := fun h => by
  rw [exec_assign_frame h] at hf
  cases hb.symm.trans hf

theorem advance_faults (h : afterPhase (.next s) = .next t) : Faulted .eIoIn s t := by
  have hadvance : AdvanceCase s (.next t) := h ▸ advance_case s
  cases hadvance with
  | ended | goes | rewinds => cases hb.symm.trans hf
  | fails => exact faulted_raise .eIoIn rfl rfl

theorem exec_pack_faults (h : exec .pack s = .next t) :
    Faulted .eIoIn s t ∨ Faulted .eLookup s t ∨ Faulted .eOverflow s t := by
  obtain ⟨c, u, ⟨rfl | rfl | rfl, -⟩, hfault⟩ := faulted_of_sat hb hf (packPhase_sat s)
    (fun _ h => h.toKeeps) (fun _ _ h => h.2.toKeeps) h
  · exact .inl hfault
  · exact .inr (.inl hfault)
  · exact .inr (.inr hfault)

theorem exec_keywr_no_fault : exec .keywr s ≠ .next t := fun h => by
  obtain ⟨-, hframe⟩ := exec_keywr_frame h
  rw [hframe] at hf
  cases hb.symm.trans hf

theorem exec_keyrd_faults (h : exec .keyrd s = .next t) :
    Faulted .eIoIn s t ∨ Faulted .eFmtShort s t ∨ Faulted .eFmtHdrlen s t ∨ Faulted .eFmtRecord s t := by
  obtain ⟨c, u, ⟨rfl | rfl | rfl | rfl, -⟩, hfault⟩ := faulted_of_sat hb hf (keyrdPhase_sat s)
    (fun _ h => h.toKeeps) (fun _ _ h => h.2.toKeeps) h
  · exact .inl hfault
  · exact .inr (.inl hfault)
  · exact .inr (.inr (.inl hfault))
  · exact .inr (.inr (.inr hfault))

theorem exec_unpack_faults (h : exec .unpack s = .next t) :
    Faulted .eIoIn s t ∨ Faulted .eFmtBitlen s t ∨ Faulted .eFmtTrunc s t := by
  obtain ⟨c, u, ⟨rfl | rfl | rfl, -⟩, hfault⟩ := faulted_of_sat hb hf (unpackPhase_sat s)
    (fun _ h => h.toKeeps) (fun _ _ h => h.2.toKeeps) h
  · exact .inl hfault
  · exact .inr (.inl hfault)
  · exact .inr (.inr hfault)

omit hb in
theorem exec_commit_faults (h : exec .commit s = .next t) : Faulted .eIoOut s t := by
  rw [exec_commit] at h
  obtain ⟨-, hend⟩ | ⟨-, hend⟩ := commitPhase_cases s <;> rw [hend] at h <;> cases h
  · cases hf
  · exact faulted_raise .eIoOut rfl rfl

end

/-- Settles O46, by what each operation can raise. -/
theorem faultsOfEachOperation : Obligations.FaultsOfEachOperation := fun _ _ hb hf =>
  ⟨exec_count_faults hb hf, exec_build_faults hb hf, exec_assign_no_fault hb hf, advance_faults hb hf,
    exec_pack_faults hb hf, exec_keywr_no_fault hb hf, exec_keyrd_faults hb hf, exec_unpack_faults hb hf,
    exec_commit_faults hf⟩

end Sys2Proof.Machine
end
